-- ==== Sys2Proof/Word.lean ====
section
/-! DEFINITION. The word types of GBLUR7: registers and pixels are 32 bits, memory is bytes, the register window is 4 KiB. -/
namespace Sys2Proof

/-- A register of the register port, a pixel, or a binary32 value (R17, R20). -/
abbrev Word := BitVec 32

/-- The smallest addressable unit of the memory space, one channel of a pixel (R55). -/
abbrev Byte := BitVec 8

/-- A byte offset inside the 4 KiB register window, `0x000` to `0xFFF` (R20). -/
abbrev Offset := BitVec 12

end Sys2Proof
end

