-- ==== Sys2Proof/Machine/Float.lean ====
section
/-! DEFINITION. Binary32 (R14, R15, R16), computed on integers: every finite binary32 value is a whole number of units of
2^-149, so a sum or a product is computed exactly and rounded once. -/
namespace Sys2Proof.Machine

/-- The biased exponent, bits 30..23 (R14). -/
def F32.expField (w : Word) : Nat := w.toNat / 2 ^ 23 % 256

/-- The fraction, bits 22..0 (R14). -/
def F32.fraction (w : Word) : Nat := w.toNat % 2 ^ 23

/-- The magnitude of a finite value in units of 2^-149 (R14). Exponent 255 encodes no finite value; no run produces one,
and the formula is then the model's own (log 16). -/
def F32.magnitude (w : Word) : Nat :=
  if F32.expField w = 0 then F32.fraction w
  else (2 ^ 23 + F32.fraction w) * 2 ^ (F32.expField w - 1)

/-- The value in units of 2^-149, with its sign, bit 31 (R14). -/
def F32.units (w : Word) : Int :=
  if w.msb then -(F32.magnitude w : Int) else (F32.magnitude w : Int)

/-- `num / den` to the nearest integer, ties to the even one (R14, R16). -/
def roundHalfEven (num den : Nat) : Nat :=
  let q := num / den
  let r := num % den
  if 2 * r < den then q
  else if den < 2 * r then q + 1
  else if q % 2 = 0 then q else q + 1

/-- The bits 30..0 of the binary32 value nearest to `num / den` units of 2^-149, ties to even, with gradual underflow
(R14). `e` is the exponent of the last place: 0 for a subnormal result and for the smallest normal binade, so the same
`e * 2^23 + significand` is the encoding of both, and a carry out of the significand lands in the exponent. A value that
overflows (which R14 says is never rounded) gives the encoding of infinity. -/
def F32.roundMagnitude (num den : Nat) : Nat :=
  let e := Nat.log2 (num / den) - 23
  min (e * 2 ^ 23 + roundHalfEven num (den * 2 ^ e)) 0x7F800000

/-- RN32 of `num / den` units of 2^-149 (R14). -/
def F32.rn32 (num : Int) (den : Nat) : Word :=
  BitVec.ofNat 32 (F32.roundMagnitude num.natAbs den + if num < 0 then 2 ^ 31 else 0)

/-- `fmul(a, b) = RN32(a × b)` (R15). -/
def fmul (a b : Word) : Word := F32.rn32 (F32.units a * F32.units b) (2 ^ 149)

/-- `fadd(a, b) = RN32(a + b)` (R15). -/
def fadd (a b : Word) : Word := F32.rn32 (F32.units a + F32.units b) 1

/-- `f32(n)`, exact for `0 <= n <= 255` (R15). -/
def f32 (n : Nat) : Word := F32.rn32 ((n : Int) * 2 ^ 149) 1

/-- `rne(x)`: the integer nearest to the value, ties to even (R16). -/
def rne (w : Word) : Int :=
  if w.msb then -(roundHalfEven (F32.magnitude w) (2 ^ 149) : Int)
  else (roundHalfEven (F32.magnitude w) (2 ^ 149) : Int)

/-- `trunc(x)`: the integer part of the value, toward zero (R16). -/
def truncToInt (w : Word) : Int :=
  if w.msb then -((F32.magnitude w / 2 ^ 149 : Nat) : Int) else ((F32.magnitude w / 2 ^ 149 : Nat) : Int)

/-- `sat8(n) = min(max(n, 0), 255)` (R16). -/
def sat8 (n : Int) : Byte := BitVec.ofNat 8 (min (max n 0) 255).toNat

end Sys2Proof.Machine
end

