-- ==== Sys2Proof/Syntax.lean ====
section
/-! DEFINITION. The instructions of GBLUR7: one constructor for each row of spec/opcode_table.json. -/
namespace Sys2Proof

/-- The seven operations (R73, R117). The six commands are words written to CMD; `srst` is a write to CTRL. -/
inductive Instr where
  /-- NOP (R116). `vw` is bit 4 of the word, which the command ignores. -/
  | nop (vw : Bool)
  /-- KGEN (R81). `vw` is bit 4 of the word: ignored by the command, but recorded in ERR_CODE.VW and L.VW. -/
  | kgen (vw : Bool)
  /-- HPASS.V128 (R89). -/
  | hpassV128
  /-- HPASS.V256 (R108). -/
  | hpassV256
  /-- BLUR.V128 (R111). -/
  | blurV128
  /-- BLUR.V256 (R112). -/
  | blurV256
  /-- SRST (R117). `ctrl` is the whole word written to CTRL: bit 0 must be 1, bits 31..1 are ignored (R24). -/
  | srst (ctrl : Word)
  deriving DecidableEq, Repr

end Sys2Proof
end

