-- ==== Sys2Proof/Decode.lean ====
section
/-! DEFINITION. The decoder of register writes that run an instruction (R24, R25, R72 to R78), total on every offset and
word, and the encoder, written from the same tables. -/
namespace Sys2Proof

/-- Offset of CTRL (R21). -/
def ctrlOffset : Offset := 0x008

/-- Offset of CMD (R21). -/
def cmdOffset : Offset := 0x00C

/-- Field OP of a command word, bits 3..0 (R72). -/
def opField (w : Word) : BitVec 4 := w.extractLsb' 0 4

/-- Field VW of a command word, bit 4 (R72). -/
def vwField (w : Word) : Bool := w.getLsbD 4

/-- Field RSV of a command word, bits 31..5 (R72). -/
def rsvField (w : Word) : BitVec 27 := w.extractLsb' 5 27

/-- Why a register write is no instruction. -/
inductive DecodeError where
  /-- A command word with an RSV bit set (R75): ILLEGAL_CMD. -/
  | reservedBits
  /-- A command word with OP in 0x4..0xF (R73): ILLEGAL_CMD. -/
  | reservedOp
  /-- A write to CTRL with bit 0 = 0, which does nothing (R24). -/
  | noReset
  /-- A write to a register that runs nothing (R21). -/
  | otherRegister
  deriving DecidableEq, Repr

/-- A word written to CMD, its fields read in the order of R78: RSV, OP, VW. -/
def decodeCommand (w : Word) : Except DecodeError Instr :=
  if rsvField w = 0 then
    match (opField w).toNat with
    | 0 => .ok (.nop (vwField w))
    | 1 => .ok (.kgen (vwField w))
    | 2 => .ok (if vwField w then .hpassV256 else .hpassV128)
    | 3 => .ok (if vwField w then .blurV256 else .blurV128)
    | _ => .error .reservedOp
  else .error .reservedBits

/-- A word written to CTRL (R24). -/
def decodeControl (w : Word) : Except DecodeError Instr :=
  if w.getLsbD 0 then .ok (.srst w) else .error .noReset

/-- A 32-bit write of `w` at offset `off`, with the reason where it is no instruction. -/
def decodeWrite (off : Offset) (w : Word) : Except DecodeError Instr :=
  if off = cmdOffset then decodeCommand w
  else if off = ctrlOffset then decodeControl w
  else .error .otherRegister

/-- The instruction a 32-bit write of `w` at offset `off` runs. -/
def decode (off : Offset) (w : Word) : Option Instr := (decodeWrite off w).toOption

/-- A command word from its fields: RSV = 0, VW, OP (R72). -/
def commandWord (op : BitVec 4) (vw : Bool) : Word := 0#27 ++ BitVec.ofBool vw ++ op

/-- The register write that presents an instruction: its offset and its word. -/
def encode : Instr → Offset × Word
  | .nop vw => (cmdOffset, commandWord 0x0 vw)
  | .kgen vw => (cmdOffset, commandWord 0x1 vw)
  | .hpassV128 => (cmdOffset, commandWord 0x2 false)
  | .hpassV256 => (cmdOffset, commandWord 0x2 true)
  | .blurV128 => (cmdOffset, commandWord 0x3 false)
  | .blurV256 => (cmdOffset, commandWord 0x3 true)
  | .srst ctrl => (ctrlOffset, ctrl)

/-- The register a word of spec/opcode_table.json is written to. The table gives no offset, and its row SRST matches every
word with bit 0 = 1, among them KGEN's: a word that is a legal command word is taken as one (the rows of CMD fix more
bits), any other word with bit 0 = 1 as SRST's, and the rest as illegal command words (log 8, DESIGN CHOICE). -/
def tableOffset (w : Word) : Offset :=
  if (decodeCommand w).toOption.isSome then cmdOffset
  else if w.getLsbD 0 then ctrlOffset
  else cmdOffset

/-- The instruction the decoder reads from a word numbered as spec/opcode_table.json numbers it: every row has 32 bits. -/
def decodeTableWord (nbits w : Nat) : Option Instr :=
  if nbits = 32 ∧ w < 2 ^ 32 then decode (tableOffset (BitVec.ofNat 32 w)) (BitVec.ofNat 32 w)
  else none

end Sys2Proof
end

