-- ==== Sys2Proof/Config.lean ====
section
/-! DEFINITION. The parameters of an instance (R8) and the values the spec leaves free. -/
namespace Sys2Proof

/-- Which point an out-of-range tap is reflected about (R8, R96, R97). -/
inductive MirrorAxis where
  | edge
  | center
  deriving DecidableEq, Repr

/-- How an accumulated channel is rounded to an integer before saturation (R8, R102). -/
inductive NarrowRound where
  | rne
  | trunc
  deriving DecidableEq, Repr

/-- The instance parameters of R8 that a rule reads. REG_BASE is `Config.regBase`. -/
structure Params where
  /-- ADDR_W: the width in bits of a memory-port byte address, 16 to 32. -/
  addrW : Nat
  /-- HAS_V256: the 256-bit datapath is implemented. -/
  hasV256 : Bool
  /-- RB_LEGACY: the right-border test of the reference, with its out-of-row read. -/
  rbLegacy : Bool
  mirrorAxis : MirrorAxis
  narrowRound : NarrowRound
  deriving DecidableEq, Repr

/-- The defaults of R8. -/
def Params.default : Params :=
  { addrW := 32, hasV256 := true, rbLegacy := false, mirrorAxis := .edge, narrowRound := .rne }

/-- REG_BASE (R8, D38): OPEN, the platform's choice. No rule depends on it and no definition reads it: the host's
accesses are given as offsets in the window. -/
opaque Config.regBase : Nat

/-- A FREE VALUE (log 4): the word an access returns or a pixel holds where the spec says "any value" (R67, R109, R146,
R158). It is drawn with `State.free`, so that each draw is a value of its own, and nothing can be proved of it. -/
opaque Config.freeWord : Nat → Word

end Sys2Proof
end

