-- ==== Sys2Proof/Machine/State.lean ====
section
/-! DEFINITION. The state of GBLUR7 and what is around it: plain data, every register and every piece of internal state the
spec names, and the outside world as data the step reads. -/
namespace Sys2Proof.Machine

/-- The memory space (R51): the bytes that differ from what an unlisted address reads as, addresses strictly rising. -/
abbrev Memory := List Host.Cell

/-- The sequencer's phase (R26, R40), with the number STATUS.PHASE shows. -/
inductive Phase where
  | idle
  | kgen
  | pass1
  | pass2
  deriving DecidableEq, Repr

/-- The error codes of R126. OK and the reserved codes are never recorded. -/
inductive ErrCode where
  | illegalCmd
  | unsupportedVw
  | badSigma
  | noKernel
  | badDim
  | misaligned
  | addrRange
  | overlap
  | busRead
  | busWrite
  deriving DecidableEq, Repr

/-- The latched context of a command (R39): L.OP, L.VW, L.SIGMA, L.SRC, L.DST, L.W, L.H. -/
structure Latch where
  op : BitVec 4
  vw : Bool
  sigma : Word
  src : Word
  dst : Word
  w : BitVec 16
  h : BitVec 16
  deriving DecidableEq, Repr

/-- One half of the engine: the 7 gathered source pixels of one output (R41) and its 4 binary32 accumulator lanes (R42).
V128 uses one half, V256 both (R107, R108). -/
structure Half where
  taps : Vector Word 7
  acc : Vector Word 4
  deriving DecidableEq, Repr

/-- The byte addresses `base .. base + len - 1`. -/
structure Span where
  base : Nat
  len : Nat
  deriving DecidableEq, Repr

/-- How the platform behind the memory port answers a request (R54, R129, R160): with a bus error to a read or to a write
at these addresses, or never; every other request is answered. -/
structure Bus where
  readError : List Span
  writeError : List Span
  noAnswer : List Span
  deriving DecidableEq, Repr

/-- A pixel word the host has stored to while the running command used its buffer (R67), and whether the host's value stays
in it when the command writes it after that. -/
structure Race where
  word : Nat
  kept : Bool
  deriving DecidableEq, Repr

/-- One event of the outside world (R4, R123, R146). -/
inductive HostOp where
  /-- A 32-bit register write at an offset (R121). -/
  | write (off : Offset) (v : Word)
  /-- A 32-bit register read at an offset (R120). -/
  | read (off : Offset)
  /-- A register access of a size other than 32 bits (R37). -/
  | otherSize (off : Offset)
  /-- A 32-bit write to STATUS in the same cycle as a step of the sequencer (R135 item 3). -/
  | statusSame (v : Word)
  /-- The host reads the word at a byte address of the memory space (R123). -/
  | load (addr : Nat)
  /-- The host stores a word at a byte address of the memory space (R123). -/
  | store (addr : Nat) (v : Word)
  /-- `rst_n` takes this level: false is low (R146). -/
  | rstN (level : Bool)
  /-- The platform changes how it answers requests (R54). -/
  | platform (b : Bus)
  /-- The host does nothing and lets time pass (R159). -/
  | wait
  deriving DecidableEq, Repr

/-- A host event and how many micro-steps of the sequencer follow it before the next one (log 1, log 21). -/
structure Input where
  op : HostOp
  lead : Nat
  deriving DecidableEq, Repr

/-- The state of the machine. The reset value of each register is R46's. -/
structure State where
  /-- The instance parameters (R8). No step changes them. -/
  inst : Params
  /-- STATUS.DONE (R26). -/
  done : Bool
  /-- STATUS.ERR (R26). -/
  err : Bool
  /-- STATUS.OVR (R26). -/
  ovr : Bool
  /-- STATUS.KVALID (R26). -/
  kvalid : Bool
  /-- STATUS.PHASE (R26, R40). STATUS.BUSY is 1 exactly when it is not `idle`. -/
  phase : Phase
  /-- ERR_CODE (R27). -/
  errCode : Word
  /-- ERR_ADDR (R28). -/
  errAddr : Word
  /-- IRQ_EN, its implemented bits DONE_IE, ERR_IE, OVR_IE (R29). -/
  irqEn : BitVec 3
  /-- SIGMA (R30). -/
  sigma : Word
  /-- SRC_ADDR (R31). -/
  srcAddr : Word
  /-- DST_ADDR (R32). -/
  dstAddr : Word
  /-- WIDTH, its implemented bits (R33). -/
  width : BitVec 16
  /-- HEIGHT, its implemented bits (R34). -/
  height : BitVec 16
  /-- KW0 .. KW6 (R35). -/
  kw : Vector Word 7
  /-- The latched context (R39). -/
  latch : Latch
  /-- The work units of the running phase still to do. Every output of the others is in R40's set of written outputs. -/
  todo : List Nat
  /-- The row and column of each output of a unit still to do that is in R40's set too: those that had been written when a
  request was never answered (R160). -/
  landed : List (Nat × Nat)
  /-- The gather buffer and accumulators of the lower half, lanes 0..3 (R41, R42). -/
  lo : Half
  /-- The gather buffer and accumulators of the upper half, lanes 4..7 (R41, R42, R108). -/
  hi : Half
  /-- A request of the running command was issued and is never answered (R160). -/
  stalled : Bool
  /-- A soft reset waits for such a request, and its write to CTRL never completes (R147, R160). -/
  srstWait : Bool
  /-- `rst_n` is low (R146). -/
  rstLow : Bool
  /-- The memory space (R51). -/
  mem : Memory
  /-- The platform behind the memory port (R54). -/
  bus : Bus
  /-- The model's own: the data the last host read returned (log 20). -/
  rdata : Word
  /-- The model's own: the host events to come, oldest first (log 1). -/
  inputs : List Input
  /-- The model's own: the micro-steps that follow the present event (log 1, log 21). -/
  lead : Nat
  /-- The model's own: the choices the spec leaves open, used one after the other, 0 once they are used up (log 3). -/
  picks : List Nat
  /-- The model's own: the counter free values are drawn with (log 4). -/
  free : Nat
  /-- The model's own: the pixel words that host stores have raced for with the running command (R67, log 15). -/
  raced : List Race
  /-- The model's own: the memory space as it was when the running command was accepted, which a racing read may still
  return (R67, log 15). -/
  before : Memory
  deriving DecidableEq, Repr

/-- Why the machine stops with a fault. -/
inductive Fault where
  /-- A register access that is not a 32-bit one at a multiple of 4: "A model treats such an access by the host as a host
  fault" (R37). Raised by the register port. Safe: the hardware answers with an error and goes on unchanged. -/
  | hostAccess
  /-- A host load or store outside the memory space of 2^ADDR_W bytes (R51). Raised by the host's memory accesses. Safe:
  no byte of the memory space is concerned. -/
  | noSuchAddress
  deriving DecidableEq, Repr

/-- Why an instruction has no meaning in the model. -/
inductive Refusal where
  /-- The instruction has no meaning yet. Raised by `exec` only, and by no arm of it now. Safe. -/
  | notModelled (mnemonic : String)
  deriving DecidableEq, Repr

/-- The latched context after reset: "unspecified, never read before written" (R39, R46); zero is the model's choice
(log 6, DESIGN CHOICE). -/
def Latch.reset : Latch := { op := 0, vw := false, sigma := 0, src := 0, dst := 0, w := 0, h := 0 }

/-- A gather buffer and accumulators after reset: "unspecified" (R41, R42, R46); zero is the model's choice (log 7,
DESIGN CHOICE). -/
def Half.reset : Half := { taps := Vector.replicate 7 0, acc := Vector.replicate 4 0 }

/-- A platform that answers every request with data or an acknowledgement (log 12). -/
def Bus.answersAll : Bus := { readError := [], writeError := [], noAnswer := [] }

/-- The machine right after a hardware reset, `rst_n` high again (R46, R146, R149), at the default parameters (R8), with
nothing in memory and a host that has not acted yet. -/
def State.reset : State where
  inst := Params.default
  done := false
  err := false
  ovr := false
  kvalid := false
  phase := .idle
  errCode := 0
  errAddr := 0
  irqEn := 0
  sigma := 0
  srcAddr := 0
  dstAddr := 0
  width := 0
  height := 0
  kw := Vector.replicate 7 0
  latch := Latch.reset
  todo := []
  landed := []
  lo := Half.reset
  hi := Half.reset
  stalled := false
  srstWait := false
  rstLow := false
  mem := []
  bus := Bus.answersAll
  rdata := 0
  inputs := []
  lead := 0
  picks := []
  free := 0
  raced := []
  before := []

end Sys2Proof.Machine
end

