-- ==== Sys2Proof/Machine/Flags.lean ====
section
/-! DEFINITION. The STATUS bits, the interrupt output, and the host's acknowledgement of them (R26, R29, R122, R134). -/
namespace Sys2Proof.Machine

/-- STATUS.BUSY: "`PHASE = 0` exactly when `BUSY = 0`" (R26, log 17). -/
def State.busy (s : State) : Bool := decide (s.phase ≠ .idle)

/-- The number STATUS.PHASE shows (R26). -/
def phaseField : Phase → BitVec 2
  | .idle => 0
  | .kgen => 1
  | .pass1 => 2
  | .pass2 => 3

/-- STATUS as it is read: reserved 31..7, PHASE 6..5, KVALID 4, OVR 3, ERR 2, DONE 1, BUSY 0 (R26). -/
def statusWord (s : State) : Word :=
  0#25 ++ phaseField s.phase ++ BitVec.ofBool s.kvalid ++ BitVec.ofBool s.ovr ++ BitVec.ofBool s.err
    ++ BitVec.ofBool s.done ++ BitVec.ofBool s.busy

/-- The interrupt output (R134): a level, the OR of DONE, ERR and OVR, each gated by its bit of IRQ_EN (R29). -/
def irq (s : State) : Bool :=
  (s.done && s.irqEn.getLsbD 0) || (s.err && s.irqEn.getLsbD 1) || (s.ovr && s.irqEn.getLsbD 2)

/-- Clearing STATUS.ERR clears ERR_CODE and ERR_ADDR with it (R27, R28, R122). -/
def clearError (s : State) : State := { s with err := false, errCode := 0, errAddr := 0 }

/-- A host write of `v` to STATUS (R122): the acknowledgement of completion, error and overrun, and all there is of a
return from an error (R136). -/
def acknowledge (v : Word) (s : State) : State :=
  let s := if v.getLsbD 1 then { s with done := false } else s
  let s := if v.getLsbD 2 then clearError s else s
  if v.getLsbD 3 then { s with ovr := false } else s

/-- A CMD write while BUSY = 1: the word is lost and STATUS.OVR says so (R119, R132). -/
def overrun (s : State) : State := { s with ovr := true }

end Sys2Proof.Machine
end

