-- ==== Sys2Proof/Machine/Ops.lean ====
section
/-! DEFINITION. The operations over memory and registers that every family shares: reads and writes of the memory space,
the open choices, the error entry of R130 and the reset of the registers. -/
namespace Sys2Proof.Machine

/-- What a byte that nothing has written reads as (log 2, DESIGN CHOICE). -/
def Memory.blank : Byte := 0

/-- The byte at an address. -/
def Memory.get : Memory → Nat → Byte
  | [], _ => Memory.blank
  | (k, b) :: rest, a => if k = a then b else Memory.get rest a

/-- Memory with byte `b` at address `a`, in canonical form. -/
def Memory.set : Memory → Nat → Byte → Memory
  | [], a, b => if b = Memory.blank then [] else [(a, b)]
  | (k, x) :: rest, a, b =>
    if a < k then (if b = Memory.blank then (k, x) :: rest else (a, b) :: (k, x) :: rest)
    else if a = k then (if b = Memory.blank then rest else (a, b) :: rest)
    else (k, x) :: Memory.set rest a b

/-- The canonical form: addresses strictly rising, and no byte that an unlisted address reads as. -/
abbrev Memory.wf (m : Memory) : Prop :=
  m.Pairwise (fun x y => x.1 < y.1) ∧ ∀ c ∈ m, c.2 ≠ Memory.blank

/-- MemRead (R13, R55): the word whose bits `[8L+7:8L]` are the byte at `a + L`. -/
def Memory.read32 (m : Memory) (a : Nat) : Word :=
  Memory.get m (a + 3) ++ Memory.get m (a + 2) ++ Memory.get m (a + 1) ++ Memory.get m a

/-- MemWrite (R13, R55): byte `v[8L+7:8L]` at `a + L`. -/
def Memory.write32 (m : Memory) (a : Nat) (v : Word) : Memory :=
  Memory.set (Memory.set (Memory.set (Memory.set m a (v.extractLsb' 0 8)) (a + 1) (v.extractLsb' 8 8))
    (a + 2) (v.extractLsb' 16 8)) (a + 3) (v.extractLsb' 24 8)

/-- The address is one of the span's. -/
def Span.covers (sp : Span) (a : Nat) : Bool := decide (sp.base ≤ a ∧ a < sp.base + sp.len)

/-- Some span of the list covers one of the 4 bytes of the word at `a`. -/
def spansCover (l : List Span) (a : Nat) : Bool :=
  l.any fun sp => sp.covers a || sp.covers (a + 1) || sp.covers (a + 2) || sp.covers (a + 3)

/-- The next choice among those the spec leaves open (log 3). -/
def State.nextPick (s : State) : Nat := s.picks.headD 0

/-- The choice `nextPick` is used up. -/
def State.dropPick (s : State) : State := { s with picks := s.picks.tail }

/-- The next free value (log 4). -/
def State.freeWord (s : State) : Word := Config.freeWord s.free

/-- The free value `freeWord` is used up. -/
def State.dropFree (s : State) : State := { s with free := s.free + 1 }

/-- The word at `a` takes any value: a free value of its own is stored there (log 4). -/
def storeFree (a : Nat) (s : State) : State := { s.dropFree with mem := Memory.write32 s.mem a s.freeWord }

/-- Each of these words takes any value (R67). -/
def freeWords (addrs : List Nat) (s : State) : State := addrs.foldl (fun s a => storeFree a s) s

/-- Memory with those of the four bytes of `v` stored at `a` that `lands` says. -/
def storeBytes (lands : Nat → Bool) (a : Nat) (v : Word) (m : Memory) : Memory :=
  (List.range 4).foldl
    (fun m l => if lands l then Memory.set m (a + l) (v.extractLsb' (8 * l) 8) else m) m

/-- The number of an error code (R126). -/
def ErrCode.number : ErrCode → BitVec 8
  | .illegalCmd => 0x01
  | .unsupportedVw => 0x02
  | .badSigma => 0x03
  | .noKernel => 0x04
  | .badDim => 0x05
  | .misaligned => 0x06
  | .addrRange => 0x07
  | .overlap => 0x08
  | .busRead => 0x09
  | .busWrite => 0x0A

/-- The error is a bus error, the only kind that records an address (R28, R126). -/
def ErrCode.isBus : ErrCode → Bool
  | .busRead => true
  | .busWrite => true
  | .illegalCmd => false
  | .unsupportedVw => false
  | .badSigma => false
  | .noKernel => false
  | .badDim => false
  | .misaligned => false
  | .addrRange => false
  | .overlap => false

/-- ERR_CODE as it is recorded: code in 7..0, op in 11..8, vw in 12 (R27, R130). -/
def errCodeWord (code : ErrCode) (op : BitVec 4) (vw : Bool) : Word :=
  0#19 ++ BitVec.ofBool vw ++ op ++ code.number

/-- ERR_ADDR as it is recorded: the address of the failing request of a bus error, 0 for every other code (R28, R130). -/
def errAddrWord (code : ErrCode) (addr : Nat) : Word := if code.isBus then BitVec.ofNat 32 addr else 0

/-- TAKING AN ERROR, `raise Error(code, addr)` of R130 on the registers: first-error capture of ERR_CODE and ERR_ADDR, and
STATUS.ERR. What ends a running command (BUSY, PHASE) stands in `abortCommand`. -/
def errorEntry (code : ErrCode) (op : BitVec 4) (vw : Bool) (addr : Nat) (s : State) : State :=
  if s.err then s
  else { s with err := true, errCode := errCodeWord code op vw, errAddr := errAddrWord code addr }

/-- Every register and every piece of state inside the block at its reset value (R46, R146, R147). Memory, the instance,
the platform, `rst_n` and the host's events are not the block's and stay (R148). -/
def resetBlock (s : State) : State :=
  { s with
    done := false
    err := false
    ovr := false
    kvalid := false
    phase := .idle
    errCode := 0
    errAddr := 0
    irqEn := 0
    sigma := 0
    srcAddr := 0
    dstAddr := 0
    width := 0
    height := 0
    kw := Vector.replicate 7 0
    latch := Latch.reset
    todo := []
    landed := []
    lo := Half.reset
    hi := Half.reset
    stalled := false
    srstWait := false
    raced := []
    before := [] }

end Sys2Proof.Machine
end

