-- ==== Sys2Proof/Machine/Operands.lean ====
section
/-! DEFINITION. The operands of the commands: the legal sigma, the latched context, the buffers of a pass, pixels and their
channels, the tap index with its mirroring, and the checks of a command word at acceptance. -/
namespace Sys2Proof.Machine

/-- A legal sigma (R82): positive, finite and not zero. -/
def legalSigma (w : Word) : Bool :=
  !w.getLsbD 31 && decide (w.extractLsb' 23 8 ≠ 0xFF) && decide (w ≠ 0)

/-- WMIN (R9). -/
def wmin (inst : Params) : Nat :=
  match inst.mirrorAxis with
  | .edge => 3
  | .center => 6

/-- Latching at acceptance (R39, R118). The memory space as it is then is kept beside it: a racing read may return it
(R67). -/
def latchOperands (w : Word) (s : State) : State :=
  { s with
    latch :=
      { op := opField w, vw := vwField w, sigma := s.sigma, src := s.srcAddr, dst := s.dstAddr,
        w := s.width, h := s.height }
    before := s.mem }

/-- Channel `L` of a pixel (R17). -/
def lane (p : Word) (l : Nat) : Byte := p.extractLsb' (8 * l) 8

/-- `pack(b0, b1, b2, b3)` (R17). -/
def pack (b0 b1 b2 b3 : Byte) : Word := b3 ++ b2 ++ b1 ++ b0

/-- The border test of a column (R95), `W - 3` moved to the other side. -/
def isBorder (inst : Params) (w c : Nat) : Bool :=
  decide (c < 3) || (if inst.rbLegacy then decide (w < c + 3) else decide (w ≤ c + 3))

/-- Mirroring about the edge (R96). -/
def mirrorEdge (j : Int) (w : Nat) : Int :=
  let p : Int := 2 * ((w : Int) - 1)
  let m := j % p
  if m ≤ (w : Int) - 1 then m else p - m

/-- The column tap `k` of output column `c` is read from, relative to the start of its row (R98). -/
def tapColumn (inst : Params) (w c k : Nat) : Int :=
  let j : Int := (c : Int) + (k : Int) - 3
  if isBorder inst w c then
    if 0 ≤ j ∧ j ≤ (w : Int) - 1 then j
    else
      match inst.mirrorAxis with
      | .edge => mirrorEdge j w
      | .center => 2 * (c : Int) - j
  else j

/-- `srcidx(r, c, k)` (R98). -/
def srcIndex (inst : Params) (w r c k : Nat) : Nat := ((w : Int) * (r : Int) + tapColumn inst w c k).toNat

/-- The arguments of one pass (R105) and its datapath. -/
structure Pass where
  src : Nat
  dst : Nat
  w : Nat
  h : Nat
  vw : Bool
  deriving DecidableEq, Repr

/-- The first pass of a latched command, `pass(A, D, W, H)` (R89, R114). -/
def firstPass (l : Latch) : Pass :=
  { src := l.src.toNat, dst := l.dst.toNat, w := l.w.toNat, h := l.h.toNat, vw := l.vw }

/-- The second pass of a BLUR, `pass(D, A, H, W)` (R114). -/
def secondPass (l : Latch) : Pass :=
  { src := l.dst.toNat, dst := l.src.toNat, w := l.h.toNat, h := l.w.toNat, vw := l.vw }

/-- The pass the sequencer runs. -/
def currentPass (s : State) : Pass :=
  match s.phase with
  | .idle => firstPass s.latch
  | .kgen => firstPass s.latch
  | .pass1 => firstPass s.latch
  | .pass2 => secondPass s.latch

/-- The size of each buffer of a pass in bytes (R17, R157). -/
def Pass.bytes (p : Pass) : Nat := 4 * (p.w * p.h)

/-- The address tap `k` of output `(r, c)` is read from (R99). Only the legacy read can wrap (R53, R109). -/
def Pass.tapAddr (inst : Params) (p : Pass) (r c k : Nat) : Nat :=
  (p.src + 4 * srcIndex inst p.w r c k) % 2 ^ inst.addrW

/-- The address output `(r, c)` is written to: transposed (R104). -/
def Pass.outAddr (p : Pass) (r c : Nat) : Nat := p.dst + 4 * (p.h * c + r)

/-- The words at `a` and `b` share a byte. -/
def wordsOverlap (a b : Nat) : Bool := decide (a < b + 4 ∧ b < a + 4)

/-- Some tap of the output lies in the pass's own destination: only the legacy read can, and it races with the write
there (R109, R158). -/
def Pass.readsOwnOutput (inst : Params) (p : Pass) (r c : Nat) : Bool :=
  (List.range 7).any fun k =>
    decide (p.dst < Pass.tapAddr inst p r c k + 4 ∧ Pass.tapAddr inst p r c k < p.dst + p.bytes)

/-- One output of a pass and the half of the engine that computes it (R107, R108). -/
structure Output where
  upper : Bool
  r : Nat
  c : Nat
  deriving DecidableEq, Repr

/-- Pairs of columns in a row on the 256-bit datapath: the last one has only its lower half when W is odd (R108). -/
def Pass.pairs (p : Pass) : Nat := (p.w + 1) / 2

/-- The number of work units of a pass: outputs on the 128-bit datapath, pairs of outputs on the 256-bit one. -/
def Pass.units (p : Pass) : Nat := if p.vw then p.h * p.pairs else p.h * p.w

/-- The outputs of a work unit (R107, R108). -/
def Pass.outputs (p : Pass) (u : Nat) : List Output :=
  if p.vw then
    let r := u / p.pairs
    let c := 2 * (u % p.pairs)
    if c + 1 < p.w then [{ upper := false, r := r, c := c }, { upper := true, r := r, c := c + 1 }]
    else [{ upper := false, r := r, c := c }]
  else [{ upper := false, r := u / p.w, c := u % p.w }]

/-- Output `(r, c)` of the pass has one of these words among its taps (R67). -/
def Pass.dependsOn (inst : Params) (p : Pass) (words : List Nat) (r c : Nat) : Bool :=
  (List.range 7).any fun k => words.any fun a => wordsOverlap a (Pass.tapAddr inst p r c k)

/-- All outputs of a pass (R91). -/
def Pass.allOutputs (p : Pass) : List Output := (List.range p.units).flatMap p.outputs

/-- The destination words of those of some outputs whose value depends on one of these words (R67). -/
def Pass.openWords (inst : Params) (p : Pass) (outs : List Output) (words : List Nat) : List Nat :=
  (outs.filter fun o => p.dependsOn inst words o.r o.c).map fun o => p.outAddr o.r o.c

/-- The words whose readers take any value when the host has stored to these: the words themselves and, in PASS2, the
PASS1 results that have one of them among their taps (R67). -/
def State.taint (s : State) (words : List Nat) : List Nat :=
  match s.phase with
  | .idle => words
  | .kgen => words
  | .pass1 => words
  | .pass2 => words ++ (firstPass s.latch).openWords s.inst (firstPass s.latch).allOutputs words

/-- The words a race of the running command has tainted (R67). -/
def State.tainted (s : State) : List Nat := s.taint (s.raced.map (·.word))

/-- A racing host store has left its value in this word for good (R67: "leaves the raced word itself with either
value"). -/
def State.keepsHostWord (s : State) (a : Nat) : Bool := s.raced.any fun x => x.kept && wordsOverlap x.word a

/-- R40's set: the outputs of the running pass that have been written. -/
def State.written (s : State) : List Output :=
  (List.range (currentPass s).units).flatMap fun u =>
    ((currentPass s).outputs u).filter fun o => !s.todo.contains u || s.landed.contains (o.r, o.c)

/-- The outputs of a unit still to do that have not been written (R40). -/
def State.pending (s : State) (p : Pass) (u : Nat) : List Output :=
  (p.outputs u).filter fun o => !s.landed.contains (o.r, o.c)

/-- The outputs already written that depend on one of these words (R67). -/
def State.dependents (s : State) (words : List Nat) : List Nat :=
  match s.phase with
  | .idle => []
  | .kgen => []
  | .pass1 => (firstPass s.latch).openWords s.inst s.written words
  | .pass2 =>
    (firstPass s.latch).openWords s.inst (firstPass s.latch).allOutputs words
      ++ (secondPass s.latch).openWords s.inst s.written (s.taint words)

/-- The running command uses the buffers: HPASS and BLUR, not KGEN (R52). -/
def State.usesBuffers (s : State) : Bool := s.busy && decide (s.latch.op = 2 ∨ s.latch.op = 3)

/-- The byte at `a` is in the destination of the latched command. -/
def State.inDestination (s : State) (a : Nat) : Bool :=
  decide ((firstPass s.latch).dst ≤ a ∧ a < (firstPass s.latch).dst + (firstPass s.latch).bytes)

/-- The byte at `a` is in the source of the latched command. -/
def State.inSource (s : State) (a : Nat) : Bool :=
  decide ((firstPass s.latch).src ≤ a ∧ a < (firstPass s.latch).src + (firstPass s.latch).bytes)

/-- A host store to the byte at `a` races: the running command reads or writes its buffer (R67). -/
def State.storeRaces (s : State) (a : Nat) : Bool := s.usesBuffers && (s.inSource a || s.inDestination a)

/-- A host load of the byte at `a` races: the running command writes its buffer, and BLUR writes both (R67). -/
def State.loadRaces (s : State) (a : Nat) : Bool :=
  s.usesBuffers && (s.inDestination a || (decide (s.latch.op = 3) && s.inSource a))

/-- `validate(w)` (R127): the first check of a command word that fails against the registers as they stand. -/
def validate (w : Word) (s : State) : Option ErrCode :=
  let op := opField w
  let vw := vwField w
  let src := s.srcAddr.toNat
  let dst := s.dstAddr.toNat
  let n := 4 * (s.width.toNat * s.height.toNat)
  let top := 2 ^ s.inst.addrW
  if rsvField w ≠ 0 ∨ 4 ≤ op.toNat then some .illegalCmd
  else if op = 0 then none
  else if (op = 2 ∨ op = 3) ∧ vw ∧ ¬ s.inst.hasV256 then some .unsupportedVw
  else if (op = 1 ∨ op = 3) ∧ ¬ legalSigma s.sigma then some .badSigma
  else if op = 2 ∧ ¬ s.kvalid then some .noKernel
  else if op = 1 then none
  else if s.width.toNat < wmin s.inst ∨ s.height.toNat < (if op = 3 then wmin s.inst else 1) then some .badDim
  else if src % 4 ≠ 0 ∨ dst % 4 ≠ 0 then some .misaligned
  else if top < src + n ∨ top < dst + n then some .addrRange
  else if src < dst + n ∧ dst < src + n then some .overlap
  else none

/-- A refused command word (R128): the error entry with the word's own OP and VW, and nothing else. -/
def refuseCommand (e : ErrCode) (w : Word) (s : State) : State := errorEntry e (opField w) (vwField w) 0 s

end Sys2Proof.Machine
end

