-- ==== Sys2Proof/Machine/Engine.lean ====
section
/-! DEFINITION. The pass engine: gather, widen, multiply-accumulate, narrow, pack, transposed store (R99 to R104), on both
datapaths (R107, R108), and the memory requests of a work unit with their bad answers (R129, R160). -/
namespace Sys2Proof.Machine

/-- The gather of an output (R99): the 7 words of its taps. -/
def gatherTaps (inst : Params) (m : Memory) (p : Pass) (r c : Nat) : Vector Word 7 :=
  #v[Memory.read32 m (Pass.tapAddr inst p r c 0), Memory.read32 m (Pass.tapAddr inst p r c 1),
    Memory.read32 m (Pass.tapAddr inst p r c 2), Memory.read32 m (Pass.tapAddr inst p r c 3),
    Memory.read32 m (Pass.tapAddr inst p r c 4), Memory.read32 m (Pass.tapAddr inst p r c 5),
    Memory.read32 m (Pass.tapAddr inst p r c 6)]

/-- One step of the multiply-accumulate (R101): widen the channel (R100), multiply, add, two roundings. -/
def accumulateTap (acc : Word) (b : Byte) (weight : Word) : Word := fadd acc (fmul (f32 b.toNat) weight)

/-- The accumulator of channel `l` (R101): from +0.0, the taps in the order 0 to 6. -/
def accumulateLane (kw taps : Vector Word 7) (l : Nat) : Word :=
  (taps.toList.zip kw.toList).foldl (fun acc tw => accumulateTap acc (lane tw.1 l) tw.2) 0

/-- The four lanes of an output (R101, R107). -/
def accumulate (kw taps : Vector Word 7) : Vector Word 4 :=
  #v[accumulateLane kw taps 0, accumulateLane kw taps 1, accumulateLane kw taps 2, accumulateLane kw taps 3]

/-- Saturating narrowing of one accumulator (R102). -/
def narrow (inst : Params) (acc : Word) : Byte :=
  match inst.narrowRound with
  | .rne => sat8 (rne acc)
  | .trunc => sat8 (truncToInt acc)

/-- The output pixel of four accumulators (R102, R103). -/
def packLanes (inst : Params) (acc : Vector Word 4) : Word :=
  pack (narrow inst acc[0]) (narrow inst acc[1]) (narrow inst acc[2]) (narrow inst acc[3])

/-- The output pixel of seven taps, as one function (R100 to R103, R105). -/
def convolve (inst : Params) (kw taps : Vector Word 7) : Word := packLanes inst (accumulate kw taps)

/-- The value the pass computes for output `(r, c)` from memory `m` (R105). -/
def Pass.value (inst : Params) (kw : Vector Word 7) (m : Memory) (p : Pass) (r c : Nat) : Word :=
  convolve inst kw (gatherTaps inst m p r c)

/-- Gathering and accumulating one output in its half of the engine (R99 to R101). -/
def loadOutput (p : Pass) (o : Output) (s : State) : State :=
  let taps := gatherTaps s.inst s.mem p o.r o.c
  let half : Half := { taps := taps, acc := accumulate s.kw taps }
  if o.upper then { s with hi := half } else { s with lo := half }

/-- The output is any value: it has a tap in the pass's own destination (R109, R158), or one that a host's race has tainted
(R67). -/
def State.outputIsOpen (s : State) (p : Pass) (o : Output) : Bool :=
  p.readsOwnOutput s.inst o.r o.c || p.dependsOn s.inst s.tainted o.r o.c

/-- Narrowing, packing and storing one output from its half of the engine (R102 to R104). A word that a race has left with
the host's value keeps it whole, also where the host stored only some of its four bytes: the model's choice (R67, log 15,
DESIGN CHOICE). -/
def storeOutput (p : Pass) (o : Output) (s : State) : State :=
  if s.keepsHostWord (p.outAddr o.r o.c) then s
  else if s.outputIsOpen p o then storeFree (p.outAddr o.r o.c) s
  else
    { s with
      mem := Memory.write32 s.mem (p.outAddr o.r o.c)
        (packLanes s.inst (if o.upper then s.hi.acc else s.lo.acc)) }

/-- Some outputs of one work unit: all are gathered and accumulated, then all are stored (R107, R108). -/
def runOutputs (p : Pass) (outs : List Output) (s : State) : State :=
  outs.foldl (fun s o => storeOutput p o s) (outs.foldl (fun s o => loadOutput p o s) s)

/-- A request on the memory port (R13). -/
inductive Request where
  | read (addr : Nat)
  | write (addr : Nat)
  deriving DecidableEq, Repr

/-- The address of a request. -/
def Request.addr : Request → Nat
  | .read a => a
  | .write a => a

/-- The error code a bus error on the request raises (R126, R129). -/
def Request.code : Request → ErrCode
  | .read _ => .busRead
  | .write _ => .busWrite

/-- The platform never answers the request (R160). -/
def Request.unanswered (b : Bus) (q : Request) : Bool := spansCover b.noAnswer q.addr

/-- The platform answers the request with a bus error, or never (R54, R129, R160). -/
def Request.bad (b : Bus) (q : Request) : Bool :=
  match q with
  | .read a => spansCover b.readError a || spansCover b.noAnswer a
  | .write a => spansCover b.writeError a || spansCover b.noAnswer a

/-- The reads of an output (R99). -/
def Pass.reads (inst : Params) (p : Pass) (o : Output) : List Request :=
  (List.range 7).map fun k => .read (Pass.tapAddr inst p o.r o.c k)

/-- The write of an output (R104). -/
def Pass.write (p : Pass) (o : Output) : Request := .write (p.outAddr o.r o.c)

/-- The requests of an output that get a bad answer: its reads, and its write only when every read is answered. -/
def Pass.badRequests (inst : Params) (b : Bus) (p : Pass) (o : Output) : List Request :=
  let badReads := (p.reads inst o).filter (·.bad b)
  if badReads.isEmpty then [p.write o].filter (·.bad b) else badReads

/-- Every read of the output is answered, so its value can be computed. -/
def Pass.readable (inst : Params) (b : Bus) (p : Pass) (o : Output) : Bool :=
  ((p.reads inst o).filter (·.bad b)).isEmpty

/-- The readable outputs of a unit that the choice `n` says have landed in memory, by one bit of `n` for each half. -/
def Pass.landed (inst : Params) (b : Bus) (p : Pass) (n : Nat) (outs : List Output) : List Output :=
  outs.filter fun o => n.testBit (if o.upper then 1 else 0) && p.readable inst b o

/-- A pass is cut short with these units not done: each word not yet written holds "either its value from before the command
or the value the command computed for it, chosen per word" (R129, R147), by two bits of the choice `n` for each unit. -/
def landUnits (p : Pass) : Nat → List Nat → State → State
  | _, [], s => s
  | n, u :: us, s => landUnits p (n / 4) us (runOutputs p (p.landed s.inst s.bus (n % 4) (s.pending p u)) s)

/-- The outputs that `landUnits` writes. -/
def State.landings (s : State) (p : Pass) : Nat → List Nat → List Output
  | _, [] => []
  | n, u :: us => p.landed s.inst s.bus (n % 4) (s.pending p u) ++ s.landings p (n / 4) us

end Sys2Proof.Machine
end

