-- ==== Sys2Proof/Laws/Transcendence.lean ====
section
/-! SUPPORT. e is transcendental (Hermite), so the exponential of a rational number other than 0 satisfies no polynomial
equation. The weights of R83 are therefore irrational: no weight lies at a point where the rounding of R14 changes. -/
namespace Sys2Proof.Laws
open Polynomial

/-- The polynomial with the roots 1, ..., m. -/
noncomputable def rootsUpTo (m : ℕ) : ℤ[X] := ∏ k ∈ Finset.range m, (X - C ((k : ℤ) + 1))

/-- 0 is not one of its roots. -/
theorem rootsUpTo_eval_zero (m : ℕ) : (rootsUpTo m).eval 0 ≠ 0 := by
  unfold rootsUpTo
  rw [eval_prod, Finset.prod_ne_zero_iff]
  intro k _
  simp only [eval_sub, eval_X, eval_C]
  omega

/-- It is not the zero polynomial. -/
theorem rootsUpTo_ne_zero (m : ℕ) : rootsUpTo m ≠ 0 := by
  intro h
  exact rootsUpTo_eval_zero m (by rw [h]; simp)

/-- `k + 1` is one of its roots for each `k` below `m`. -/
theorem mem_aroots_rootsUpTo {m k : ℕ} (hk : k < m) : ((k : ℂ) + 1) ∈ (rootsUpTo m).aroots ℂ := by
  rw [mem_aroots]
  refine ⟨rootsUpTo_ne_zero m, ?_⟩
  unfold rootsUpTo
  rw [map_prod]
  refine Finset.prod_eq_zero (Finset.mem_range.2 hk) ?_
  simp

/-- No polynomial with integer coefficients and a nonzero constant term vanishes at e. -/
theorem eval_exp_one_ne_zero (Q : ℤ[X]) (h0 : Q.coeff 0 ≠ 0) : aeval (Complex.exp 1) Q ≠ 0 := by
  intro hQ
  set m := Q.natDegree with hm
  obtain ⟨c, hc⟩ := LindemannWeierstrass.exp_polynomial_approx (rootsUpTo m) (rootsUpTo_eval_zero m)
  set A : ℝ := ∑ k ∈ Finset.range m, |(Q.coeff (k + 1) : ℝ)| with hA
  have hlim : Filter.Tendsto (fun p : ℕ => A * (|c| * (|c| ^ (p - 1) / (p - 1).factorial)))
      Filter.atTop (nhds (A * (|c| * 0))) := by
    refine Filter.Tendsto.const_mul _ (Filter.Tendsto.const_mul _ ?_)
    exact (FloorSemiring.tendsto_pow_div_factorial_atTop |c|).comp (Filter.tendsto_sub_atTop_nat 1)
  rw [mul_zero, mul_zero] at hlim
  obtain ⟨N, hN⟩ := Filter.eventually_atTop.1 (hlim.eventually (gt_mem_nhds (zero_lt_one)))
  obtain ⟨p, hp, hprime⟩ :=
    Nat.exists_infinite_primes (N + (eval 0 (rootsUpTo m)).natAbs + (Q.coeff 0).natAbs + 1)
  obtain ⟨n, hn, gp, -, hgp⟩ := hc p (by omega) hprime
  set M : ℤ := n * Q.coeff 0 + p * ∑ k ∈ Finset.range m, Q.coeff (k + 1) * gp.eval ((k : ℤ) + 1) with hM
  have hMne : M ≠ 0 := by
    intro h
    have hdvd : (p : ℤ) ∣ n * Q.coeff 0 := by
      have : n * Q.coeff 0 = -(p * ∑ k ∈ Finset.range m, Q.coeff (k + 1) * gp.eval ((k : ℤ) + 1)) := by linarith
      rw [this]
      exact (dvd_mul_right _ _).neg_right
    rcases (Nat.prime_iff_prime_int.1 hprime).dvd_or_dvd hdvd with h1 | h1
    · exact hn h1
    · have := Nat.le_of_dvd (Int.natAbs_pos.2 h0) (Int.natCast_dvd.1 h1)
      omega
  have hsum : (M : ℂ) =
      -∑ k ∈ Finset.range m, (Q.coeff (k + 1) : ℂ) * (n * Complex.exp (k + 1) - p * aeval ((k : ℂ) + 1) gp) := by
    have hz : (n : ℂ) * aeval (Complex.exp 1) Q = 0 := by rw [hQ, mul_zero]
    rw [aeval_eq_sum_range, ← hm, Finset.sum_range_succ'] at hz
    simp only [pow_zero, zsmul_eq_mul, mul_one] at hz
    have hexp : ∀ k : ℕ, Complex.exp 1 ^ (k + 1) = Complex.exp (k + 1) := by
      intro k; rw [← Complex.exp_nat_mul]; push_cast; ring_nf
    simp only [hexp] at hz
    have hev : ∀ k : ℕ, aeval ((k : ℂ) + 1) gp = ((gp.eval ((k : ℤ) + 1) : ℤ) : ℂ) := by
      intro k
      have := aeval_algebraMap_apply_eq_algebraMap_eval (A := ℂ) ((k : ℤ) + 1) gp
      simpa using this
    simp only [hev]
    rw [hM]
    push_cast
    rw [mul_add, Finset.mul_sum] at hz
    rw [Finset.mul_sum, ← Finset.sum_neg_distrib, ← sub_eq_zero]
    rw [← hz, add_sub_assoc, ← Finset.sum_sub_distrib, add_comm]
    congr 1
    refine Finset.sum_congr rfl fun k _ => ?_
    ring
  have hbound : (1 : ℝ) ≤ A * (|c| * (|c| ^ (p - 1) / (p - 1).factorial)) := by
    have h1 : (1 : ℝ) ≤ ‖(M : ℂ)‖ := by
      rw [Complex.norm_intCast]
      exact_mod_cast Int.one_le_abs hMne
    refine h1.trans ?_
    rw [hsum, norm_neg]
    refine (norm_sum_le _ _).trans ?_
    rw [hA, Finset.sum_mul]
    refine Finset.sum_le_sum fun k hk => ?_
    rw [norm_mul, Complex.norm_intCast]
    refine mul_le_mul_of_nonneg_left ?_ (abs_nonneg _)
    have := hgp (mem_aroots_rootsUpTo (Finset.mem_range.1 hk))
    simp only [zsmul_eq_mul, nsmul_eq_mul] at this
    refine this.trans ?_
    rw [← mul_div_assoc, ← pow_succ', Nat.sub_add_cancel hprime.one_le]
    exact div_le_div_of_nonneg_right ((le_abs_self _).trans_eq (abs_pow c p)) (by positivity)
  exact absurd (hN p (by omega)) (not_lt.2 hbound)

/-- e is transcendental. -/
theorem exp_one_transcendental : ¬ IsAlgebraic ℤ (Complex.exp 1) := by
  rintro ⟨Q, hQ0, hQ⟩
  obtain ⟨R, hR, hne⟩ : ∃ R : ℤ[X], aeval (Complex.exp 1) R = 0 ∧ R.coeff 0 ≠ 0 := by
    obtain ⟨R, hR, hnd⟩ := exists_eq_pow_rootMultiplicity_mul_and_not_dvd Q hQ0 0
    refine ⟨R, ?_, ?_⟩
    · rw [hR] at hQ
      simp only [C_0, sub_zero, map_mul, map_pow, aeval_X, mul_eq_zero] at hQ
      rcases hQ with h | h
      · exact absurd (eq_zero_of_pow_eq_zero h) (Complex.exp_ne_zero _)
      · exact h
    · intro h
      rw [C_0, sub_zero, X_dvd_iff] at hnd
      exact hnd h
  exact eval_exp_one_ne_zero R hne hR

/-- `exp(-a/b)` is transcendental for `a` and `b` other than 0. -/
theorem exp_neg_ratio_transcendental {a b : ℕ} (ha : 0 < a) (hb : 0 < b) :
    ¬ IsAlgebraic ℤ (Real.exp (-((a : ℝ) / b))) := by
  intro h
  have hpow : Real.exp (-((a : ℝ) / b)) ^ b = (Real.exp 1 ^ a)⁻¹ := by
    rw [← Real.exp_nat_mul, ← Real.exp_nat_mul, ← Real.exp_neg]
    congr 1
    field_simp
  have h1 : IsAlgebraic ℤ (Real.exp 1) := by
    have := (h.pow b).inv
    rw [hpow, inv_inv] at this
    exact this.of_pow ha
  have h2 := h1.algebraMap (A := ℂ)
  exact exp_one_transcendental (by simpa using h2)

/-- A real number that is no root of a nonzero rational polynomial makes the share of R83 irrational: if
`x^(d^2) / (1 + 2 (x + x^4 + x^9))` is rational then `x` is algebraic. -/
theorem share_irrational {x : ℝ} (hx : 0 < x) (ht : ¬ IsAlgebraic ℤ x) (d : ℕ) :
    Irrational (x ^ (d * d) / (1 + 2 * (x + x ^ 4 + x ^ 9))) := by
  rintro ⟨q, hq⟩
  have hpos : 0 < 1 + 2 * (x + x ^ 4 + x ^ 9) := by positivity
  have hq0 : q ≠ 0 := by
    rintro rfl
    have : 0 < x ^ (d * d) / (1 + 2 * (x + x ^ 4 + x ^ 9)) := by positivity
    rw [← hq] at this
    simp at this
  rw [eq_div_iff hpos.ne'] at hq
  refine ht ((IsFractionRing.isAlgebraic_iff ℤ ℚ ℝ).2 ?_)
  refine ⟨C q * (1 + 2 * (X + X ^ 4 + X ^ 9)) - X ^ (d * d), fun h0 => ?_, ?_⟩
  · have h1 := congrArg (fun P => P.eval 0) h0
    have h2 := congrArg (fun P => P.eval 1) h0
    rcases Nat.eq_zero_or_pos d with rfl | hd
    · simp at h1 h2
      rw [sub_eq_zero] at h1
      subst h1
      norm_num at h2
    · have : d * d ≠ 0 := by positivity
      simp [this] at h1
      exact hq0 h1
  · simp only [map_sub, map_mul, map_add, map_one, map_pow, aeval_X, aeval_C, map_ofNat, eq_ratCast]
    rw [hq, sub_self]

end Sys2Proof.Laws
end

