-- ==== Sys2Proof/Machine/Enclosure.lean ====
section
/-! DEFINITION. Two enclosures of the weights of R83, the exact reals `G(d) / S` with `G(x) = exp(-x^2 / (2 s^2))` and
`S = G(0) + 2 (G(1) + G(2) + G(3))`. The first is computed once, on integers with 256 fractional bits, from
`E = exp(1 / (2 s^2))`, so that `G(d) = E^(-d^2)`. The second is computed on rationals and shrinks to the weight. -/
namespace Sys2Proof.Machine

/-- Fractional bits of the enclosure of `E`. -/
def Weight.prec : Nat := 256

/-- Terms of the Taylor sum of `exp(z)`. -/
def Weight.terms : Nat := 32

/-- `E = exp(z)^(2^halvings)` with `z = 1 / (2 s^2) / 2^halvings`. -/
def Weight.halvings : Nat := 16

/-- A lower bound of `sum over j of z^j / j!`, from term `t` with index `j` on, `n` terms; numbers scaled by `2^prec`. -/
def Weight.taylorLower (z : Nat) : Nat → Nat → Nat → Nat
  | 0, _, _ => 0
  | n + 1, j, t => t + Weight.taylorLower z n (j + 1) (t * z / ((j + 1) * 2 ^ Weight.prec))

/-- An upper bound of the same sum and of the whole rest of the series after it, which for `z <= 1` is at most twice the
next term. -/
def Weight.taylorUpper (z : Nat) : Nat → Nat → Nat → Nat
  | 0, _, t => 2 * t
  | n + 1, j, t => t + Weight.taylorUpper z n (j + 1) (t * z / ((j + 1) * 2 ^ Weight.prec) + 1)

/-- Squaring `n` times, rounded down. -/
def Weight.squareLower : Nat → Nat → Nat
  | 0, x => x
  | n + 1, x => Weight.squareLower n (x * x / 2 ^ Weight.prec)

/-- Squaring `n` times, rounded up. -/
def Weight.squareUpper : Nat → Nat → Nat
  | 0, x => x
  | n + 1, x => Weight.squareUpper n (x * x / 2 ^ Weight.prec + 1)

/-- `z` scaled by `2^prec`, rounded down; `u` is sigma in units of 2^-149, so `1 / (2 s^2) = 2^297 / u^2`. -/
def Weight.argument (u : Nat) : Nat := 2 ^ (297 - Weight.halvings + Weight.prec) / (u * u)

/-- A lower bound of `E * 2^prec`. -/
def Weight.expLower (u : Nat) : Nat :=
  Weight.squareLower Weight.halvings
    (Weight.taylorLower (Weight.argument u) Weight.terms 0 (2 ^ Weight.prec))

/-- An upper bound of `E * 2^prec`. -/
def Weight.expUpper (u : Nat) : Nat :=
  Weight.squareUpper Weight.halvings
    (Weight.taylorUpper (Weight.argument u + 1) Weight.terms 0 (2 ^ Weight.prec))

/-- `E^9 * G(d)` scaled by `2^(9 prec)`, from a bound `e` of `E * 2^prec`; `d` is 0, 1, 2 or 3. -/
def Weight.numerator (e d : Nat) : Nat := e ^ (9 - d * d) * 2 ^ (Weight.prec * (d * d))

/-- `E^9 * S` in the same scale (R83: `S = G(0) + 2 (G(1) + G(2) + G(3))`). -/
def Weight.denominator (e : Nat) : Nat :=
  Weight.numerator e 0 + 2 * (Weight.numerator e 1 + Weight.numerator e 2 + Weight.numerator e 3)

/-- 1.0, which no weight exceeds (R86 item 2): an end of an enclosure above it is drawn down to it. -/
def Weight.one : Nat := 0x3F800000

/-- The weight at distance `d` rounded from the lower end of its enclosure. -/
def Weight.lowerEnd (u d : Nat) : Nat :=
  min Weight.one
    (F32.roundMagnitude (Weight.numerator (Weight.expLower u) d * 2 ^ 149) (Weight.denominator (Weight.expUpper u)))

/-- The weight at distance `d` rounded from the upper end of its enclosure. -/
def Weight.upperEnd (u d : Nat) : Nat :=
  min Weight.one
    (F32.roundMagnitude (Weight.numerator (Weight.expUpper u) d * 2 ^ 149) (Weight.denominator (Weight.expLower u)))

/-- Sigma so small (`s <= 1/16`, so `E >= exp(128) > 2^184`) that the kernel is the identity (R87). -/
def Weight.tiny (u : Nat) : Bool := decide (u ≤ 2 ^ 145)

/-- `1 / (2 s^2)`; `u` is sigma in units of 2^-149. -/
def Weight.exponent (u : Nat) : ℚ := 2 ^ 297 / (u : ℚ) ^ 2

/-- A lower bound of `G(1) = exp(-1 / (2 s^2))`, from `1 - y <= exp(-y)`. -/
def Weight.gaussLower (u n : Nat) : ℚ := max 0 (1 - Weight.exponent u / (n + 1)) ^ (n + 1)

/-- An upper bound of `G(1)`, from `1 + y <= exp(y)`. -/
def Weight.gaussUpper (u n : Nat) : ℚ := 1 / (1 + Weight.exponent u / (n + 1)) ^ (n + 1)

/-- `G(d) / S` with `x` as `G(1)` in the numerator and `y` as `G(1)` in the denominator (R83). -/
def Weight.share (x y : ℚ) (d : Nat) : ℚ := x ^ (d * d) / (1 + 2 * (y + y ^ 4 + y ^ 9))

/-- The lower end of the `n`-th enclosure of the weight at distance `d`. -/
def Weight.below (u d n : Nat) : ℚ := Weight.share (Weight.gaussLower u n) (Weight.gaussUpper u n) d

/-- The upper end of the `n`-th enclosure of the weight at distance `d`. -/
def Weight.above (u d n : Nat) : ℚ := Weight.share (Weight.gaussUpper u n) (Weight.gaussLower u n) d

/-- RN32 of a rational that is not negative, as bits 30..0 (R14). -/
def Weight.roundRational (q : ℚ) : Nat := F32.roundMagnitude (q * 2 ^ 149).num.toNat (q * 2 ^ 149).den

/-- Both ends of the `n`-th enclosure round to the same binary32 value, so that value is the weight of R83. -/
abbrev Weight.Settled (u d n : Nat) : Prop :=
  Weight.roundRational (Weight.below u d n) = Weight.roundRational (Weight.above u d n)

end Sys2Proof.Machine
end

