-- ==== Sys2Proof/Laws/WeightLimit.lean ====
section
/-! SUPPORT. The shrinking enclosures of a weight (R83): each holds the exact real, they shrink to it, and one of them has
both ends rounding to the same binary32 value. -/
namespace Sys2Proof.Machine
open Filter Topology

/-- A sigma that is not tiny is not 0. -/
theorem Weight.ne_zero_of_not_tiny {u : Nat} (h : ¬ Weight.tiny u) : u ≠ 0 := by
  rintro rfl
  simp [Weight.tiny] at h

/-- `G(1)` of R83 for a sigma of `u` units of 2^-149. -/
noncomputable def Weight.gauss (u : Nat) : ℝ := Real.exp (-((Weight.exponent u : ℚ) : ℝ))

/-- The exact real weight at distance `d` (R83), with `G(d) = G(1)^(d^2)`. -/
noncomputable def Weight.exact (u d : Nat) : ℝ :=
  Weight.gauss u ^ (d * d) / (1 + 2 * (Weight.gauss u + Weight.gauss u ^ 4 + Weight.gauss u ^ 9))

/-- `G(1)` is positive. -/
theorem Weight.gauss_pos (u : Nat) : 0 < Weight.gauss u := Real.exp_pos _

/-- `1 / (2 s^2)` is not negative. -/
theorem Weight.exponent_nonneg (u : Nat) : 0 ≤ Weight.exponent u := by
  unfold Weight.exponent
  positivity

/-- The bounds of `G(1)`. -/
theorem Weight.gauss_between (u n : Nat) :
    0 ≤ (Weight.gaussLower u n : ℝ) ∧ (Weight.gaussLower u n : ℝ) ≤ Weight.gauss u ∧
      Weight.gauss u ≤ (Weight.gaussUpper u n : ℝ) := by
  unfold Weight.gauss Weight.gaussLower Weight.gaussUpper
  have hz : (0 : ℝ) ≤ ((Weight.exponent u : ℚ) : ℝ) := by exact_mod_cast Weight.exponent_nonneg u
  push_cast
  generalize ((Weight.exponent u : ℚ) : ℝ) = z at *
  set y : ℝ := z / (n + 1) with hy
  have hy0 : 0 ≤ y := by positivity
  have hg : Real.exp (-z) = Real.exp (-y) ^ (n + 1) := by
    rw [← Real.exp_nat_mul, hy]
    congr 1
    push_cast
    field_simp
  rw [hg]
  refine ⟨by positivity, ?_, ?_⟩
  · have := Real.add_one_le_exp (-y)
    exact pow_le_pow_left₀ (le_max_left _ _) (max_le (Real.exp_pos _).le (by linarith)) _
  · have := Real.add_one_le_exp y
    rw [Real.exp_neg, inv_pow, one_div]
    exact inv_anti₀ (by positivity) (pow_le_pow_left₀ (by positivity) (by linarith) _)

/-- A share grows with the numerator's `G(1)` and falls with the denominator's. -/
theorem Weight.share_mono {x x' y y' : ℝ} (hx : 0 ≤ x) (hxx : x ≤ x') (hy : 0 ≤ y') (hyy : y' ≤ y) (d : Nat) :
    x ^ (d * d) / (1 + 2 * (y + y ^ 4 + y ^ 9)) ≤ x' ^ (d * d) / (1 + 2 * (y' + y' ^ 4 + y' ^ 9)) := by
  have : 0 ≤ x' ^ (d * d) := pow_nonneg (hx.trans hxx) _
  gcongr

/-- Each enclosure holds the exact real weight (R83). -/
theorem Weight.exact_between (u d n : Nat) :
    (Weight.below u d n : ℝ) ≤ Weight.exact u d ∧ Weight.exact u d ≤ (Weight.above u d n : ℝ) := by
  obtain ⟨h0, h1, h2⟩ := Weight.gauss_between u n
  have hg := Weight.gauss_pos u
  unfold Weight.below Weight.above Weight.share Weight.exact
  push_cast
  exact ⟨Weight.share_mono h0 h1 hg.le h2 d, Weight.share_mono hg.le h2 h0 h1 d⟩

/-- The upper bounds of `G(1)` shrink to it. -/
theorem Weight.gaussUpper_tendsto (u : Nat) :
    Tendsto (fun n => (Weight.gaussUpper u n : ℝ)) atTop (𝓝 (Weight.gauss u)) := by
  have h := (Real.tendsto_one_add_div_pow_exp ((Weight.exponent u : ℚ) : ℝ)).comp (tendsto_add_atTop_nat 1)
  have h2 := h.inv₀ (Real.exp_pos _).ne'
  rw [← Real.exp_neg] at h2
  refine h2.congr fun n => ?_
  unfold Weight.gaussUpper
  push_cast
  simp

/-- The lower bounds of `G(1)` grow to it. -/
theorem Weight.gaussLower_tendsto (u : Nat) :
    Tendsto (fun n => (Weight.gaussLower u n : ℝ)) atTop (𝓝 (Weight.gauss u)) := by
  have h := (Real.tendsto_one_add_div_pow_exp (-((Weight.exponent u : ℚ) : ℝ))).comp (tendsto_add_atTop_nat 1)
  refine tendsto_of_tendsto_of_tendsto_of_le_of_le' h tendsto_const_nhds ?_
    (Eventually.of_forall fun n => (Weight.gauss_between u n).2.1)
  obtain ⟨N, hN⟩ := exists_nat_ge ((Weight.exponent u : ℚ) : ℝ)
  filter_upwards [eventually_ge_atTop N] with n hn
  have hn' : (N : ℝ) ≤ n := by exact_mod_cast hn
  have hle : ((Weight.exponent u : ℚ) : ℝ) / (n + 1) ≤ 1 := by
    rw [div_le_one (by positivity)]
    linarith
  unfold Weight.gaussLower
  push_cast
  rw [max_eq_right (by linarith)]
  simp only [Function.comp_apply, Nat.cast_add, Nat.cast_one]
  rw [neg_div, ← sub_eq_add_neg]

/-- The share of two sequences that both go to `G(1)` goes to the exact weight. -/
theorem Weight.share_tendsto (u d : Nat) {x y : Nat → ℚ}
    (hx : Tendsto (fun n => (x n : ℝ)) atTop (𝓝 (Weight.gauss u)))
    (hy : Tendsto (fun n => (y n : ℝ)) atTop (𝓝 (Weight.gauss u))) :
    Tendsto (fun n => ((Weight.share (x n) (y n) d : ℚ) : ℝ)) atTop (𝓝 (Weight.exact u d)) := by
  have hg := Weight.gauss_pos u
  unfold Weight.share Weight.exact
  push_cast
  refine (hx.pow _).div (((hy.add (hy.pow 4)).add (hy.pow 9)).const_mul 2 |>.const_add 1) ?_
  positivity

/-- The exact weight is irrational, so it lies at no point where the rounding changes. -/
theorem Weight.exact_irrational {u : Nat} (h : u ≠ 0) (d : Nat) : Irrational (Weight.exact u d) := by
  refine Laws.share_irrational (Weight.gauss_pos u) ?_ d
  have := Laws.exp_neg_ratio_transcendental (a := 2 ^ 297) (b := u ^ 2) (by positivity)
    (Nat.pow_pos (Nat.pos_of_ne_zero h))
  unfold Weight.gauss Weight.exponent
  rw [Rat.cast_div, Rat.cast_pow, Rat.cast_pow, Rat.cast_natCast, Rat.cast_ofNat]
  rw [Nat.cast_pow, Nat.cast_pow, Nat.cast_ofNat] at this
  exact this

/-- Near an irrational the floor does not change, and no value is whole. -/
theorem Weight.floor_locally_constant {v : ℝ} (hv : Irrational v) (h0 : 0 ≤ v) :
    ∀ᶠ x in 𝓝 v, (⌊v⌋₊ : ℝ) < x ∧ x < ⌊v⌋₊ + 1 := by
  have h1 : (⌊v⌋₊ : ℝ) < v := lt_of_le_of_ne (Nat.floor_le h0) fun h => hv ⟨⌊v⌋₊, by simpa using h⟩
  exact (isOpen_Ioo.mem_nhds ⟨h1, Nat.lt_floor_add_one v⟩)

/-- Rounding to the nearest whole number between two neighbouring halves. -/
theorem roundHalfEven_between {num den k : Nat} (h1 : k * den < 2 * num) (h2 : 2 * num < (k + 1) * den) :
    roundHalfEven num den = (k + 1) / 2 := by
  have hd : 0 < den := by
    rcases Nat.eq_zero_or_pos den with rfl | h
    · simp at h2
    · exact h
  have hdm := Nat.div_add_mod num den
  have hlt := Nat.mod_lt num hd
  unfold roundHalfEven
  dsimp only
  set q := num / den
  set r := num % den
  have e1 : k < 2 * q + 2 := by
    by_contra hc
    have : (2 * q + 2) * den ≤ k * den := Nat.mul_le_mul_right _ (by omega)
    nlinarith
  have e2 : 2 * q < k + 1 := by
    by_contra hc
    have : (k + 1) * den ≤ 2 * q * den := Nat.mul_le_mul_right _ (by omega)
    nlinarith
  have e3 : k = 2 * q ∨ k = 2 * q + 1 := by omega
  rcases e3 with rfl | rfl
  · have : 2 * r < den := by nlinarith
    rw [if_pos this]
    omega
  · have : den < 2 * r := by nlinarith
    rw [if_neg (by omega), if_pos this]
    omega

/-- Near an irrational that is not negative all rationals round alike (R14). -/
theorem Weight.roundRational_locally_constant {w : ℝ} (hw : Irrational w) (h0 : 0 < w) :
    ∃ R, ∀ᶠ x in 𝓝 w, ∀ q : ℚ, (q : ℝ) = x → Weight.roundRational q = R := by
  set v := w * 2 ^ 149 with hv
  have hv0 : 0 < v := by positivity
  have hvi : Irrational v := by
    rw [hv]
    exact_mod_cast hw.mul_natCast (m := 2 ^ 149) (by positivity)
  set e := Nat.log2 ⌊v⌋₊ - 23 with he
  set f := 2 * v / 2 ^ e with hf
  have hfi : Irrational f := by
    have h1 : Irrational (v * ((2 : ℚ) / 2 ^ e : ℚ)) := hvi.mul_ratCast (by positivity)
    rw [hf]
    push_cast at h1
    convert h1 using 1
    ring
  have hc1 : Tendsto (fun x : ℝ => x * 2 ^ 149) (𝓝 w) (𝓝 v) := tendsto_id.mul_const _
  have hc2 : Tendsto (fun x : ℝ => 2 * (x * 2 ^ 149) / 2 ^ e) (𝓝 w) (𝓝 f) := (hc1.const_mul 2).div_const _
  refine ⟨min (e * 2 ^ 23 + (⌊f⌋₊ + 1) / 2) 0x7F800000, ?_⟩
  filter_upwards [hc1.eventually (Weight.floor_locally_constant hvi hv0.le),
    hc2.eventually (Weight.floor_locally_constant hfi (by positivity))] with x h1 h2 q hq
  subst hq
  set p : ℚ := q * 2 ^ 149 with hp
  have hpr : ((p : ℚ) : ℝ) = (q : ℝ) * 2 ^ 149 := by rw [hp]; push_cast; ring
  rw [← hpr] at h1 h2
  have hden : (0 : ℝ) < p.den := by exact_mod_cast p.den_pos
  have hp0 : 0 ≤ p.num := by
    rw [Rat.num_nonneg]
    have : (0 : ℝ) ≤ (p : ℝ) := le_trans (Nat.cast_nonneg _) h1.1.le
    exact_mod_cast this
  have hnum : (p.num.toNat : ℝ) = (p : ℝ) * p.den := by
    have h3 : ((p.num.toNat : ℤ) : ℝ) = p.num := by rw [Int.toNat_of_nonneg hp0]
    have h4 : (p : ℝ) * p.den = p.num := by exact_mod_cast Rat.mul_den_eq_num p
    rw [h4, ← h3]
    push_cast
    rfl
  unfold Weight.roundRational F32.roundMagnitude
  rw [← hp]
  set num := p.num.toNat
  set den := p.den
  have hdiv : num / den = ⌊v⌋₊ := by
    refine Nat.div_eq_of_lt_le ?_ ?_
    · have : (⌊v⌋₊ : ℝ) * den ≤ num := by rw [hnum]; exact mul_le_mul_of_nonneg_right h1.1.le hden.le
      exact_mod_cast this
    · have : (num : ℝ) < (⌊v⌋₊ + 1) * den := by rw [hnum]; exact mul_lt_mul_of_pos_right h1.2 hden
      exact_mod_cast this
  have h2e : (0 : ℝ) < 2 ^ e := by positivity
  have hround : roundHalfEven num (den * 2 ^ e) = (⌊f⌋₊ + 1) / 2 := by
    refine roundHalfEven_between ?_ ?_
    · have : (⌊f⌋₊ : ℝ) * (den * 2 ^ e) < 2 * num := by
        have := (lt_div_iff₀ h2e).1 h2.1
        rw [hnum]
        nlinarith
      exact_mod_cast this
    · have : (2 : ℝ) * num < (⌊f⌋₊ + 1) * (den * 2 ^ e) := by
        have := (div_lt_iff₀ h2e).1 h2.2
        rw [hnum]
        nlinarith
      exact_mod_cast this
  dsimp only
  rw [hdiv, ← he, hround]

/-- One of the enclosures of a weight has both ends rounding to the same binary32 value. -/
theorem Weight.settles {u : Nat} (h : u ≠ 0) (d : Nat) : ∃ n, Weight.Settled u d n := by
  have hpos : 0 < Weight.exact u d := by
    have := Weight.gauss_pos u
    unfold Weight.exact
    positivity
  obtain ⟨R, hR⟩ := Weight.roundRational_locally_constant (Weight.exact_irrational h d) hpos
  have h1 := (Weight.share_tendsto u d (Weight.gaussLower_tendsto u) (Weight.gaussUpper_tendsto u)).eventually hR
  have h2 := (Weight.share_tendsto u d (Weight.gaussUpper_tendsto u) (Weight.gaussLower_tendsto u)).eventually hR
  obtain ⟨n, hn1, hn2⟩ := (h1.and h2).exists
  exact ⟨n, (hn1 _ rfl).trans (hn2 _ rfl).symm⟩

end Sys2Proof.Machine
end

