-- ==== Sys2Proof/Machine/Weights.lean ====
section
/-! DEFINITION. The weight function of the kernel generator (R83): each weight is the binary32 value nearest to the exact
real `G(d) / S`, the value both ends of an enclosure of that real round to (log 5). -/
namespace Sys2Proof.Machine

/-- The weight at distance `d` from the first of the shrinking enclosures that settles it: there is one for every sigma
(`Weight.settles`), because the weight is no point where the rounding changes. -/
def Weight.refined (u d : Nat) (h : u ≠ 0) : Nat :=
  Weight.roundRational (Weight.below u d (Nat.find (Weight.settles h d)))

/-- The weight at distance `d` from the centre (R83), as bits: the value both ends of the integer enclosure round to, or,
should they differ, the one of the shrinking enclosures. -/
def Weight.bits (u d : Nat) : Nat :=
  if h : Weight.tiny u then (if d = 0 then Weight.one else 0)
  else if Weight.lowerEnd u d = Weight.upperEnd u d then Weight.lowerEnd u d
  else min Weight.one (Weight.refined u d (Weight.ne_zero_of_not_tiny h))

/-- The weight at distance `d` from the centre (R83). -/
def Weight.atDistance (sigma : Word) (d : Nat) : Word := BitVec.ofNat 32 (Weight.bits (F32.magnitude sigma) d)

/-- `kernel(L.SIGMA)` (R83): weight `i` is the one at distance `|3 - i|`. -/
def kernelOf (sigma : Word) : Vector Word 7 :=
  #v[Weight.atDistance sigma 3, Weight.atDistance sigma 2, Weight.atDistance sigma 1, Weight.atDistance sigma 0,
    Weight.atDistance sigma 1, Weight.atDistance sigma 2, Weight.atDistance sigma 3]

end Sys2Proof.Machine
end

