-- ==== Sys2Proof/Machine/Sequencer.lean ====
section
/-! DEFINITION. The sequencer (R40, R114): its micro-steps, the end of a command by completion (R131) or abort (R129,
R130), and the acceptance of command words (R118, R119). -/
namespace Sys2Proof.Machine

/-- The flag a micro-step sets (R135 item 3). -/
inductive Event where
  | none
  | done
  | err
  deriving DecidableEq, Repr

/-- The command ends, and with it its races (R67). -/
def endRaces (s : State) : State := { s with raced := [], before := [] }

/-- Successful completion (R131). -/
def completeCommand (s : State) : State :=
  { endRaces s with phase := .idle, todo := [], done := true }

/-- An abort (R129): the error entry with `L.OP` and `L.VW`, and the running command has ended (R130). -/
def abortCommand (code : ErrCode) (addr : Nat) (s : State) : State :=
  { errorEntry code s.latch.op s.latch.vw addr (endRaces s) with phase := .idle, todo := [] }

/-- The kernel write (R85): KW0..KW6 and STATUS.KVALID in one step. -/
def writeKernel (s : State) : State := { s with kw := kernelOf s.latch.sigma, kvalid := true, todo := [] }

/-- A pass phase begins (R89, R114): every output is still to do (R91). -/
def beginPass (ph : Phase) (s : State) : State :=
  { s with phase := ph, todo := List.range (currentPass { s with phase := ph }).units }

/-- The kernel phase begins (R81, R111): the kernel write is still to do. -/
def beginKernel (s : State) : State := { s with phase := .kgen, todo := [0] }

/-- The latched command is a BLUR, whose phases go on (R73, R114). -/
def State.runsBlur (s : State) : Bool := decide (s.latch.op = 3)

/-- The end of a phase (R81, R89, R111, R114): the next phase, or completion. -/
def endPhase (s : State) : State × Event :=
  match s.phase with
  | .idle => (s, .none)
  | .kgen => if s.runsBlur then (beginPass .pass1 s, .none) else (completeCommand s, .done)
  | .pass1 => if s.runsBlur then (beginPass .pass2 s, .none) else (completeCommand s, .done)
  | .pass2 => (completeCommand s, .done)

/-- The unit the engine takes next: any of those still to do (R63, R91, log 3). -/
def State.nextUnit (s : State) : Nat := s.nextPick % s.todo.length

/-- The state with the next unit taken from those still to do. -/
def takeUnit (s : State) : State := { s.dropPick with todo := s.todo.eraseIdx s.nextUnit }

/-- A request of the running command is never answered (R160): these units stay to do, and of their outputs these have been
written (R40). -/
def stallCommand (units : List Nat) (outs : List Output) (s : State) : State :=
  { s with stalled := true, todo := units, landed := outs.map fun o => (o.r, o.c) }

/-- A unit with a request that gets a bad answer: open choices say which of these requests is the first (R129, S3) and
which words of the units not done have landed; a bus error aborts, a request that is never answered stalls the command
(R160). -/
def troubledUnit (p : Pass) (units : List Nat) (bad : List Request) (s : State) : State × Event :=
  let q := bad.getD (s.nextPick % bad.length) (.read 0)
  let n := s.dropPick.nextPick
  let s1 := s.dropPick.dropPick
  let s2 := landUnits p n units s1
  if q.unanswered s.bus then (stallCommand units (s1.landings p n units) s2, .none)
  else (abortCommand q.code q.addr s2, .err)

/-- One work unit of a pass (R105). -/
def runUnit (s : State) : State × Event :=
  let p := currentPass s
  let u := s.todo.getD s.nextUnit 0
  let bad := (p.outputs u).flatMap (p.badRequests s.inst s.bus)
  if bad.isEmpty then (runOutputs p (p.outputs u) (takeUnit s), .none)
  else troubledUnit p (u :: (takeUnit s).todo) bad (takeUnit s)

/-- One micro-step of the sequencer (R135 item 4), and the flag it sets. Idle, or with a request that is never answered,
it does nothing. -/
def tick (s : State) : State × Event :=
  if s.stalled then (s, .none)
  else
    match s.phase with
    | .idle => (s, .none)
    | .kgen => if s.todo.isEmpty then endPhase s else (writeKernel s, .none)
    | .pass1 => if s.todo.isEmpty then endPhase s else runUnit s
    | .pass2 => if s.todo.isEmpty then endPhase s else runUnit s

/-- `n` micro-steps. -/
def advance : Nat → State → State
  | 0, s => s
  | n + 1, s => advance n (tick s).1

/-- A reset cuts a running pass short: open choices say which words of the units not done have landed (R146, R147). -/
def abandonPass (s : State) : State :=
  match s.phase with
  | .idle => s
  | .kgen => s
  | .pass1 => landUnits (currentPass s) s.nextPick s.todo s.dropPick
  | .pass2 => landUnits (currentPass s) s.nextPick s.todo s.dropPick

/-- The micro-steps that follow the present host event (log 21). -/
def runLead (s : State) : State := advance s.lead s

/-- A command word presented to the sequencer (R118, R119): dropped while BUSY = 1, refused by the first check that fails,
else started by `start`; then the sequencer runs on. -/
def present (w : Word) (start : State → State) (s : State) : State :=
  runLead
    (if s.busy then overrun s
     else
       match validate w s with
       | some e => refuseCommand e w s
       | none => start s)

end Sys2Proof.Machine
end

