-- ==== Sys2Proof/Machine/Blur.lean ====
section
/-! DEFINITION. The full blur's commands (R111, R112). -/
namespace Sys2Proof.Machine

/-- BLUR.V128 (R111): the operands are latched and the kernel phase begins; PASS1 and PASS2 follow (R114) on the 128-bit
datapath. -/
def execBlurV128 (s : State) : Host.Outcome State Fault Refusal :=
  .next (present (encode .blurV128).2 (fun s => beginKernel (latchOperands (encode .blurV128).2 s)) s)

/-- BLUR.V256 (R112): the same on the 256-bit datapath. -/
def execBlurV256 (s : State) : Host.Outcome State Fault Refusal :=
  .next (present (encode .blurV256).2 (fun s => beginKernel (latchOperands (encode .blurV256).2 s)) s)

end Sys2Proof.Machine
end

