-- ==== Sys2Proof/Machine/Control.lean ====
section
/-! DEFINITION. NOP (R116), the soft reset (R117, R147) and the hardware reset (R146). -/
namespace Sys2Proof.Machine

/-- NOP (R116): "No register, flag or memory word changes; BUSY is not set and DONE is not set", and nothing is latched
(R118). -/
def execNop (vw : Bool) (s : State) : Host.Outcome State Fault Refusal :=
  .next (present (encode (.nop vw)).2 id s)

/-- The reset of the block (R146, R147): a running pass is cut short and every register takes its reset value. No error is
recorded and DONE is not set. -/
def resetNow (s : State) : State := resetBlock (abandonPass s)

/-- SRST (R117): `soft_reset()` of R147, whatever BUSY is and whatever bits 31..1 of the word are. With a request that is
never answered outstanding it never completes: the write to CTRL waits, and nothing else changes (R160, log 10). -/
def execSrst (_ctrl : Word) (s : State) : Host.Outcome State Fault Refusal :=
  .next (runLead (if s.stalled then { s with srstWait := true } else resetNow s))

/-- `rst_n` takes a level (R146). Low: the running command is abandoned and the registers take their reset values; high:
the block waits for a host access. -/
def driveReset (level : Bool) (s : State) : State :=
  if level then { s with rstLow := false } else { resetNow s with rstLow := true }

end Sys2Proof.Machine
end

