-- ==== Sys2Proof/Machine/Hpass.lean ====
section
/-! DEFINITION. The convolution pass's commands (R89, R108). -/
namespace Sys2Proof.Machine

/-- HPASS.V128 (R89): the operands are latched and PASS1 begins on the 128-bit datapath. -/
def execHpassV128 (s : State) : Host.Outcome State Fault Refusal :=
  .next (present (encode .hpassV128).2 (fun s => beginPass .pass1 (latchOperands (encode .hpassV128).2 s)) s)

/-- HPASS.V256 (R108): the operands are latched and PASS1 begins on the 256-bit datapath. -/
def execHpassV256 (s : State) : Host.Outcome State Fault Refusal :=
  .next (present (encode .hpassV256).2 (fun s => beginPass .pass1 (latchOperands (encode .hpassV256).2 s)) s)

end Sys2Proof.Machine
end

