-- ==== Sys2Proof/Machine/Kgen.lean ====
section
/-! DEFINITION. The kernel generator's command (R81). -/
namespace Sys2Proof.Machine

/-- KGEN (R81): the operands are latched and the kernel phase begins; the kernel write and completion are the sequencer's
next two micro-steps. -/
def execKgen (vw : Bool) (s : State) : Host.Outcome State Fault Refusal :=
  .next (present (encode (.kgen vw)).2 (fun s => beginKernel (latchOperands (encode (.kgen vw)).2 s)) s)

end Sys2Proof.Machine
end

