-- ==== Sys2Proof/Machine/Dispatch.lean ====
section
/-! DEFINITION. The meaning of each instruction, one arm for each row of spec/opcode_table.json. -/
namespace Sys2Proof.Machine

/-- What running an instruction does to the machine. -/
def exec (i : Instr) (s : State) : Host.Outcome State Fault Refusal :=
  match i with
  | .nop vw => Sys2Proof.Machine.execNop vw s
  | .kgen vw => Sys2Proof.Machine.execKgen vw s
  | .hpassV128 => Sys2Proof.Machine.execHpassV128 s
  | .hpassV256 => Sys2Proof.Machine.execHpassV256 s
  | .blurV128 => Sys2Proof.Machine.execBlurV128 s
  | .blurV256 => Sys2Proof.Machine.execBlurV256 s
  | .srst ctrl => Sys2Proof.Machine.execSrst ctrl s

end Sys2Proof.Machine
end

