-- ==== Sys2Proof/Machine/Registers.lean ====
section
/-! DEFINITION. The register map of the register port (R21): what a 32-bit read answers (R120) and what a 32-bit write that
runs no instruction does (R121). -/
namespace Sys2Proof.Machine

/-- CAP (R23): REV 31..24, ADDR_W 21..16, KTAPS 15..12, KRADIUS 11..8, NARROW_ROUND 4, MIRROR_AXIS 3, RB_LEGACY 2, V256 1,
V128 0. -/
def capWord (inst : Params) : Word :=
  0x01#8 ++ 0#2 ++ BitVec.ofNat 6 inst.addrW ++ 7#4 ++ 3#4 ++ 0#3
    ++ BitVec.ofBool (decide (inst.narrowRound = .trunc)) ++ BitVec.ofBool (decide (inst.mirrorAxis = .center))
    ++ BitVec.ofBool inst.rbLegacy ++ BitVec.ofBool inst.hasV256 ++ 1#1

/-- The value of the register at an offset (R22 to R36, R120). CTRL and CMD read 0, as every reserved offset does. -/
def readRegister (off : Offset) (s : State) : Word :=
  match off.toNat with
  | 0x000 => 0x47424C37
  | 0x004 => capWord s.inst
  | 0x010 => statusWord s
  | 0x014 => s.errCode
  | 0x018 => s.errAddr
  | 0x01C => s.irqEn.setWidth 32
  | 0x020 => s.sigma
  | 0x024 => s.srcAddr
  | 0x028 => s.dstAddr
  | 0x02C => s.width.setWidth 32
  | 0x030 => s.height.setWidth 32
  | 0x040 => s.kw[0]
  | 0x044 => s.kw[1]
  | 0x048 => s.kw[2]
  | 0x04C => s.kw[3]
  | 0x050 => s.kw[4]
  | 0x054 => s.kw[5]
  | 0x058 => s.kw[6]
  | _ => 0

/-- The writable bits of an address register: ADDR_W-1..0 (R31, R32). -/
def addressBits (inst : Params) (v : Word) : Word := BitVec.ofNat 32 (v.toNat % 2 ^ inst.addrW)

/-- A 32-bit write to a register (R26, R29 to R34, R38, R121, R122). Read-only registers and reserved offsets ignore it
(R36, R38); a write to CMD or CTRL that runs an instruction goes through `exec`, any other write to CTRL does nothing
(R24). -/
def writeRegister (off : Offset) (v : Word) (s : State) : State :=
  match off.toNat with
  | 0x010 => acknowledge v s
  | 0x01C => { s with irqEn := v.setWidth 3 }
  | 0x020 => { s with sigma := v }
  | 0x024 => { s with srcAddr := addressBits s.inst v }
  | 0x028 => { s with dstAddr := addressBits s.inst v }
  | 0x02C => { s with width := v.setWidth 16 }
  | 0x030 => { s with height := v.setWidth 16 }
  | _ => s

/-- An access at a multiple of 4 (R20, R37). -/
def aligned (off : Offset) : Bool := decide (off.toNat % 4 = 0)

end Sys2Proof.Machine
end

