-- ==== Sys2Proof/Machine/Port.lean ====
section
/-! DEFINITION. The events of the outside world: the register port (R20, R37, R118 to R122), the host's own accesses to the
memory space with their races (R67), `rst_n` (R146), and the same-cycle STATUS write (R135 item 3). -/
namespace Sys2Proof.Machine

/-- A command word that is no instruction (R77, R78): ILLEGAL_CMD, or an overrun while BUSY = 1 (R119). -/
def illegalCommand (w : Word) (s : State) : Host.Outcome State Fault Refusal := .next (present w id s)

/-- A 32-bit register write (R121). While `rst_n` is low it leaves nothing behind (R146, log 18), and a misaligned one is
no fault (log 23, DESIGN CHOICE). -/
def portWrite (off : Offset) (v : Word) (s : State) : Host.Outcome State Fault Refusal :=
  if s.rstLow then .next (runLead s)
  else if !aligned off then .fault .hostAccess
  else
    match decodeWrite off v with
    | .ok i => exec i s
    | .error .reservedBits => illegalCommand v s
    | .error .reservedOp => illegalCommand v s
    | .error .noReset => .next (runLead s)
    | .error .otherRegister => .next (runLead (writeRegister off v s))

/-- A 32-bit register read (R120). While `rst_n` is low it answers any value (R146, S8), also a misaligned one, which is no
fault then (log 23, DESIGN CHOICE). -/
def portRead (off : Offset) (s : State) : Host.Outcome State Fault Refusal :=
  if s.rstLow then .next (runLead { s.dropFree with rdata := s.freeWord })
  else if !aligned off then .fault .hostAccess
  else .next (runLead { s with rdata := readRegister off s })

/-- A register access of another size (R37). While `rst_n` is low the port gives no defined answer (R146, S8): the access is
no fault and leaves nothing behind, the model's choice (log 23, DESIGN CHOICE). -/
def portOtherSize (s : State) : Host.Outcome State Fault Refusal :=
  if s.rstLow then .next (runLead s) else .fault .hostAccess

/-- A 32-bit write of `v` to STATUS in the same cycle as a micro-step (R135 item 3): the micro-step acts on the flags as
they stood, and a flag it sets ends set, with ERR_CODE and ERR_ADDR as it left them. -/
def statusSameCycle (v : Word) (s : State) : State :=
  let (t, e) := tick s
  let u := acknowledge v t
  match e with
  | .none => u
  | .done => { u with done := true }
  | .err => { u with err := t.err, errCode := t.errCode, errAddr := t.errAddr }

/-- Which pixel word of a host access at `a` its byte `l` is in: 0 the lower one, 1 the upper one. -/
def pixelOf (a l : Nat) : Nat := (a + l) / 4 - a / 4

/-- Some byte of pixel word `j` of a host store at `a` races (R67). -/
def State.pixelRaces (s : State) (a j : Nat) : Bool :=
  (List.range 4).any fun l => decide (pixelOf a l = j) && s.storeRaces (a + l)

/-- Byte `l` of a host store at `a` reaches memory: it races with nothing, or the open choice says so of its pixel word
(R67). -/
def State.storeLands (s : State) (a l : Nat) : Bool :=
  !s.storeRaces (a + l) || !s.nextPick.testBit (2 * pixelOf a l)

/-- The races of a host store at `a`. For each pixel word that lands a second open choice says whether the value stays there
should the command write the word after it; one that does not land leaves that as an earlier racing store has it (log 15,
DESIGN CHOICE). -/
def State.newRaces (s : State) (a : Nat) : List Race :=
  ([0, 1].filter (s.pixelRaces a)).map fun j =>
    { word := 4 * (a / 4 + j)
      kept :=
        if s.nextPick.testBit (2 * j) then s.keepsHostWord (4 * (a / 4 + j)) else !s.nextPick.testBit (2 * j + 1) }

/-- A host store of `v` at `a` that races with the running command (R67): each pixel word ends with either value, and
every output that depends on one takes any value, those already written at once. Of several racing stores to one pixel word
in one command, of which R67 does not speak, the last that lands decides what the word holds and whether it outlasts the
engine's own write: the model's choice (log 15, DESIGN CHOICE). -/
def racingStore (a : Nat) (v : Word) (s : State) : State :=
  let new := s.newRaces a
  let words := new.map (·.word)
  let t := freeWords (s.dependents words) s.dropPick
  { t with
    mem := storeBytes (s.storeLands a) a v t.mem
    raced := new ++ s.raced.filter fun x => !words.contains x.word }

/-- Byte `l` of a host load at `a`: for a byte that races, by an open choice for its pixel word, what it was before the
command or what is there now (R67). What is there now is what the command has left so far or, where a racing store of the
host's own has landed, the host's value, of which R67 does not speak: the model's choice (log 15, DESIGN CHOICE). -/
def State.loadByte (s : State) (a l : Nat) : Byte :=
  if s.loadRaces (a + l) && s.nextPick.testBit (pixelOf a l) then Memory.get s.before (a + l)
  else Memory.get s.mem (a + l)

/-- A host load of the word at `a` that races with the running command (R67). -/
def racingLoad (a : Nat) (s : State) : State :=
  { s.dropPick with rdata := s.loadByte a 3 ++ s.loadByte a 2 ++ s.loadByte a 1 ++ s.loadByte a 0 }

/-- A host load of the word at `a` (R123). -/
def hostLoad (a : Nat) (s : State) : Host.Outcome State Fault Refusal :=
  if 2 ^ s.inst.addrW < a + 4 then .fault .noSuchAddress
  else if (List.range 4).any fun l => s.loadRaces (a + l) then .next (runLead (racingLoad a s))
  else .next (runLead { s with rdata := Memory.read32 s.mem a })

/-- A host store of the word `v` at `a` (R123). -/
def hostStore (a : Nat) (v : Word) (s : State) : Host.Outcome State Fault Refusal :=
  if 2 ^ s.inst.addrW < a + 4 then .fault .noSuchAddress
  else if (List.range 4).any fun l => s.storeRaces (a + l) then .next (runLead (racingStore a v s))
  else .next (runLead { s with mem := Memory.write32 s.mem a v })

/-- One event of the outside world. -/
def hostEvent (op : HostOp) (s : State) : Host.Outcome State Fault Refusal :=
  match op with
  | .write off v => portWrite off v s
  | .read off => portRead off s
  | .otherSize _ => portOtherSize s
  | .statusSame v => .next (runLead (if s.rstLow then s else statusSameCycle v s))
  | .load a => hostLoad a s
  | .store a v => hostStore a v s
  | .rstN level => .next (runLead (driveReset level s))
  | .platform b => .next (runLead { s with bus := b })
  | .wait => .next (runLead s)

/-- One step: the next event of the outside world, or, when the host has none, one micro-step of the sequencer. -/
def nextEvent (s : State) : Host.Outcome State Fault Refusal :=
  match s.inputs with
  | [] => .next (tick s).1
  | x :: rest => hostEvent x.op { s with inputs := rest, lead := x.lead }

/-- A host that writes `w` at offset `off` next, with `rst_n` high (log 1, log 8). -/
def placeWrite (off : Offset) (w : Word) (s : State) : State :=
  { s with rstLow := false, inputs := { op := .write off w, lead := s.lead } :: s.inputs }

end Sys2Proof.Machine
end

