-- ==== Sys2Proof/Machine/Step.lean ====
section
/-! DEFINITION. One step of the machine, and how an instruction comes to be the next one it runs. -/
namespace Sys2Proof.Machine

/-- One step. -/
def step (s : State) : Host.Outcome State Fault Refusal := nextEvent s

/-- The state whose next step runs the instruction of a table word (log 1, log 8): the host's next event is the register
write that presents it. -/
def State.withFetchWord (s : State) (_nbits w : Nat) : State :=
  placeWrite (tableOffset (BitVec.ofNat 32 w)) (BitVec.ofNat 32 w) s

end Sys2Proof.Machine
end

