-- ==== Sys2Proof/WellFormed.lean ====
section
/-! DEFINITION. What a term of the syntax must satisfy to be an instruction, and parameters to be an instance. -/
namespace Sys2Proof

/-- CTRL.SRST is bit 0 of the written word; writing 0 there is no soft reset (R24). -/
def Instr.ctrlBitSet : Instr → Bool
  | .nop _ => true
  | .kgen _ => true
  | .hpassV128 => true
  | .hpassV256 => true
  | .blurV128 => true
  | .blurV256 => true
  | .srst ctrl => ctrl.getLsbD 0

/-- A well-formed instruction. Every field of a command word but bit 4 is fixed by its constructor, so the soft reset's
word is the only thing to check. -/
def Instr.wf (i : Instr) : Bool := i.ctrlBitSet

/-- ADDR_W is an integer 16..32 (R8). -/
def Params.wf (p : Params) : Bool := decide (16 ≤ p.addrW ∧ p.addrW ≤ 32)

end Sys2Proof
end

