-- ==== Sys2Proof/Safety.lean ====
section
/-! DEFINITION. What the statements call a good state and a clean pass: the invariant of the machine, and the conditions on
the platform and the buffers under which a command completes. -/
namespace Sys2Proof.Machine

/-- The checks of a pass's arguments (R90, R113, R127) as one property. -/
structure Pass.Valid (inst : Params) (p : Pass) : Prop where
  width : wmin inst ≤ p.w
  height : 1 ≤ p.h
  srcAligned : p.src % 4 = 0
  dstAligned : p.dst % 4 = 0
  srcInRange : p.src + p.bytes ≤ 2 ^ inst.addrW
  dstInRange : p.dst + p.bytes ≤ 2 ^ inst.addrW
  apart : p.src + p.bytes ≤ p.dst ∨ p.dst + p.bytes ≤ p.src

/-- Every request of the pass is answered with data or an acknowledgement (R54). -/
def Pass.Answered (inst : Params) (b : Bus) (p : Pass) : Prop :=
  ∀ r < p.h, ∀ c < p.w, p.badRequests inst b { upper := false, r := r, c := c } = []

/-- No request of the pass is left without any answer (R160). -/
def Pass.Responsive (inst : Params) (b : Bus) (p : Pass) : Prop :=
  ∀ r < p.h, ∀ c < p.w,
    (∀ k < 7, spansCover b.noAnswer (Pass.tapAddr inst p r c k) = false) ∧
      spansCover b.noAnswer (p.outAddr r c) = false

/-- No output of the pass has a tap in the pass's own destination: only the legacy read could (R109, R158). -/
def Pass.Calm (inst : Params) (p : Pass) : Prop :=
  ∀ r < p.h, ∀ c < p.w, p.readsOwnOutput inst r c = false

/-- The byte at `a` is one of the pass's destination buffer. -/
def Pass.InDest (p : Pass) (a : Nat) : Prop := p.dst ≤ a ∧ a < p.dst + p.bytes

/-- Every kernel register holds a binary32 value from +0 to 1.0 (R86 item 2). -/
def KernelInUnit (kw : Vector Word 7) : Prop := ∀ k : Fin 7, kw[k].toNat ≤ 0x3F800000

/-- What the latched context of a running command satisfies in each phase: it passed the checks of R127 and belongs to a
command that has the phase (R81, R89, R111, R114). -/
def RunningOk (s : State) : Prop :=
  match s.phase with
  | .idle => s.todo = [] ∧ s.raced = [] ∧ s.before = [] ∧ s.stalled = false
  | .kgen =>
    legalSigma s.latch.sigma = true ∧ (s.todo = [] ∨ s.todo = [0]) ∧ (s.todo = [] → s.kvalid = true) ∧
      s.stalled = false ∧
      ((s.latch.op = 1 ∧ s.raced = []) ∨
        (s.latch.op = 3 ∧ (firstPass s.latch).Valid s.inst ∧ (secondPass s.latch).Valid s.inst))
  | .pass1 =>
    s.kvalid = true ∧ s.todo.Nodup ∧ (∀ u ∈ s.todo, u < (firstPass s.latch).units) ∧
      (firstPass s.latch).Valid s.inst ∧
      (s.latch.op = 2 ∨ (s.latch.op = 3 ∧ (secondPass s.latch).Valid s.inst))
  | .pass2 =>
    s.kvalid = true ∧ s.todo.Nodup ∧ (∀ u ∈ s.todo, u < (secondPass s.latch).units) ∧
      s.latch.op = 3 ∧ (firstPass s.latch).Valid s.inst ∧ (secondPass s.latch).Valid s.inst

/-- The invariant of the machine. -/
structure State.Inv (s : State) : Prop where
  /-- ADDR_W is 16 to 32 (R8). -/
  instance_legal : s.inst.wf = true
  /-- Memory is in canonical form. -/
  memory_canonical : Memory.wf s.mem
  /-- No byte stands outside the memory space (R51). -/
  memory_in_space : ∀ cell ∈ s.mem, cell.1 < 2 ^ s.inst.addrW
  /-- ERR_CODE and ERR_ADDR are 0 while ERR is 0 (R27, R28). -/
  error_cleared : s.err = false → s.errCode = 0 ∧ s.errAddr = 0
  /-- ERR_CODE's reserved bits 31..13 are 0 (R27). -/
  error_code_reserved : s.errCode.toNat < 2 ^ 13
  /-- ERR_ADDR holds a byte address (R28). -/
  error_address : s.errAddr.toNat < 2 ^ s.inst.addrW
  /-- SRC_ADDR bits 31..ADDR_W are 0 (R31). -/
  source_address : s.srcAddr.toNat < 2 ^ s.inst.addrW
  /-- DST_ADDR bits 31..ADDR_W are 0 (R32). -/
  destination_address : s.dstAddr.toNat < 2 ^ s.inst.addrW
  /-- The weights are in [0, 1] (R86). -/
  kernel_in_unit : KernelInUnit s.kw
  /-- KW0..KW6 are 0 until a kernel is made (R35, R46). -/
  kernel_absent : s.kvalid = false → s.kw = Vector.replicate 7 0
  /-- The running command, or none. -/
  running : RunningOk s
  /-- A soft reset waits only for a request that is never answered (R147, R160). -/
  reset_waits : s.srstWait = true → s.stalled = true
  /-- Outputs of units still to do have been written only where a request was never answered (R40, R160). -/
  landed_stalled : s.stalled = false → s.landed = []
  /-- They are outputs of those units. -/
  landed_pending : ∀ x ∈ s.landed, ∃ u ∈ s.todo, ∃ o ∈ (currentPass s).outputs u, x = (o.r, o.c)
  /-- While `rst_n` is low every register holds its reset value (R146). -/
  in_reset : s.rstLow = true → resetBlock s = s

/-- An upper bound of the micro-steps until the running command has ended (R160). -/
def State.workLeft (s : State) : Nat :=
  match s.phase with
  | .idle => 0
  | .kgen =>
    s.todo.length + 1 + (if s.runsBlur then (firstPass s.latch).units + 1 + ((secondPass s.latch).units + 1) else 0)
  | .pass1 => s.todo.length + 1 + (if s.runsBlur then (secondPass s.latch).units + 1 else 0)
  | .pass2 => s.todo.length + 1

/-- The micro-steps of a whole pass: its units and its end. -/
def Pass.steps (p : Pass) : Nat := p.units + 1

end Sys2Proof.Machine
end

