-- ==== Sys2Proof/Certificates/Slice0/Obligations.lean ====
section
/-! DEFINITION. The statements about the machine, from the numbered rules of spec/. -/

open Sys2Proof Sys2Proof.Machine

/-! ## Encoding -/

/-- The words of R73, R74 and R117, written out, decode to their instructions: bits 3..0 the OP, bit 4 the VW, bits 31..5
zero. Every word written to CTRL with bit 0 = 1 is SRST, with bits 31..1 ignored, and with bit 0 = 0 none. -/
def Obligations.WordsOfTheTableDecode : Prop :=
  decode 0x00C 0x00000000 = some (.nop false) ∧ decode 0x00C 0x00000010 = some (.nop true) ∧
  decode 0x00C 0x00000001 = some (.kgen false) ∧ decode 0x00C 0x00000011 = some (.kgen true) ∧
  decode 0x00C 0x00000002 = some .hpassV128 ∧ decode 0x00C 0x00000012 = some .hpassV256 ∧
  decode 0x00C 0x00000003 = some .blurV128 ∧ decode 0x00C 0x00000013 = some .blurV256 ∧
  decode 0x00C 0x00000020 = none ∧ decode 0x00C 0x00000004 = none ∧
  ∀ w : Word, decode 0x008 w = if w.getLsbD 0 then some (.srst w) else none

/-- Decoding and encoding are inverse (R72 to R74, R117): the well-formed instructions are exactly what the decoder
answers, each from its own register write, and no bit of a word is dropped. -/
def Obligations.DecodeInvertsEncode : Prop :=
  ∀ (off : Offset) (w : Word) (i : Instr), decode off w = some i ↔ i.wf = true ∧ encode i = (off, w)

/-- R77 with R75: a word written to CMD while BUSY = 0 is illegal exactly when an RSV bit is set or OP is 0x4 or more, and
then the step records ILLEGAL_CMD with the word's own OP and VW (first-error capture, R130) and does nothing else. -/
def Obligations.IllegalWordsAreRefused : Prop :=
  ∀ (w : Word),
    (decode 0x00C w = none ↔ w.toNat / 32 ≠ 0 ∨ 4 ≤ w.toNat % 16) ∧
    ∀ (s : State) (n : Nat) (rest : List Input),
      s.inputs = { op := .write 0x00C w, lead := n } :: rest → s.rstLow = false →
      s.busy = false → (w.toNat / 32 ≠ 0 ∨ 4 ≤ w.toNat % 16) →
      step s =
        .next
          (if s.err then { s with inputs := rest, lead := n }
           else
            { s with
              inputs := rest
              lead := n
              err := true
              errCode := BitVec.ofNat 32 (0x01 + 256 * (w.toNat % 16) + 4096 * (w.toNat / 16 % 2))
              errAddr := 0 })

/-! ## The step -/

/-- A step runs the decoded instruction: when the host's next event is a register write that decodes to `i`, the port
answers, the step is `exec i` on the state in which that event is used up.
The list of events and the micro-steps that follow each are the model's choice (log 1). -/
def Obligations.StepRunsDecodedInstruction : Prop :=
  ∀ (s : State) (off : Offset) (w : Word) (n : Nat) (rest : List Input) (i : Instr),
    s.inputs = { op := .write off w, lead := n } :: rest → s.rstLow = false →
    decode off w = some i → step s = exec i { s with inputs := rest, lead := n }

/-- R37: an access that is not an aligned 32-bit one is a host fault. That it stops the machine is the model's reading of
"host fault" (log 9). -/
def Obligations.UnalignedAccessIsHostFault : Prop :=
  ∀ (s : State) (off : Offset) (v : Word) (n : Nat) (rest : List Input),
    s.rstLow = false →
    (s.inputs = { op := .otherSize off, lead := n } :: rest ∨
      off.toNat % 4 ≠ 0 ∧
        (s.inputs = { op := .write off v, lead := n } :: rest ∨ s.inputs = { op := .read off, lead := n } :: rest)) →
    step s = .fault .hostAccess

/-- R24, R120 and R121 at the step: a 32-bit read returns the register's value and has no side effect; a 32-bit write to a
register other than CMD and CTRL changes what `writeRegister` says; a write to CTRL with bit 0 = 0 does nothing; then the
sequencer runs on. A STATUS write in the same cycle as a micro-step (R135 item 3) is `statusSameCycle`, which
`StatusWriteClearsFlags` and `SameCycleEventIsNotLost` speak of. -/
def Obligations.StepReadsAndWritesRegisters : Prop :=
  ∀ (s : State) (off : Offset) (v : Word) (n : Nat) (rest : List Input),
    s.rstLow = false → off.toNat % 4 = 0 →
    (s.inputs = { op := .read off, lead := n } :: rest →
      step s = .next (advance n { s with inputs := rest, lead := n, rdata := readRegister off s })) ∧
    (s.inputs = { op := .write off v, lead := n } :: rest → off ≠ 0x008 → off ≠ 0x00C →
      step s = .next (advance n (writeRegister off v { s with inputs := rest, lead := n }))) ∧
    (s.inputs = { op := .write 0x008 v, lead := n } :: rest → v.getLsbD 0 = false →
      step s = .next (advance n { s with inputs := rest, lead := n })) ∧
    (s.inputs = { op := .statusSame v, lead := n } :: rest →
      step s = .next (advance n (statusSameCycle v { s with inputs := rest, lead := n })))

/-! ## NOP, commands while busy, refusals -/

/-- R116: the words 0x00000000 and 0x00000010 are a NOP. Written with BUSY = 0 it changes no register, flag or memory word,
and BUSY and DONE are not set; written with BUSY = 1 it is dropped and sets STATUS.OVR. -/
def Obligations.NopChangesNothing : Prop :=
  decode 0x00C 0x00000000 = some (.nop false) ∧ decode 0x00C 0x00000010 = some (.nop true) ∧
  ∀ (s : State) (vw : Bool),
    (s.busy = false → exec (.nop vw) s = .next s) ∧
    (s.busy = true → exec (.nop vw) s = .next { advance s.lead s with ovr := true })

/-- R119: any word written to CMD while BUSY = 1, legal or not, sets STATUS.OVR, and the running command goes on as if it
had not been written. -/
def Obligations.CommandWhileBusyIsDropped : Prop :=
  ∀ (s : State) (w : Word) (n : Nat) (rest : List Input),
    s.inputs = { op := .write 0x00C w, lead := n } :: rest → s.rstLow = false → s.busy = true →
    step s = .next { advance n { s with inputs := rest, lead := n } with ovr := true }

/-- R127: the order of the checks. Each code is the answer exactly when its own check fails and every earlier one that
applies to the word's operation passes. The least width is R9's: 3 under EDGE, 6 under CENTER. -/
def Obligations.ChecksComeInOrder : Prop :=
  ∀ (w : Word) (s : State),
    let op := w.toNat % 16
    let vw := w.toNat / 16 % 2
    let wid := s.width.toNat
    let hei := s.height.toNat
    let src := s.srcAddr.toNat
    let dst := s.dstAddr.toNat
    let n := 4 * wid * hei
    let illegal := w.toNat / 32 ≠ 0 ∨ 4 ≤ op
    let unsupported := (op = 2 ∨ op = 3) ∧ vw = 1 ∧ s.inst.hasV256 = false
    let badSigma := (op = 1 ∨ op = 3) ∧ legalSigma s.sigma = false
    let noKernel := op = 2 ∧ s.kvalid = false
    let usesBuffers := op = 2 ∨ op = 3
    let minimum := match s.inst.mirrorAxis with
      | .edge => 3
      | .center => 6
    let badDim := wid < minimum ∨ hei < (if op = 3 then minimum else 1)
    let misaligned := src % 4 ≠ 0 ∨ dst % 4 ≠ 0
    let outOfRange := 2 ^ s.inst.addrW < src + n ∨ 2 ^ s.inst.addrW < dst + n
    let overlapping := src < dst + n ∧ dst < src + n
    (validate w s = some .illegalCmd ↔ illegal) ∧
    (validate w s = some .unsupportedVw ↔ ¬ illegal ∧ unsupported) ∧
    (validate w s = some .badSigma ↔ ¬ illegal ∧ ¬ unsupported ∧ badSigma) ∧
    (validate w s = some .noKernel ↔ ¬ illegal ∧ ¬ unsupported ∧ noKernel) ∧
    (validate w s = some .badDim ↔
      ¬ illegal ∧ ¬ unsupported ∧ ¬ badSigma ∧ ¬ noKernel ∧ usesBuffers ∧ badDim) ∧
    (validate w s = some .misaligned ↔
      ¬ illegal ∧ ¬ unsupported ∧ ¬ badSigma ∧ ¬ noKernel ∧ usesBuffers ∧ ¬ badDim ∧ misaligned) ∧
    (validate w s = some .addrRange ↔
      ¬ illegal ∧ ¬ unsupported ∧ ¬ badSigma ∧ ¬ noKernel ∧ usesBuffers ∧ ¬ badDim ∧ ¬ misaligned ∧ outOfRange) ∧
    (validate w s = some .overlap ↔
      ¬ illegal ∧ ¬ unsupported ∧ ¬ badSigma ∧ ¬ noKernel ∧ usesBuffers ∧ ¬ badDim ∧ ¬ misaligned ∧ ¬ outOfRange ∧
        overlapping) ∧
    validate w s ≠ some .busRead ∧ validate w s ≠ some .busWrite

/-- R128: a refused command changes no register or flag except by the error entry of R130: ERR, and, if no error was
recorded before, ERR_CODE with the code's number of R126 and the word's OP and VW, and ERR_ADDR = 0. -/
def Obligations.RefusalIsPrecise : Prop :=
  ∀ (s : State) (i : Instr) (e : ErrCode),
    (∀ ctrl, i ≠ .srst ctrl) → s.busy = false → validate (encode i).2 s = some e →
    let code : Nat := match e with
      | .illegalCmd => 0x01
      | .unsupportedVw => 0x02
      | .badSigma => 0x03
      | .noKernel => 0x04
      | .badDim => 0x05
      | .misaligned => 0x06
      | .addrRange => 0x07
      | .overlap => 0x08
      | .busRead => 0x09
      | .busWrite => 0x0A
    exec i s =
      .next
        (if s.err then s
         else
          { s with
            err := true
            errCode :=
              BitVec.ofNat 32 (code + 256 * ((encode i).2.toNat % 16) + 4096 * ((encode i).2.toNat / 16 % 2))
            errAddr := 0 })

/-- R82: the legal sigmas are the bit patterns of the positive finite binary32 values, 0x00000001 to 0x7F7FFFFF, and a
KGEN or BLUR with any other is refused with BAD_SIGMA (a BLUR on an absent 256-bit datapath is refused before that), by
the error entry with first-error capture. -/
def Obligations.SigmaMustBePositiveAndFinite : Prop :=
  (∀ w : Word, legalSigma w = true ↔ 1 ≤ w.toNat ∧ w.toNat ≤ 0x7F7FFFFF) ∧
  ∀ (s : State), s.busy = false → (s.sigma.toNat < 1 ∨ 0x7F7FFFFF < s.sigma.toNat) →
    let refused := fun code : Word => if s.err then s else { s with err := true, errCode := code, errAddr := 0 }
    (∀ vw, exec (.kgen vw) s = .next (refused (if vw then 0x1103 else 0x0103))) ∧
    exec .blurV128 s = .next (refused 0x0303) ∧
    (s.inst.hasV256 = true → exec .blurV256 s = .next (refused 0x1303))

/-! ## Acceptance -/

/-- R39, R118: an accepted command latches its operands and its word's OP and VW in one step, BUSY is 1 with the phase of
its first micro-step, and nothing else changes before the sequencer runs. (The copy of memory is the model's own, log 15.) -/
def Obligations.AcceptanceLatchesOperands : Prop :=
  ∀ (s : State) (i : Instr) (op : BitVec 4) (vw : Bool) (first : Phase),
    ((i = .kgen vw ∧ op = 1 ∧ first = .kgen) ∨
      (op = 2 ∧ first = .pass1 ∧ (i = .hpassV128 ∧ vw = false ∨ i = .hpassV256 ∧ vw = true)) ∨
      (op = 3 ∧ first = .kgen ∧ (i = .blurV128 ∧ vw = false ∨ i = .blurV256 ∧ vw = true))) →
    s.busy = false → validate (encode i).2 s = none →
    ∃ t, exec i s = .next (advance s.lead t) ∧ t.busy = true ∧
      t =
        { s with
          latch :=
            { op := op, vw := vw, sigma := s.sigma, src := s.srcAddr, dst := s.dstAddr, w := s.width,
              h := s.height }
          phase := first
          todo := t.todo
          before := s.mem }

/-- R39, R154: a running command reads only its latched copies. Whatever the host writes to SIGMA, SRC_ADDR, DST_ADDR,
WIDTH and HEIGHT, every number of micro-steps does the same. -/
def Obligations.RegisterWritesDoNotReachRunningCommand : Prop :=
  ∀ (s : State) (n : Nat) (sg a d : Word) (w h : BitVec 16),
    advance n { s with sigma := sg, srcAddr := a, dstAddr := d, width := w, height := h } =
      { advance n s with sigma := sg, srcAddr := a, dstAddr := d, width := w, height := h }

/-- R90: HPASS is accepted exactly when the 256-bit datapath exists if it selects it, a kernel is valid, the row is at
least WMIN (R9: 3 under EDGE, 6 under CENTER) wide and the image not empty, both addresses are multiples of 4, both buffers
end at or below 2^ADDR_W, and they share no byte. -/
def Obligations.HpassAcceptedExactlyWhenLegal : Prop :=
  ∀ (s : State) (i : Instr) (vw : Bool),
    (i = .hpassV128 ∧ vw = false ∨ i = .hpassV256 ∧ vw = true) → s.busy = false → s.lead = 0 →
    let wid := s.width.toNat
    let hei := s.height.toNat
    let src := s.srcAddr.toNat
    let dst := s.dstAddr.toNat
    let n := 4 * wid * hei
    let minimum := match s.inst.mirrorAxis with
      | .edge => 3
      | .center => 6
    ∃ t, exec i s = .next t ∧
      (t.busy = true ↔
        (vw = true → s.inst.hasV256 = true) ∧ s.kvalid = true ∧ minimum ≤ wid ∧ 1 ≤ hei ∧
          src % 4 = 0 ∧ dst % 4 = 0 ∧ src + n ≤ 2 ^ s.inst.addrW ∧
          dst + n ≤ 2 ^ s.inst.addrW ∧ (src + n ≤ dst ∨ dst + n ≤ src))

/-- R113: BLUR is accepted exactly when the datapath exists, SIGMA is legal (R82), both dimensions are at least WMIN (R9: 3
under EDGE, 6 under CENTER), both addresses are multiples of 4, both buffers end at or below 2^ADDR_W, and they share no
byte; STATUS.KVALID is not checked. -/
def Obligations.BlurAcceptedExactlyWhenLegal : Prop :=
  ∀ (s : State) (i : Instr) (vw : Bool),
    (i = .blurV128 ∧ vw = false ∨ i = .blurV256 ∧ vw = true) → s.busy = false → s.lead = 0 →
    let wid := s.width.toNat
    let hei := s.height.toNat
    let src := s.srcAddr.toNat
    let dst := s.dstAddr.toNat
    let n := 4 * wid * hei
    let minimum := match s.inst.mirrorAxis with
      | .edge => 3
      | .center => 6
    ∃ t, exec i s = .next t ∧
      (t.busy = true ↔
        (vw = true → s.inst.hasV256 = true) ∧ 1 ≤ s.sigma.toNat ∧ s.sigma.toNat ≤ 0x7F7FFFFF ∧ minimum ≤ wid ∧
          minimum ≤ hei ∧ src % 4 = 0 ∧ dst % 4 = 0 ∧ src + n ≤ 2 ^ s.inst.addrW ∧
          dst + n ≤ 2 ^ s.inst.addrW ∧ (src + n ≤ dst ∨ dst + n ≤ src))

/-! ## KGEN -/

/-- R81, R85, R131: KGEN with a legal sigma completes: KW0..KW6 become the kernel of SIGMA, KVALID and DONE are set, the
operands stay latched, and no other register and no byte of memory changes.
The number of micro-steps it takes is the model's choice (log 21). -/
def Obligations.KgenWritesKernel : Prop :=
  ∀ (s : State) (vw : Bool),
    s.Inv → s.busy = false → legalSigma s.sigma = true → 2 ≤ s.lead →
    exec (.kgen vw) s =
      .next
        { s with
          latch :=
            { op := 1, vw := vw, sigma := s.sigma, src := s.srcAddr, dst := s.dstAddr, w := s.width, h := s.height }
          kw := kernelOf s.sigma
          kvalid := true
          done := true }

/-- R86 items 1 and 2: the kernel of every sigma is symmetric bit for bit, and every weight is a binary32 value from +0 to
1.0. -/
def Obligations.KernelIsSymmetricInUnit : Prop :=
  ∀ sigma : Word, KernelInUnit (kernelOf sigma) ∧
    ∀ i j : Fin 7, i.val + j.val = 6 → (kernelOf sigma)[i] = (kernelOf sigma)[j]

/-- R83: the model's enclosure holds the exact real weight of every legal sigma above 1/16, with
`G(x) = exp(-x^2 / (2 s^2))` and `S = G(0) + 2 (G(1) + G(2) + G(3))`; `s` is sigma's binary32 value.
The enclosure is the model's way to the weight (log 5). -/
def Obligations.EnclosureHoldsExactWeight : Prop :=
  ∀ (sigma : Word) (d : Nat), legalSigma sigma = true → Weight.tiny (F32.magnitude sigma) = false → d ≤ 3 →
    let u := F32.magnitude sigma
    let s : ℝ := (u : ℝ) / 2 ^ 149
    let G : ℕ → ℝ := fun x => Real.exp (-((x : ℝ) ^ 2) / (2 * s ^ 2))
    let S : ℝ := G 0 + 2 * (G 1 + G 2 + G 3)
    (Weight.numerator (Weight.expLower u) d : ℝ) / (Weight.denominator (Weight.expUpper u) : ℝ) ≤ G d / S ∧
      G d / S ≤ (Weight.numerator (Weight.expUpper u) d : ℝ) / (Weight.denominator (Weight.expLower u) : ℝ)

/-- R83 with R14: for every legal sigma each weight is the binary32 value nearest to the exact real normalised weight
`G(|3 - i|) / S`, with `G(x) = exp(-x^2 / (2 s^2))` and `S = G(0) + 2 (G(1) + G(2) + G(3))`; were two as near, the one with
even fraction. Distances are in units of 2^-149. -/
def Obligations.WeightIsNearest : Prop :=
  ∀ (sigma : Word) (i : Fin 7), legalSigma sigma = true →
    let s : ℝ := (F32.magnitude sigma : ℝ) / 2 ^ 149
    let G : ℝ → ℝ := fun x => Real.exp (-(x ^ 2) / (2 * s ^ 2))
    let S : ℝ := G 0 + 2 * (G 1 + G 2 + G 3)
    let exact : ℝ := 2 ^ 149 * (G |3 - (i.val : ℝ)| / S)
    F32.expField (kernelOf sigma)[i] < 255 ∧
      ∀ v : Word, F32.expField v < 255 →
        |((F32.units (kernelOf sigma)[i] : ℤ) : ℝ) - exact| ≤ |((F32.units v : ℤ) : ℝ) - exact| ∧
          (|((F32.units (kernelOf sigma)[i] : ℤ) : ℝ) - exact| = |((F32.units v : ℤ) : ℝ) - exact| →
            F32.units v ≠ F32.units (kernelOf sigma)[i] → F32.fraction (kernelOf sigma)[i] % 2 = 0)

/-- R87: for every legal sigma up to 1/16 (0x3D800000) the kernel is exactly the identity. -/
def Obligations.SmallSigmaKernelIsIdentity : Prop :=
  ∀ sigma : Word, 1 ≤ sigma.toNat → sigma.toNat ≤ 0x3D800000 →
    kernelOf sigma = #v[0, 0, 0, 0x3F800000, 0, 0, 0]

/-! ## The passes -/

/-- R95 to R103, R105: the value a pass computes for output `(r, c)`, written out. The border test is `c < 3` or `c >= W - 3`
(`c > W - 3` under RB_LEGACY); a tap column outside the row is mirrored about the edge or, under CENTER, about the output's
own column; tap `k` is read at `(A + 4 srcidx) mod 2^ADDR_W`; each channel sums its seven products from +0 in tap order, is
rounded by NARROW_ROUND, clamped to [0, 255], and stored in its own place. -/
def Obligations.OutputValueIsTheConvolution : Prop :=
  ∀ (inst : Params) (kw : Vector Word 7) (m : Memory) (p : Pass) (r c l : Nat), l < 4 →
    let wid : Int := p.w
    let column : Nat → Int := fun k =>
      let j : Int := (c : Int) + k - 3
      let border := (c : Int) < 3 ∨ (if inst.rbLegacy = true then wid - 3 < c else wid - 3 ≤ c)
      let period := 2 * (wid - 1)
      if border ∧ (j < 0 ∨ wid - 1 < j) then
        match inst.mirrorAxis with
        | .edge => if j % period ≤ wid - 1 then j % period else period - j % period
        | .center => 2 * c - j
      else j
    let channel : Nat → Word := fun k =>
      f32 (Memory.get m ((p.src + 4 * (wid * r + column k).toNat) % 2 ^ inst.addrW + l)).toNat
    let product : Fin 7 → Word := fun k => fmul (channel k.val) kw[k]
    let sum :=
      fadd (fadd (fadd (fadd (fadd (fadd (fadd 0 (product 0)) (product 1)) (product 2)) (product 3)) (product 4))
        (product 5)) (product 6)
    let rounded := match inst.narrowRound with
      | .rne => rne sum
      | .trunc => truncToInt sum
    (((p.value inst kw m r c).extractLsb' (8 * l) 8).toNat : Int) = min (max rounded 0) 255

/-- R89, R105, R108, R110, R131: an HPASS on either datapath whose requests are all answered completes. Every destination
word `D + 4·(H·c + r)` holds the value of output `(r, c)` computed from the source as it was, every byte outside the
destination is unchanged, DONE is set, and no other register changes but the latched context. An output that reads its own
destination (the legacy read, R109) is any value. `Pass.value` is written out in `OutputValueIsTheConvolution`.
The number of micro-steps it takes is the model's choice (log 21). -/
def Obligations.HpassStoresTransposedConvolution : Prop :=
  ∀ (s : State) (i : Instr) (vw : Bool),
    (i = .hpassV128 ∧ vw = false ∨ i = .hpassV256 ∧ vw = true) →
    s.Inv → s.busy = false → s.kvalid = true → (vw = true → s.inst.hasV256 = true) →
    let p : Pass :=
      { src := s.srcAddr.toNat, dst := s.dstAddr.toNat, w := s.width.toNat, h := s.height.toNat, vw := vw }
    p.Valid s.inst → p.Answered s.inst s.bus → p.steps ≤ s.lead →
    ∃ t, exec i s = .next t ∧
      t =
        { s with
          done := true
          latch :=
            { op := 2, vw := vw, sigma := s.sigma, src := s.srcAddr, dst := s.dstAddr, w := s.width, h := s.height }
          lo := t.lo
          hi := t.hi
          mem := t.mem
          picks := t.picks
          free := t.free } ∧
      (∀ r < p.h, ∀ c < p.w, p.readsOwnOutput s.inst r c = false →
        Memory.read32 t.mem (p.dst + 4 * (p.h * c + r)) = p.value s.inst s.kw s.mem r c) ∧
      ∀ a, a < p.dst ∨ p.dst + 4 * (p.w * p.h) ≤ a → Memory.get t.mem a = Memory.get s.mem a

/-- R111 to R115, R131: a BLUR on either datapath whose requests are all answered completes. The kernel registers hold
SIGMA's kernel; the destination holds the transposed first pass over the source as it was; the source holds the second
pass over that intermediate, in the original orientation; every other byte and every other register but the latched
context is unchanged, and DONE is set.
The number of micro-steps it takes is the model's choice (log 21). -/
def Obligations.BlurRunsKernelAndTwoPasses : Prop :=
  ∀ (s : State) (i : Instr) (vw : Bool),
    (i = .blurV128 ∧ vw = false ∨ i = .blurV256 ∧ vw = true) →
    s.Inv → s.busy = false → legalSigma s.sigma = true → (vw = true → s.inst.hasV256 = true) →
    let p : Pass :=
      { src := s.srcAddr.toNat, dst := s.dstAddr.toNat, w := s.width.toNat, h := s.height.toNat, vw := vw }
    let q : Pass :=
      { src := s.dstAddr.toNat, dst := s.srcAddr.toNat, w := s.height.toNat, h := s.width.toNat, vw := vw }
    p.Valid s.inst → q.Valid s.inst → p.Answered s.inst s.bus → q.Answered s.inst s.bus →
    2 + p.steps + q.steps ≤ s.lead →
    ∃ t, exec i s = .next t ∧
      t =
        { s with
          done := true
          kvalid := true
          kw := kernelOf s.sigma
          latch :=
            { op := 3, vw := vw, sigma := s.sigma, src := s.srcAddr, dst := s.dstAddr, w := s.width, h := s.height }
          lo := t.lo
          hi := t.hi
          mem := t.mem
          picks := t.picks
          free := t.free } ∧
      (∀ r < p.h, ∀ c < p.w, p.readsOwnOutput s.inst r c = false →
        Memory.read32 t.mem (p.dst + 4 * (p.h * c + r)) = p.value s.inst (kernelOf s.sigma) s.mem r c) ∧
      (∀ r < p.h, ∀ c < p.w, q.readsOwnOutput s.inst c r = false →
        Memory.read32 t.mem (p.src + 4 * (p.w * r + c)) = q.value s.inst (kernelOf s.sigma) t.mem c r) ∧
      ∀ a, (a < p.dst ∨ p.dst + 4 * (p.w * p.h) ≤ a) → (a < p.src ∨ p.src + 4 * (p.w * p.h) ≤ a) →
        Memory.get t.mem a = Memory.get s.mem a

/-- R63, R108: the two datapaths of HPASS, each taking its outputs in any order, end with bit-identical memory and
registers. (Where the legacy read lies in the destination its output is any value, R158, and nothing is claimed.)
The number of micro-steps it takes is the model's choice (log 21). -/
def Obligations.HpassDatapathsAgree : Prop :=
  ∀ (s : State) (l : List Nat),
    let p : Pass :=
      { src := s.srcAddr.toNat, dst := s.dstAddr.toNat, w := s.width.toNat, h := s.height.toNat, vw := false }
    s.Inv → s.busy = false → s.kvalid = true → s.inst.hasV256 = true →
    p.Valid s.inst → p.Calm s.inst → p.Answered s.inst s.bus → p.steps ≤ s.lead →
    ∃ t u, exec .hpassV128 s = .next t ∧ exec .hpassV256 { s with picks := l } = .next u ∧
      t.mem = u.mem ∧ (∀ off, readRegister off t = readRegister off u) ∧ irq t = irq u

/-- R112: the two datapaths of BLUR, each taking its outputs in any order, end with bit-identical memory and registers.
The number of micro-steps it takes is the model's choice (log 21). -/
def Obligations.BlurDatapathsAgree : Prop :=
  ∀ (s : State) (l : List Nat),
    let p : Pass :=
      { src := s.srcAddr.toNat, dst := s.dstAddr.toNat, w := s.width.toNat, h := s.height.toNat, vw := false }
    let q : Pass :=
      { src := s.dstAddr.toNat, dst := s.srcAddr.toNat, w := s.height.toNat, h := s.width.toNat, vw := false }
    s.Inv → s.busy = false → legalSigma s.sigma = true → s.inst.hasV256 = true →
    p.Valid s.inst → q.Valid s.inst → p.Calm s.inst → q.Calm s.inst →
    p.Answered s.inst s.bus → q.Answered s.inst s.bus → 2 + p.steps + q.steps ≤ s.lead →
    ∃ t u, exec .blurV128 s = .next t ∧ exec .blurV256 { s with picks := l } = .next u ∧
      t.mem = u.mem ∧ (∀ off, readRegister off t = readRegister off u) ∧ irq t = irq u

/-- R110, R129: at any moment of an HPASS, whatever the platform answers and however far the engine has come, every
destination word holds its old value or the value of its output, every byte outside the destination is unchanged, and of
the registers only DONE, ERR, ERR_CODE, ERR_ADDR and PHASE can have changed; when the command has ended, exactly one of
DONE and ERR is what ended it, and by DONE only when every word is new. `Pass.value` is written out in
`OutputValueIsTheConvolution`. (While it runs, `before`, the model's own copy for racing loads, is memory at acceptance, log
15.) -/
def Obligations.HpassAtAnyMoment : Prop :=
  ∀ (s : State) (i : Instr) (vw : Bool),
    (i = .hpassV128 ∧ vw = false ∨ i = .hpassV256 ∧ vw = true) →
    s.Inv → s.busy = false → s.kvalid = true → (vw = true → s.inst.hasV256 = true) →
    let p : Pass :=
      { src := s.srcAddr.toNat, dst := s.dstAddr.toNat, w := s.width.toNat, h := s.height.toNat, vw := vw }
    p.Valid s.inst →
    ∃ t, exec i s = .next t ∧
      t =
        { s with
          done := t.done
          err := t.err
          errCode := t.errCode
          errAddr := t.errAddr
          phase := t.phase
          latch :=
            { op := 2, vw := vw, sigma := s.sigma, src := s.srcAddr, dst := s.dstAddr, w := s.width, h := s.height }
          todo := t.todo
          landed := t.landed
          lo := t.lo
          hi := t.hi
          stalled := t.stalled
          mem := t.mem
          picks := t.picks
          free := t.free
          before := t.before } ∧
      (t.phase ≠ .idle → t.before = s.mem) ∧
      (∀ r < p.h, ∀ c < p.w, p.readsOwnOutput s.inst r c = false →
        Memory.read32 t.mem (p.outAddr r c) = Memory.read32 s.mem (p.outAddr r c) ∨
          Memory.read32 t.mem (p.outAddr r c) = p.value s.inst s.kw s.mem r c) ∧
      (∀ a, ¬ p.InDest a → Memory.get t.mem a = Memory.get s.mem a) ∧
      ((t.phase = .pass1 ∧ t.done = s.done ∧ t.err = s.err ∧ t.errCode = s.errCode ∧ t.errAddr = s.errAddr) ∨
        (t.phase = .idle ∧ t.done = true ∧ t.err = s.err ∧ t.errCode = s.errCode ∧ t.errAddr = s.errAddr ∧
          ∀ r < p.h, ∀ c < p.w, p.readsOwnOutput s.inst r c = false →
            Memory.read32 t.mem (p.outAddr r c) = p.value s.inst s.kw s.mem r c) ∨
        (t.phase = .idle ∧ t.done = s.done ∧ t.err = true ∧
          (s.err = true → t.errCode = s.errCode ∧ t.errAddr = s.errAddr)))

/-- R111, R114, R115, R129, R130, R131: at any moment of a BLUR, whatever the platform answers and however far the engine has
come, memory is one of three things against its contents at acceptance. In the kernel phase it is unchanged. In PASS1, or
after an abort there, the source is unchanged and each destination word is old or the value of its output. In PASS2, or
after an abort or completion there, the destination holds the whole PASS1 result and each source word is old or the value
of its PASS2 output, and after completion all of them are. From PASS1 on the kernel is SIGMA's. No byte outside both
buffers and no other register changes. `Pass.value` is written out in `OutputValueIsTheConvolution`. (While it runs,
`before`, the model's own copy for racing loads, is memory at acceptance, log 15.) -/
def Obligations.BlurAtAnyMoment : Prop :=
  ∀ (s : State) (i : Instr) (vw : Bool),
    (i = .blurV128 ∧ vw = false ∨ i = .blurV256 ∧ vw = true) →
    s.Inv → s.busy = false → legalSigma s.sigma = true → (vw = true → s.inst.hasV256 = true) →
    let p : Pass :=
      { src := s.srcAddr.toNat, dst := s.dstAddr.toNat, w := s.width.toNat, h := s.height.toNat, vw := vw }
    let q : Pass :=
      { src := s.dstAddr.toNat, dst := s.srcAddr.toNat, w := s.height.toNat, h := s.width.toNat, vw := vw }
    p.Valid s.inst → q.Valid s.inst →
    ∃ t, exec i s = .next t ∧
      t =
        { s with
          done := t.done
          err := t.err
          kvalid := t.kvalid
          errCode := t.errCode
          errAddr := t.errAddr
          phase := t.phase
          kw := t.kw
          latch :=
            { op := 3, vw := vw, sigma := s.sigma, src := s.srcAddr, dst := s.dstAddr, w := s.width, h := s.height }
          todo := t.todo
          landed := t.landed
          lo := t.lo
          hi := t.hi
          stalled := t.stalled
          mem := t.mem
          picks := t.picks
          free := t.free
          before := t.before } ∧
      (t.phase ≠ .idle → t.before = s.mem) ∧
      let sameFlags := t.done = s.done ∧ t.err = s.err ∧ t.errCode = s.errCode ∧ t.errAddr = s.errAddr
      let aborted :=
        t.phase = .idle ∧ t.done = s.done ∧ t.err = true ∧
          (s.err = true → t.errCode = s.errCode ∧ t.errAddr = s.errAddr)
      let newKernel := t.kw = kernelOf s.sigma ∧ t.kvalid = true
      ((t.phase = .kgen ∧ sameFlags ∧ t.mem = s.mem ∧ (newKernel ∨ t.kw = s.kw ∧ t.kvalid = s.kvalid)) ∨
        ((t.phase = .pass1 ∧ sameFlags ∨ aborted) ∧ newKernel ∧
          (∀ a, ¬ p.InDest a → Memory.get t.mem a = Memory.get s.mem a) ∧
          ∀ r < p.h, ∀ c < p.w, p.readsOwnOutput s.inst r c = false →
            Memory.read32 t.mem (p.outAddr r c) = Memory.read32 s.mem (p.outAddr r c) ∨
              Memory.read32 t.mem (p.outAddr r c) = p.value s.inst (kernelOf s.sigma) s.mem r c) ∨
        ((t.phase = .pass2 ∧ sameFlags ∨ aborted ∨
            (t.phase = .idle ∧ t.done = true ∧ t.err = s.err ∧ t.errCode = s.errCode ∧ t.errAddr = s.errAddr ∧
              ∀ r < q.h, ∀ c < q.w, q.readsOwnOutput s.inst r c = false →
                Memory.read32 t.mem (q.outAddr r c) = q.value s.inst (kernelOf s.sigma) t.mem r c)) ∧
          newKernel ∧
          (∀ a, ¬ p.InDest a → ¬ q.InDest a → Memory.get t.mem a = Memory.get s.mem a) ∧
          (∀ r < p.h, ∀ c < p.w, p.readsOwnOutput s.inst r c = false →
            Memory.read32 t.mem (p.outAddr r c) = p.value s.inst (kernelOf s.sigma) s.mem r c) ∧
          ∀ r < q.h, ∀ c < q.w, q.readsOwnOutput s.inst r c = false →
            Memory.read32 t.mem (q.outAddr r c) = Memory.read32 s.mem (q.outAddr r c) ∨
              Memory.read32 t.mem (q.outAddr r c) = q.value s.inst (kernelOf s.sigma) t.mem r c))

/-- R129, R130: when the unit that comes next has a read or a write that the platform answers with a bus error, and none
that it never answers, the micro-step aborts. A micro-step that aborts ends the command with ERR and, if no error was
recorded before, the code, OP, VW and address of a request of the pass that the platform answers with a bus error. DONE,
the kernel and every other register keep their values, and in memory each word of the buffer the pass was writing is as
before or, without a race, the value of its output.
Which unit comes next is an open choice (log 3); that the races end with the command is the model's bookkeeping (log 15). -/
def Obligations.BusErrorAborts : Prop :=
  ∀ (s : State), s.Inv →
    let p := currentPass s
    let t := (tick s).1
    let outs := p.outputs (s.todo.getD s.nextUnit 0)
    (s.phase = .pass1 ∨ s.phase = .pass2 → s.stalled = false → s.todo ≠ [] →
      (∃ o ∈ outs, (∃ k < 7, spansCover s.bus.readError (p.tapAddr s.inst o.r o.c k) = true) ∨
        spansCover s.bus.writeError (p.outAddr o.r o.c) = true) →
      (∀ o ∈ outs, (∀ k < 7, spansCover s.bus.noAnswer (p.tapAddr s.inst o.r o.c k) = false) ∧
        spansCover s.bus.noAnswer (p.outAddr o.r o.c) = false) →
      (tick s).2 = .err) ∧
    ((tick s).2 = .err →
      t =
        { s with
          err := true
          errCode := t.errCode
          errAddr := t.errAddr
          phase := .idle
          todo := []
          lo := t.lo
          hi := t.hi
          mem := t.mem
          picks := t.picks
          free := t.free
          raced := []
          before := [] } ∧
      (s.err = true → t.errCode = s.errCode ∧ t.errAddr = s.errAddr) ∧
      (s.err = false →
        ∃ r < p.h, ∃ c < p.w,
          (t.errCode = BitVec.ofNat 32 (0x09 + 256 * s.latch.op.toNat + 4096 * s.latch.vw.toNat) ∧
              ∃ k < 7, t.errAddr = BitVec.ofNat 32 (p.tapAddr s.inst r c k) ∧
                spansCover s.bus.readError (p.tapAddr s.inst r c k) = true) ∨
            (t.errCode = BitVec.ofNat 32 (0x0A + 256 * s.latch.op.toNat + 4096 * s.latch.vw.toNat) ∧
              t.errAddr = BitVec.ofNat 32 (p.outAddr r c) ∧ spansCover s.bus.writeError (p.outAddr r c) = true)) ∧
      (∀ a, ¬ p.InDest a → Memory.get t.mem a = Memory.get s.mem a) ∧
      (s.raced = [] → ∀ r < p.h, ∀ c < p.w, p.readsOwnOutput s.inst r c = false →
        Memory.read32 t.mem (p.outAddr r c) = Memory.read32 s.mem (p.outAddr r c) ∨
          Memory.read32 t.mem (p.outAddr r c) = p.value s.inst s.kw s.mem r c))

/-- R40: the set of written outputs is empty when a pass begins, and at every moment of it, also when the command has
stalled, exact: the word of an output in the set holds the output's value, and that of an output outside it is as it was
when the pass began. (Without a race; an output that reads the pass's own destination is any value.)
`State.written` is the set; that it is held as units still to do and outputs landed is the model's way (log 3). -/
def Obligations.WrittenSetIsExact : Prop :=
  ∀ (s : State) (n : Nat), s.Inv → s.phase = .pass1 ∨ s.phase = .pass2 → s.stalled = false → s.raced = [] →
    s.todo = List.range (currentPass s).units →
    let p := currentPass s
    let t := advance n s
    s.written = [] ∧
      (t.phase = s.phase → ∀ r < p.h, ∀ c < p.w, p.readsOwnOutput s.inst r c = false →
        ((∃ o ∈ t.written, o.r = r ∧ o.c = c) →
            Memory.read32 t.mem (p.outAddr r c) = p.value s.inst s.kw s.mem r c) ∧
          ((¬ ∃ o ∈ t.written, o.r = r ∧ o.c = c) →
            Memory.read32 t.mem (p.outAddr r c) = Memory.read32 s.mem (p.outAddr r c)))

/-- R131: the micro-step that completes a command clears BUSY and PHASE and sets DONE in one step, and changes nothing else,
no byte of memory; it happens only when no output of the last phase is still to do. (That the races end with the command is
the model's bookkeeping, log 15.) -/
def Obligations.CompletionStep : Prop :=
  ∀ (s : State), (tick s).2 = .done →
    let t := (tick s).1
    t = { s with phase := .idle, todo := [], done := true, raced := [], before := [] } ∧ t.busy = false ∧
      s.todo = [] ∧ s.busy = true ∧ (s.latch.op = 3 → s.phase = .pass2)

/-- R65, R85, R93, R114: the phases of a command run in their fixed order, each begins only when every unit of the one
before is done and changes no memory by beginning, and the kernel changes in the kernel phase only. -/
def Obligations.PhasesRunInOrder : Prop :=
  ∀ (s : State),
    let t := (tick s).1
    (s.phase = .idle → t = s) ∧
    (s.phase = .kgen → t.mem = s.mem) ∧
    (s.phase = .kgen →
      t.phase = .kgen ∨
        s.todo = [] ∧ (t.phase = .pass1 ∧ s.latch.op = 3 ∨ t.phase = .idle ∧ s.latch.op ≠ 3)) ∧
    (s.phase = .pass1 →
      t.phase = .pass1 ∨ t.phase = .idle ∨
        t.phase = .pass2 ∧ s.todo = [] ∧ s.latch.op = 3 ∧ t.mem = s.mem ∧
          t.todo = List.range (secondPass s.latch).units) ∧
    (s.phase = .pass2 → t.phase = .pass2 ∨ t.phase = .idle) ∧
    (s.phase ≠ .kgen → t.kw = s.kw ∧ t.kvalid = s.kvalid)

/-- R160: every accepted command ends. From any state of the invariant in which no request of the running command is left
without an answer, `workLeft` micro-steps end it, by completion or abort.
The number of micro-steps it takes is the model's choice (log 21). -/
def Obligations.CommandEndsInBoundedSteps : Prop :=
  ∀ (s : State), s.Inv → s.stalled = false →
    (s.phase ≠ .pass2 → s.usesBuffers = true → (firstPass s.latch).Responsive s.inst s.bus) →
    (s.runsBlur = true → (secondPass s.latch).Responsive s.inst s.bus) →
    (advance s.workLeft s).busy = false

/-! ## The datapath -/

/-- R94, R98: with the corrected border test, every tap of an output lies in the output's own row. -/
def Obligations.TapsStayInRow : Prop :=
  ∀ (inst : Params) (w h r c k : Nat),
    inst.rbLegacy = false → wmin inst ≤ w → r < h → c < w → k < 7 →
    0 ≤ tapColumn inst w c k ∧ tapColumn inst w c k < w ∧
      w * r ≤ srcIndex inst w r c k ∧ srcIndex inst w r c k < w * (r + 1)

/-- R109, R158: only the legacy border test makes an output read outside its row: at column `W - 3` of a row of 6 or more,
tap 6 is the first pixel of the next row; every other tap stays in its row; for narrower rows the two tests agree. So a pass
can read its own destination in one output only, that of the last row. -/
def Obligations.LegacyReadIsTheOnlyOneOutside : Prop :=
  (∀ (inst : Params) (w r : Nat), inst.rbLegacy = true → 6 ≤ w →
    isBorder inst w (w - 3) = false ∧ srcIndex inst w r (w - 3) 6 = w * (r + 1)) ∧
  (∀ (inst : Params) (w c k : Nat), inst.rbLegacy = true → wmin inst ≤ w → c < w → k < 7 →
    ¬ (6 ≤ w ∧ c + 3 = w ∧ k = 6) → 0 ≤ tapColumn inst w c k ∧ tapColumn inst w c k < w) ∧
  (∀ (inst : Params) (w c k : Nat), w < 6 → c < w →
    tapColumn inst w c k = tapColumn { inst with rbLegacy := false } w c k) ∧
  ∀ (inst : Params) (p : Pass) (r c : Nat), p.Valid inst → r < p.h → c < p.w →
    p.readsOwnOutput inst r c = true → inst.rbLegacy = true ∧ 6 ≤ p.w ∧ r + 1 = p.h ∧ c + 3 = p.w

/-- R95: under the corrected test a column is a border column exactly when some tap column lies outside the row. -/
def Obligations.BorderTestFindsOutsideTaps : Prop :=
  ∀ (inst : Params) (w c : Nat), inst.rbLegacy = false → 3 ≤ w → c < w →
    (isBorder inst w c = true ↔ ∃ k < 7, (c : Int) + k - 3 < 0 ∨ (w : Int) ≤ (c : Int) + k - 3)

/-- R96: for a row of 4 or more, mirroring about the edge is a single reflection, and a tap in the row is left alone. -/
def Obligations.EdgeMirrorIsSingleReflection : Prop :=
  ∀ (w : Nat) (j : Int), 4 ≤ w → -3 ≤ j → j ≤ (w : Int) + 2 →
    mirrorEdge j w = if j < 0 then -j else if (w : Int) - 1 < j then 2 * ((w : Int) - 1) - j else j

/-- R97: reflection about the edge and about the output pixel agree at the first and the last column, under either border
test. -/
def Obligations.MirrorAxesAgreeAtTheEnds : Prop :=
  ∀ (inst : Params) (w k : Nat), 6 ≤ w → k < 7 →
    tapColumn { inst with mirrorAxis := .edge } w 0 k = tapColumn { inst with mirrorAxis := .center } w 0 k ∧
      tapColumn { inst with mirrorAxis := .edge } w (w - 1) k =
        tapColumn { inst with mirrorAxis := .center } w (w - 1) k

/-- R103, R106 item 1: channel `L` of an output depends on channel `L` of its taps only, by one function that is the same
for the four channels. -/
def Obligations.ChannelsAreIndependent : Prop :=
  ∀ (inst : Params) (kw a b : Vector Word 7) (l m : Nat), l < 4 → m < 4 →
    (∀ k : Fin 7, lane a[k] l = lane b[k] m) → lane (convolve inst kw a) l = lane (convolve inst kw b) m

/-- R106 item 4, for the kernel of R87 that is exactly the identity: an output is a copy of its centre tap, under both
roundings. -/
def Obligations.IdentityKernelCopies : Prop :=
  ∀ (inst : Params) (taps : Vector Word 7), convolve inst #v[0, 0, 0, 0x3F800000, 0, 0, 0] taps = taps[3]

/-- R101: with weights in [0, 1] every accumulator is finite and not negative. -/
def Obligations.AccumulatorsAreFinite : Prop :=
  ∀ (kw taps : Vector Word 7) (l : Nat), KernelInUnit kw →
    (accumulateLane kw taps l).toNat < 0x7F800000

/-- R14, R15: rounding gives a finite binary32 value nearest to the exact one, and of two at the same distance the one with
even fraction. `fadd` and `fmul` are this rounding of the exact sum and product. The bound is where a value would round to
infinity. Values are in units of 2^-149. -/
def Obligations.RoundingIsToNearestEven : Prop :=
  (∀ (n : Int) (d : Nat), 0 < d → 2 * n.natAbs < (2 ^ 25 - 1) * 2 ^ 253 * d →
    F32.expField (F32.rn32 n d) < 255 ∧
      ∀ v : Word, F32.expField v < 255 →
        |F32.units (F32.rn32 n d) * d - n| ≤ |F32.units v * d - n| ∧
          (|F32.units (F32.rn32 n d) * d - n| = |F32.units v * d - n| →
            F32.units v ≠ F32.units (F32.rn32 n d) → F32.fraction (F32.rn32 n d) % 2 = 0)) ∧
  (∀ a b : Word, fadd a b = F32.rn32 (F32.units a + F32.units b) 1) ∧
  (∀ a b : Word, fmul a b = F32.rn32 (F32.units a * F32.units b) (2 ^ 149)) ∧
  ∀ n ≤ 255, F32.units (f32 n) = (n : Int) * 2 ^ 149

/-- R16: `rne` is the nearest integer, ties to even; `trunc` is the integer part toward zero; `sat8` clamps to [0, 255].
For exponent 255, which no run produces, it speaks of the model's own formula (log 16). -/
def Obligations.NarrowingRoundsAndSaturates : Prop :=
  (∀ w : Word, 2 * |rne w * 2 ^ 149 - F32.units w| ≤ 2 ^ 149 ∧
    (2 * |rne w * 2 ^ 149 - F32.units w| = 2 ^ 149 → rne w % 2 = 0)) ∧
  (∀ w : Word, truncToInt w = (F32.units w).tdiv (2 ^ 149)) ∧
  ∀ n : Int, ((sat8 n).toNat : Int) = min (max n 0) 255

/-! ## Soft and hardware reset -/

/-- R46, R117, R147, R148: a soft reset with no unanswered request outstanding, whatever BUSY is and whatever bits 31..1 of
the word are, gives every register its reset value. Memory is unchanged, but for the buffer a running pass was writing, each
word of which is, without a race, as it was or holds the value of its output.
Which words have landed is an open choice (log 3). -/
def Obligations.SoftResetClearsEveryRegister : Prop :=
  ∀ (s : State) (ctrl : Word), s.stalled = false →
    ∃ t, exec (.srst ctrl) s = .next t ∧
      t =
        { s with
          done := false, err := false, ovr := false, kvalid := false, phase := .idle, errCode := 0, errAddr := 0,
          irqEn := 0, sigma := 0, srcAddr := 0, dstAddr := 0, width := 0, height := 0, kw := Vector.replicate 7 0,
          latch := t.latch, todo := [], landed := [], lo := t.lo, hi := t.hi, stalled := false, srstWait := false,
          raced := [], before := [], mem := t.mem, picks := t.picks, free := t.free } ∧
      (∀ off, readRegister off t =
        if off = 0x000 then 0x47424C37 else if off = 0x004 then capWord s.inst else 0) ∧
      (s.phase = .idle ∨ s.phase = .kgen → t.mem = s.mem) ∧
      (s.Inv → s.phase = .pass1 ∨ s.phase = .pass2 →
        let p := currentPass s
        (∀ a, ¬ p.InDest a → Memory.get t.mem a = Memory.get s.mem a) ∧
          (s.raced = [] → ∀ r < p.h, ∀ c < p.w, p.readsOwnOutput s.inst r c = false →
            Memory.read32 t.mem (p.outAddr r c) = Memory.read32 s.mem (p.outAddr r c) ∨
              Memory.read32 t.mem (p.outAddr r c) = p.value s.inst s.kw s.mem r c))

/-- R160: when the unit that comes next has a request that the platform never answers, and none that it answers with a bus
error, the micro-step leaves the command stuck with BUSY = 1 and sets no flag; with requests of both kinds it may abort
instead. With such a request outstanding, BUSY stays 1 whatever time passes, a soft reset never completes and changes
nothing but that it waits; a register read is still answered, STATUS with BUSY = 1; and `rst_n` recovers the block.
R160 says that BUSY stays 1 and the reset never completes. That no micro-step changes anything at all, memory included, and
that the soft reset changes nothing but its wait, is the model's reading (log 10): the writes in flight beside the request
are settled when it stalls. Which unit comes next is an open choice (log 3). -/
def Obligations.UnansweredRequestSticks : Prop :=
  ∀ (s : State), s.Inv →
    let p := currentPass s
    let outs := p.outputs (s.todo.getD s.nextUnit 0)
    (s.phase = .pass1 ∨ s.phase = .pass2 → s.stalled = false → s.todo ≠ [] →
      (∃ o ∈ outs, (∃ k < 7, spansCover s.bus.noAnswer (p.tapAddr s.inst o.r o.c k) = true) ∨
        spansCover s.bus.noAnswer (p.outAddr o.r o.c) = true) →
      let stuck := (tick s).2 = .none ∧ (tick s).1.stalled = true ∧ (tick s).1.busy = true
      (stuck ∨ (tick s).2 = .err) ∧
        ((∀ o ∈ outs, (∀ k < 7, spansCover s.bus.readError (p.tapAddr s.inst o.r o.c k) = true →
            spansCover s.bus.noAnswer (p.tapAddr s.inst o.r o.c k) = true) ∧
          (spansCover s.bus.writeError (p.outAddr o.r o.c) = true →
            spansCover s.bus.noAnswer (p.outAddr o.r o.c) = true)) → stuck)) ∧
    (s.stalled = true →
      (∀ n, advance n s = s) ∧ s.busy = true ∧
      (∀ ctrl, exec (.srst ctrl) s = .next { s with srstWait := true }) ∧
      (∀ (n : Nat) (rest : List Input), s.inputs = { op := .read 0x010, lead := n } :: rest →
        ∃ v, v.getLsbD 0 = true ∧ step s = .next { s with inputs := rest, lead := n, rdata := v }) ∧
      ∀ (n : Nat) (rest : List Input), s.inputs = { op := .rstN false, lead := n } :: rest →
        ∃ t, step s = .next t ∧ t.stalled = false ∧ t.srstWait = false ∧ t.busy = false)

/-- R146, R148: when `rst_n` falls every register takes its reset value, the sequencer is idle and `irq` is 0; memory keeps
what it holds, but for the buffer a running pass was writing, each word of which is, without a race, as it was or holds the
value of its output. While it is low every register holds its reset value, a register write leaves
nothing behind, a read answers some value and changes nothing else, and when it is high again every register still holds
its reset value.
That nothing of an access during reset is left is read from R146 by inference (log 18), and that an access which is not an
aligned 32-bit one is then no fault is the model's choice (log 23). The latched context and the engine are left open. -/
def Obligations.HardwareResetClearsEveryRegister : Prop :=
  ∀ (s : State) (n : Nat) (rest : List Input),
    let resetValue : Offset → Word := fun off =>
      if off = 0x000 then 0x47424C37 else if off = 0x004 then capWord s.inst else 0
    (s.inputs = { op := .rstN false, lead := n } :: rest →
      ∃ t, step s = .next t ∧
        t =
          { s with
            done := false, err := false, ovr := false, kvalid := false, phase := .idle, errCode := 0, errAddr := 0,
            irqEn := 0, sigma := 0, srcAddr := 0, dstAddr := 0, width := 0, height := 0, kw := Vector.replicate 7 0,
            latch := t.latch, todo := [], landed := [], lo := t.lo, hi := t.hi, stalled := false, srstWait := false,
            raced := [], before := [], rstLow := true, inputs := rest, lead := n, mem := t.mem, picks := t.picks,
            free := t.free } ∧
        (∀ off, readRegister off t = resetValue off) ∧ irq t = false ∧ t.busy = false ∧
        (s.phase = .idle ∨ s.phase = .kgen → t.mem = s.mem) ∧
        (s.Inv → s.phase = .pass1 ∨ s.phase = .pass2 →
          let p := currentPass s
          (∀ a, ¬ p.InDest a → Memory.get t.mem a = Memory.get s.mem a) ∧
            (s.raced = [] → ∀ r < p.h, ∀ c < p.w, p.readsOwnOutput s.inst r c = false →
              Memory.read32 t.mem (p.outAddr r c) = Memory.read32 s.mem (p.outAddr r c) ∨
                Memory.read32 t.mem (p.outAddr r c) = p.value s.inst s.kw s.mem r c))) ∧
    (s.Inv → s.rstLow = true →
      (∀ off, readRegister off s = resetValue off) ∧ irq s = false ∧ s.busy = false ∧
      (∀ (off : Offset) (v : Word), s.inputs = { op := .write off v, lead := n } :: rest →
        step s = .next { s with inputs := rest, lead := n }) ∧
      (∀ off : Offset, s.inputs = { op := .read off, lead := n } :: rest →
        ∃ v, step s = .next { s with inputs := rest, lead := n, rdata := v, free := s.free + 1 }) ∧
      (∀ off : Offset, s.inputs = { op := .otherSize off, lead := n } :: rest →
        step s = .next { s with inputs := rest, lead := n }) ∧
      (s.inputs = { op := .rstN true, lead := n } :: rest →
        step s = .next { s with inputs := rest, lead := n, rstLow := false }))

/-- R46, R149: the state after reset. Every register reads its reset value, the block is idle with no kernel, `irq` is 0,
and until the host sets it up a KGEN or BLUR is refused with BAD_SIGMA and an HPASS with NO_KERNEL.
The instance is the one with R8's default parameters (log 11). -/
def Obligations.StateAfterReset : Prop :=
  (∀ off, readRegister off State.reset =
    if off = 0x000 then 0x47424C37 else if off = 0x004 then 0x01207303 else 0) ∧
  irq State.reset = false ∧ State.reset.busy = false ∧ State.reset.kvalid = false ∧
  exec (.kgen false) State.reset = .next { State.reset with err := true, errCode := 0x0103 } ∧
  exec .blurV128 State.reset = .next { State.reset with err := true, errCode := 0x0303 } ∧
  exec .blurV256 State.reset = .next { State.reset with err := true, errCode := 0x1303 } ∧
  exec .hpassV128 State.reset = .next { State.reset with err := true, errCode := 0x0204 } ∧
  exec .hpassV256 State.reset = .next { State.reset with err := true, errCode := 0x1204 }

/-! ## Registers, flags, interrupt -/

/-- R36: every offset not listed in R21 reads 0, and a write there has no effect. -/
def Obligations.ReservedOffsetsReadZero : Prop :=
  ∀ (off : Offset) (v : Word) (s : State) (n : Nat) (rest : List Input),
    off.toNat ∉ [0x000, 0x004, 0x008, 0x00C, 0x010, 0x014, 0x018, 0x01C, 0x020, 0x024, 0x028, 0x02C, 0x030, 0x040,
      0x044, 0x048, 0x04C, 0x050, 0x054, 0x058] →
    off.toNat % 4 = 0 → s.rstLow = false →
    (s.inputs = { op := .read off, lead := n } :: rest →
      step s = .next (advance n { s with inputs := rest, lead := n, rdata := 0 })) ∧
    (s.inputs = { op := .write off v, lead := n } :: rest →
      step s = .next (advance n { s with inputs := rest, lead := n }))

/-- R29 to R35, R38, R121, of `writeRegister`, the write of every register but CMD and CTRL: a written register reads back its
writable bits, a read-only one its old value, and such a write changes what no other register reads, but for the write to
STATUS (R122). Writes to CMD and to CTRL with bit 0 = 1 (R117, R118) run an instruction and do not go through it; a write to
CTRL with bit 0 = 0 does nothing (`StepReadsAndWritesRegisters`). -/
def Obligations.RegistersReadBack : Prop :=
  ∀ (v : Word) (s : State), s.inst.wf = true →
    readRegister 0x01C (writeRegister 0x01C v s) = BitVec.ofNat 32 (v.toNat % 8) ∧
    readRegister 0x020 (writeRegister 0x020 v s) = v ∧
    readRegister 0x024 (writeRegister 0x024 v s) = BitVec.ofNat 32 (v.toNat % 2 ^ s.inst.addrW) ∧
    readRegister 0x028 (writeRegister 0x028 v s) = BitVec.ofNat 32 (v.toNat % 2 ^ s.inst.addrW) ∧
    readRegister 0x02C (writeRegister 0x02C v s) = BitVec.ofNat 32 (v.toNat % 65536) ∧
    readRegister 0x030 (writeRegister 0x030 v s) = BitVec.ofNat 32 (v.toNat % 65536) ∧
    (∀ off : Offset, off.toNat ∉ [0x010, 0x01C, 0x020, 0x024, 0x028, 0x02C, 0x030] → writeRegister off v s = s) ∧
    ∀ off off' : Offset, off ≠ off' → off ≠ 0x010 → readRegister off' (writeRegister off v s) = readRegister off' s

/-- R22 to R35, R120: what ID, CAP and STATUS read, field by field; CTRL and CMD always read 0; every other register reads what
it holds. -/
def Obligations.StatusAndCapFields : Prop :=
  ∀ (s : State), s.inst.wf = true →
    (readRegister 0x010 s).toNat =
      s.busy.toNat + 2 * s.done.toNat + 4 * s.err.toNat + 8 * s.ovr.toNat + 16 * s.kvalid.toNat +
        32 * (match s.phase with
          | .idle => 0
          | .kgen => 1
          | .pass1 => 2
          | .pass2 => 3) ∧
    (s.busy = false ↔ (readRegister 0x010 s).toNat / 32 = 0) ∧
    (readRegister 0x004 s).toNat =
      1 + 2 * s.inst.hasV256.toNat + 4 * s.inst.rbLegacy.toNat +
        8 * (match s.inst.mirrorAxis with
          | .edge => 0
          | .center => 1) +
        16 * (match s.inst.narrowRound with
          | .rne => 0
          | .trunc => 1) +
        3 * 2 ^ 8 + 7 * 2 ^ 12 + s.inst.addrW * 2 ^ 16 + 2 ^ 24 ∧
    readRegister 0x000 s = 0x47424C37 ∧ readRegister 0x008 s = 0 ∧ readRegister 0x00C s = 0 ∧
    readRegister 0x014 s = s.errCode ∧ readRegister 0x018 s = s.errAddr ∧
    (readRegister 0x01C s).toNat = s.irqEn.toNat ∧ readRegister 0x020 s = s.sigma ∧
    readRegister 0x024 s = s.srcAddr ∧ readRegister 0x028 s = s.dstAddr ∧
    (readRegister 0x02C s).toNat = s.width.toNat ∧ (readRegister 0x030 s).toNat = s.height.toNat ∧
    ∀ k : Fin 7, readRegister (BitVec.ofNat 12 (0x040 + 4 * k.val)) s = s.kw[k]

/-- R122: a STATUS write clears DONE, ERR (with ERR_CODE and ERR_ADDR) and OVR where its bits 1, 2 and 3 are 1, and nothing
else; a bit the sequencer sets in the same cycle stays set. -/
def Obligations.StatusWriteClearsFlags : Prop :=
  ∀ (v : Word) (s : State),
    writeRegister 0x010 v s =
      { s with
        done := s.done && !v.getLsbD 1
        err := s.err && !v.getLsbD 2
        errCode := if v.getLsbD 2 then 0 else s.errCode
        errAddr := if v.getLsbD 2 then 0 else s.errAddr
        ovr := s.ovr && !v.getLsbD 3 } ∧
    ((tick s).2 = .done → (statusSameCycle v s).done = true) ∧
    ((tick s).2 = .err → (statusSameCycle v s).err = true)

/-- R135 item 3: a STATUS write in the same cycle as an abort clears neither ERR nor the error registers, which the abort
writes by the value ERR had before the cycle; in the same cycle as a completion DONE ends 1; every other flag is cleared as
by a write after the micro-step. -/
def Obligations.SameCycleEventIsNotLost : Prop :=
  ∀ (v : Word) (s : State),
    ((tick s).2 = .none → statusSameCycle v s = acknowledge v (tick s).1) ∧
    ((tick s).2 = .done → statusSameCycle v s = { acknowledge v (tick s).1 with done := true }) ∧
    ((tick s).2 = .err →
      statusSameCycle v s =
        { acknowledge v (tick s).1 with
          err := true
          errCode := (tick s).1.errCode
          errAddr := (tick s).1.errAddr } ∧
      (s.err = true → (tick s).1.errCode = s.errCode ∧ (tick s).1.errAddr = s.errAddr))

/-- R134: `irq` is the OR of DONE, ERR and OVR as STATUS reads them, each gated by the bit of IRQ_EN as it reads, and 0 after
either reset. -/
def Obligations.IrqFollowsTheRegisters : Prop :=
  (∀ (s : State),
    irq s =
      (((readRegister 0x010 s).getLsbD 1 && (readRegister 0x01C s).getLsbD 0) ||
        ((readRegister 0x010 s).getLsbD 2 && (readRegister 0x01C s).getLsbD 1) ||
        ((readRegister 0x010 s).getLsbD 3 && (readRegister 0x01C s).getLsbD 2))) ∧
  ∀ (s : State), irq (resetNow s) = false

/-- R26, R85, R131: DONE, ERR, OVR and KVALID are sticky. In one step of the machine each can fall only by a reset (a soft
reset or `rst_n`) or, all but KVALID, by a STATUS write with its bit 1. -/
def Obligations.FlagsFallOnlyWhenCleared : Prop :=
  ∀ (s t : State), step s = .next t →
    let resets := ∃ n rest, (∃ w : Word, w.getLsbD 0 = true ∧
        s.inputs = { op := .write 0x008 w, lead := n } :: rest) ∨
      s.inputs = { op := .rstN false, lead := n } :: rest
    let clears := fun b : Nat => ∃ n rest, ∃ w : Word, w.getLsbD b = true ∧
      (s.inputs = { op := .write 0x010 w, lead := n } :: rest ∨ s.inputs = { op := .statusSame w, lead := n } :: rest)
    (s.done = true → t.done = true ∨ resets ∨ clears 1) ∧
    (s.err = true → t.err = true ∨ resets ∨ clears 2) ∧
    (s.ovr = true → t.ovr = true ∨ resets ∨ clears 3) ∧
    (s.kvalid = true → t.kvalid = true ∨ resets)

/-! ## The host's own memory accesses -/

/-- R67, R123, R152: a host load or store of a word whose four bytes race with nothing returns the word in memory, or
changes its four bytes only. While BUSY = 1 a load races on a byte of a buffer the running command writes (the destination;
BLUR writes both), a store on a byte of either buffer; so the source of a running HPASS may be read. -/
def Obligations.HostAccessesWithoutRace : Prop :=
  ∀ (s : State) (a n : Nat) (v : Word) (rest : List Input), a + 4 ≤ 2 ^ s.inst.addrW →
    let written := fun b : Nat => s.busy = true ∧
      (s.latch.op = 2 ∧ (firstPass s.latch).InDest b ∨
        s.latch.op = 3 ∧ ((firstPass s.latch).InDest b ∨ (secondPass s.latch).InDest b))
    let used := fun b : Nat => s.busy = true ∧ (s.latch.op = 2 ∨ s.latch.op = 3) ∧
      ((firstPass s.latch).InDest b ∨ (secondPass s.latch).InDest b)
    (s.inputs = { op := .load a, lead := n } :: rest → (∀ l < 4, ¬ written (a + l)) →
      step s = .next (advance n { s with inputs := rest, lead := n, rdata := Memory.read32 s.mem a })) ∧
    (s.inputs = { op := .store a v, lead := n } :: rest → (∀ l < 4, ¬ used (a + l)) →
      step s = .next (advance n { s with inputs := rest, lead := n, mem := Memory.write32 s.mem a v }))

/-- R67: a racing host load returns, for each pixel word, its bytes as they were before the command or as the engine has left
them so far; bytes that do not race are those in memory; and nothing changes but what the host has read and the choice used.
That the engine's value is the one in memory at that moment is the model's (log 15): `before` is memory at acceptance
(`AcceptanceLatchesOperands`) and stays so while the command runs (`RunningCommandKeepsItsContext`). -/
def Obligations.RacingLoadIsOldOrNew : Prop :=
  ∀ (s : State) (a n : Nat) (rest : List Input), a + 4 ≤ 2 ^ s.inst.addrW →
    s.inputs = { op := .load a, lead := n } :: rest →
    let written := fun b : Nat => s.busy = true ∧
      (s.latch.op = 2 ∧ (firstPass s.latch).InDest b ∨
        s.latch.op = 3 ∧ ((firstPass s.latch).InDest b ∨ (secondPass s.latch).InDest b))
    (∃ l < 4, written (a + l)) →
    ∃ v : Word,
      step s = .next (advance n { s with inputs := rest, lead := n, picks := s.picks.tail, rdata := v }) ∧
      (∀ l < 4, ¬ written (a + l) → v.extractLsb' (8 * l) 8 = Memory.get s.mem (a + l)) ∧
      ∀ word : Nat,
        (∀ l < 4, (a + l) / 4 = word → written (a + l) → v.extractLsb' (8 * l) 8 = Memory.get s.mem (a + l)) ∨
          ∀ l < 4, (a + l) / 4 = word → written (a + l) → v.extractLsb' (8 * l) 8 = Memory.get s.before (a + l)

/-- R39, R119: whatever a step's event is, a command that runs before it and still runs after it keeps its latched context;
and it keeps the copy of memory at acceptance that a racing load may return, which is the model's own (log 15). -/
def Obligations.RunningCommandKeepsItsContext : Prop :=
  ∀ (s t : State), step s = .next t → s.busy = true → t.busy = true → t.latch = s.latch ∧ t.before = s.before

/-- R67: a racing host store. Its bytes outside both buffers are stored. Each pixel word it races for is stored or left
(where it is the word of such an output as follows, any value), and is remembered. Every output already written (in PASS2,
every PASS1 output) that has such a word among its taps, or in PASS2 a PASS1 result that has one, holds a free value at
once, and every other byte is unchanged, that of an output not yet written among them. What is left of the race is the
model's bookkeeping (log 15). -/
def Obligations.RacingStoreOpensItsReaders : Prop :=
  ∀ (s : State) (a n : Nat) (v : Word) (rest : List Input), s.Inv → a + 4 ≤ 2 ^ s.inst.addrW →
    s.inputs = { op := .store a v, lead := n } :: rest →
    let p := firstPass s.latch
    let q := secondPass s.latch
    let races := fun b : Nat => s.busy = true ∧ (s.latch.op = 2 ∨ s.latch.op = 3) ∧ (p.InDest b ∨ q.InDest b)
    let raced := fun x : Nat => ∃ l < 4, races (a + l) ∧ (a + l) / 4 = x / 4
    let first := fun r c : Nat => r < p.h ∧ c < p.w ∧ (s.phase = .pass1 ∨ s.phase = .pass2) ∧
      ∃ k < 7, raced (p.tapAddr s.inst r c k)
    let second := fun r c : Nat => r < q.h ∧ c < q.w ∧ s.phase = .pass2 ∧
      ∃ k < 7, raced (q.tapAddr s.inst r c k) ∨
        ∃ r' c', first r' c' ∧ q.tapAddr s.inst r c k = p.outAddr r' c'
    let stored := fun r c : Nat => (r, c) ∈ s.landed ∨
      ∀ u ∈ s.todo, ∀ o ∈ (currentPass s).outputs u, ¬ (o.r = r ∧ o.c = c)
    let opened := fun b : Nat =>
      (∃ r c, first r c ∧ (s.phase = .pass2 ∨ stored r c) ∧ b / 4 = p.outAddr r c / 4) ∨
        ∃ r c, second r c ∧ stored r c ∧ b / 4 = q.outAddr r c / 4
    (∃ l < 4, races (a + l)) →
    ∃ m f races',
      step s =
        .next (advance n
          { s with inputs := rest, lead := n, picks := s.picks.tail, mem := m, free := f, raced := races' }) ∧
      (∀ l < 4, ¬ races (a + l) → Memory.get m (a + l) = v.extractLsb' (8 * l) 8) ∧
      (∀ word : Nat, (∀ l < 4, (a + l) / 4 = word → Memory.get m (a + l) = v.extractLsb' (8 * l) 8) ∨
        ∀ l < 4, (a + l) / 4 = word → races (a + l) →
          Memory.get m (a + l) = Memory.get s.mem (a + l) ∨ opened (a + l)) ∧
      (∀ b, b < a ∨ a + 4 ≤ b → Memory.get m b = Memory.get s.mem b ∨ opened b) ∧
      (∀ x, raced x → ∃ race ∈ races', race.word / 4 = x / 4) ∧
      (∀ r c, first r c → s.phase = .pass2 ∨ stored r c → a + 4 ≤ p.outAddr r c ∨ p.outAddr r c + 4 ≤ a →
        ∃ k, s.free ≤ k ∧ Memory.read32 m (p.outAddr r c) = Config.freeWord k) ∧
      ∀ r c, second r c → stored r c → a + 4 ≤ q.outAddr r c ∨ q.outAddr r c + 4 ≤ a →
        ∃ k, s.free ≤ k ∧ Memory.read32 m (q.outAddr r c) = Config.freeWord k

/-- R67: an output stored after a race, with a raced word among its taps or, in PASS2, a PASS1 result that has one, holds a
free value from the moment it is stored; only where a race has left its own word with the host's value does it keep that. -/
def Obligations.OutputsOfRacedWordsAreOpen : Prop :=
  ∀ (s : State) (u : Nat) (o : Output), s.Inv → s.phase = .pass1 ∨ s.phase = .pass2 → u ∈ s.todo →
    u ∉ (tick s).1.todo → (tick s).2 = .none → (tick s).1.stalled = false → o ∈ (currentPass s).outputs u →
    let p := firstPass s.latch
    let tap := (currentPass s).tapAddr s.inst o.r o.c
    let word := (currentPass s).outAddr o.r o.c
    (∃ k < 7, ∃ race ∈ s.raced, tap k = race.word) ∨
      (s.phase = .pass2 ∧ ∃ k < 7, ∃ r < p.h, ∃ c < p.w, tap k = p.outAddr r c ∧
        ∃ k' < 7, ∃ race ∈ s.raced, p.tapAddr s.inst r c k' = race.word) →
    (∃ k, s.free ≤ k ∧ Memory.read32 (tick s).1.mem word = Config.freeWord k) ∨
      ((∃ race ∈ s.raced, race.kept = true ∧ race.word < word + 4 ∧ word < race.word + 4) ∧
        Memory.read32 (tick s).1.mem word = Memory.read32 s.mem word)

/-! ## The invariant -/

/-- The invariant holds after reset (R46, R149).
The values of the latched context and of unlisted memory are the model's choice (logs 2, 6, 7). -/
def Obligations.InvariantHoldsAtReset : Prop := State.reset.Inv

/-- Every step keeps the invariant: memory stays in canonical form and inside the memory space, the reserved bits of the
error and address registers read 0, ERR_CODE and ERR_ADDR are 0 while ERR is 0, the kernel is in [0, 1] and absent without
KVALID, a running command is one that passed the checks of R127, outputs have landed beside the units done only where the
command has stalled (R40, R160), and while `rst_n` is low every register holds its reset value. (That the latched context and
the engine are 0 then is the model's choice, logs 6 and 7.) -/
def Obligations.InvariantKeptByStep : Prop :=
  ∀ (s t : State), s.Inv → step s = .next t → t.Inv
end

