-- ==== Sys2Proof/Laws/Memory.lean ====
section
/-! SUPPORT. Memory: a read after a write, and the canonical form, for one byte and for one word (R13, R55). -/
namespace Sys2Proof.Machine

/-- Memory's canonical form, read off its tail. -/
theorem Memory.wf_tail {c : Host.Cell} {m : Memory} (h : Memory.wf (c :: m)) : Memory.wf m :=
  ⟨(List.pairwise_cons.1 h.1).2, fun x hx => h.2 x (List.mem_cons_of_mem _ hx)⟩

/-- An address below every listed one reads as blank. -/
theorem Memory.get_of_lt {m : Memory} {a : Nat} (h : ∀ c ∈ m, a < c.1) : Memory.get m a = Memory.blank := by
  induction m with
  | nil => rfl
  | cons c m ih =>
    have hc := h c (by simp)
    rw [Memory.get, if_neg (by omega)]
    exact ih fun x hx => h x (List.mem_cons_of_mem _ hx)

/-- A write leaves every other byte alone. -/
theorem Memory.get_set_other (m : Memory) {a a' : Nat} (b : Byte) (h : a' ≠ a) :
    Memory.get (Memory.set m a b) a' = Memory.get m a' := by
  induction m with
  | nil => rw [Memory.set]; split <;> simp [Memory.get, h.symm]
  | cons c m ih =>
    obtain ⟨k, x⟩ := c
    rw [Memory.set]
    split
    · split
      · rfl
      · simp [Memory.get, h.symm]
    · split
      · subst_vars; split <;> simp [Memory.get, h.symm]
      · simp [Memory.get, ih]

/-- A byte reads as it was last written. -/
theorem Memory.get_set_same {m : Memory} (hm : Memory.wf m) (a : Nat) (b : Byte) :
    Memory.get (Memory.set m a b) a = b := by
  induction m with
  | nil => rw [Memory.set]; split <;> simp_all [Memory.get]
  | cons c m ih =>
    obtain ⟨k, x⟩ := c
    have hlt := (List.pairwise_cons.1 hm.1).1
    rw [Memory.set]
    split
    · split
      · subst b
        exact Memory.get_of_lt fun c hc => by
          rcases List.mem_cons.1 hc with rfl | hc
          · assumption
          · exact lt_trans ‹a < k› (hlt c hc)
      · simp [Memory.get]
    · split
      · subst k
        split
        · subst b; exact Memory.get_of_lt hlt
        · simp [Memory.get]
      · rw [Memory.get, if_neg (by omega)]
        exact ih (Memory.wf_tail hm)

/-- What a write can list: the written cell and the cells that were there. -/
theorem Memory.mem_set {m : Memory} {a : Nat} {b : Byte} {c : Host.Cell} (h : c ∈ Memory.set m a b) :
    c ∈ m ∨ (c = (a, b) ∧ b ≠ Memory.blank) := by
  induction m with
  | nil => rw [Memory.set] at h; split at h <;> simp_all
  | cons d m ih =>
    obtain ⟨k, x⟩ := d
    rw [Memory.set] at h
    split at h
    · split at h <;> simp_all; tauto
    · split at h
      · split at h <;> simp_all; tauto
      · rcases List.mem_cons.1 h with rfl | h
        · simp
        · rcases ih h with h | h
          · exact .inl (List.mem_cons_of_mem _ h)
          · exact .inr h

/-- A write keeps the canonical form. -/
theorem Memory.wf_set {m : Memory} (hm : Memory.wf m) (a : Nat) (b : Byte) : Memory.wf (Memory.set m a b) := by
  refine ⟨?_, fun c hc => ?_⟩
  · induction m with
    | nil => rw [Memory.set]; split <;> simp
    | cons d m ih =>
      obtain ⟨k, x⟩ := d
      obtain ⟨hlt, hp⟩ := List.pairwise_cons.1 hm.1
      rw [Memory.set]
      split
      · split
        · exact hm.1
        · refine List.pairwise_cons.2 ⟨fun c hc => ?_, hm.1⟩
          rcases List.mem_cons.1 hc with rfl | hc
          · assumption
          · exact lt_trans ‹a < k› (hlt c hc)
      · split
        · subst k
          split
          · exact hp
          · exact List.pairwise_cons.2 ⟨hlt, hp⟩
        · refine List.pairwise_cons.2 ⟨fun c hc => ?_, ih (Memory.wf_tail hm)⟩
          rcases Memory.mem_set hc with hc | ⟨rfl, -⟩
          · exact hlt c hc
          · simp only; omega
  · rcases Memory.mem_set hc with hc | ⟨rfl, hb⟩
    · exact hm.2 c hc
    · exact hb

/-- Memories in canonical form that read alike are the same data. -/
theorem Memory.ext {m n : Memory} (hm : Memory.wf m) (hn : Memory.wf n)
    (h : ∀ a, Memory.get m a = Memory.get n a) : m = n := by
  induction m generalizing n with
  | nil =>
    cases n with
    | nil => rfl
    | cons d n =>
      have := h d.1
      simp only [Memory.get, if_true] at this
      exact absurd this.symm (hn.2 d (by simp))
  | cons c m ih =>
    cases n with
    | nil =>
      have := h c.1
      simp only [Memory.get, if_true] at this
      exact absurd this (hm.2 c (by simp))
    | cons d n =>
      obtain ⟨hcm, -⟩ := List.pairwise_cons.1 hm.1
      obtain ⟨hdn, -⟩ := List.pairwise_cons.1 hn.1
      have hkey : c.1 = d.1 := by
        rcases lt_trichotomy c.1 d.1 with hlt | heq | hgt
        · have h1 := h c.1
          rw [Memory.get_of_lt (m := d :: n) (a := c.1) (by
            intro x hx
            rcases List.mem_cons.1 hx with rfl | hx
            · exact hlt
            · exact lt_trans hlt (hdn x hx))] at h1
          simp only [Memory.get, if_true] at h1
          exact absurd h1 (hm.2 c (by simp))
        · exact heq
        · have h1 := h d.1
          rw [Memory.get_of_lt (m := c :: m) (a := d.1) (by
            intro x hx
            rcases List.mem_cons.1 hx with rfl | hx
            · exact hgt
            · exact lt_trans hgt (hcm x hx))] at h1
          simp only [Memory.get, if_true] at h1
          exact absurd h1.symm (hn.2 d (by simp))
      have hval : c.2 = d.2 := by
        have h1 := h c.1
        simpa [Memory.get, hkey] using h1
      have hcd : c = d := Prod.ext hkey hval
      subst hcd
      congr 1
      refine ih (Memory.wf_tail hm) (Memory.wf_tail hn) fun a => ?_
      by_cases ha : c.1 = a
      · subst ha
        rw [Memory.get_of_lt hcm, Memory.get_of_lt hdn]
      · have h1 := h a
        simpa [Memory.get, ha] using h1

/-- Storing a word keeps the canonical form. -/
theorem Memory.wf_write32 {m : Memory} (hm : Memory.wf m) (a : Nat) (v : Word) : Memory.wf (Memory.write32 m a v) :=
  Memory.wf_set (Memory.wf_set (Memory.wf_set (Memory.wf_set hm _ _) _ _) _ _) _ _

/-- Storing a word leaves every byte outside it alone. -/
theorem Memory.get_write32_other (m : Memory) {a a' : Nat} (v : Word) (h : a' < a ∨ a + 4 ≤ a') :
    Memory.get (Memory.write32 m a v) a' = Memory.get m a' := by
  unfold Memory.write32
  rw [Memory.get_set_other _ _ (by omega), Memory.get_set_other _ _ (by omega), Memory.get_set_other _ _ (by omega),
    Memory.get_set_other _ _ (by omega)]

/-- The bytes of a stored word (R55). -/
theorem Memory.get_write32_same {m : Memory} (hm : Memory.wf m) (a : Nat) (v : Word) (l : Nat) (hl : l < 4) :
    Memory.get (Memory.write32 m a v) (a + l) = v.extractLsb' (8 * l) 8 := by
  have h0 := Memory.wf_set hm a (v.extractLsb' 0 8)
  have h1 := Memory.wf_set h0 (a + 1) (v.extractLsb' 8 8)
  have h2 := Memory.wf_set h1 (a + 2) (v.extractLsb' 16 8)
  unfold Memory.write32
  interval_cases l
  · rw [Memory.get_set_other _ _ (by omega), Memory.get_set_other _ _ (by omega), Memory.get_set_other _ _ (by omega)]
    exact Memory.get_set_same hm _ _
  · rw [Memory.get_set_other _ _ (by omega), Memory.get_set_other _ _ (by omega)]
    exact Memory.get_set_same h0 _ _
  · rw [Memory.get_set_other _ _ (by omega)]
    exact Memory.get_set_same h1 _ _
  · exact Memory.get_set_same h2 _ _

/-- A word reads as it was last stored (R13, R55). -/
theorem Memory.read32_write32_same {m : Memory} (hm : Memory.wf m) (a : Nat) (v : Word) :
    Memory.read32 (Memory.write32 m a v) a = v := by
  have h0 := Memory.get_write32_same hm a v 0 (by omega)
  have h1 := Memory.get_write32_same hm a v 1 (by omega)
  have h2 := Memory.get_write32_same hm a v 2 (by omega)
  have h3 := Memory.get_write32_same hm a v 3 (by omega)
  rw [Nat.add_zero] at h0
  rw [Memory.read32, h0, h1, h2, h3]
  ext i hi
  simp only [BitVec.getElem_append, BitVec.getElem_extractLsb']
  rw [← BitVec.getLsbD_eq_getElem]
  split
  · congr 1; omega
  · split
    · congr 1; omega
    · split <;> (congr 1; omega)

/-- A word that reads alike byte by byte reads alike. -/
theorem Memory.read32_congr {m n : Memory} {a : Nat} (h : ∀ l < 4, Memory.get m (a + l) = Memory.get n (a + l)) :
    Memory.read32 m a = Memory.read32 n a := by
  have h0 := h 0 (by omega)
  rw [Nat.add_zero] at h0
  simp only [Memory.read32, h0, h 1 (by omega), h 2 (by omega), h 3 (by omega)]

/-- Storing a word leaves every word apart from it alone. -/
theorem Memory.read32_write32_other (m : Memory) {a a' : Nat} (v : Word) (h : a' + 4 ≤ a ∨ a + 4 ≤ a') :
    Memory.read32 (Memory.write32 m a v) a' = Memory.read32 m a' :=
  Memory.read32_congr fun l hl => Memory.get_write32_other m v (by omega)

/-- Storing a word inside a space of `n` bytes lists no address outside it. -/
theorem Memory.write32_in_space {m : Memory} {n a : Nat} (v : Word) (hm : ∀ c ∈ m, c.1 < n) (ha : a + 4 ≤ n) :
    ∀ c ∈ Memory.write32 m a v, c.1 < n := by
  intro c hc
  unfold Memory.write32 at hc
  rcases Memory.mem_set hc with hc | ⟨rfl, -⟩
  · rcases Memory.mem_set hc with hc | ⟨rfl, -⟩
    · rcases Memory.mem_set hc with hc | ⟨rfl, -⟩
      · rcases Memory.mem_set hc with hc | ⟨rfl, -⟩
        · exact hm c hc
        · simp only; omega
      · simp only; omega
    · simp only; omega
  · simp only; omega

end Sys2Proof.Machine
end

