-- ==== Sys2Proof/Laws/Pass.lean ====
section
/-! SUPPORT. The geometry of a pass: where its outputs go, which work unit computes which output, and where its taps lie
(R91, R94, R104). -/
namespace Sys2Proof.Machine

/-- An output's word lies in the destination buffer (R104). -/
theorem Pass.outAddr_bounds (p : Pass) {r c : Nat} (hr : r < p.h) (hc : c < p.w) :
    p.dst ≤ p.outAddr r c ∧ p.outAddr r c + 4 ≤ p.dst + p.bytes := by
  unfold Pass.outAddr Pass.bytes
  have h1 : p.h * c + p.h ≤ p.h * p.w := by nlinarith
  have h2 : p.w * p.h = p.h * p.w := Nat.mul_comm _ _
  omega

/-- Distinct outputs go to distinct words (R104). -/
theorem Pass.outAddr_apart (p : Pass) {r c r' c' : Nat} (hr : r < p.h) (hr' : r' < p.h) (h : ¬ (r = r' ∧ c = c')) :
    p.outAddr r c + 4 ≤ p.outAddr r' c' ∨ p.outAddr r' c' + 4 ≤ p.outAddr r c := by
  unfold Pass.outAddr
  rcases lt_trichotomy c c' with hlt | heq | hgt
  · have : p.h * c + p.h ≤ p.h * c' := by nlinarith
    omega
  · subst heq
    have : r ≠ r' := fun h' => h ⟨h', rfl⟩
    omega
  · have : p.h * c' + p.h ≤ p.h * c := by nlinarith
    omega

/-- Every word of the destination belongs to an output (R104: the indices cover `[0, W·H)`). -/
theorem Pass.dest_covered (p : Pass) {a : Nat} (ha : p.InDest a) :
    ∃ r < p.h, ∃ c < p.w, ∃ l < 4, a = p.outAddr r c + l := by
  obtain ⟨h1, h2⟩ := ha
  unfold Pass.bytes at h2
  obtain ⟨n, rfl⟩ := Nat.exists_eq_add_of_le h1
  have hn : n < 4 * (p.w * p.h) := by omega
  have hpos : 0 < p.h := by
    rcases Nat.eq_zero_or_pos p.h with h | h
    · simp [h] at hn
    · exact h
  refine ⟨n / 4 % p.h, Nat.mod_lt _ hpos, n / 4 / p.h, ?_, n % 4, Nat.mod_lt _ (by omega), ?_⟩
  · rw [Nat.div_lt_iff_lt_mul hpos]; omega
  · unfold Pass.outAddr
    have := Nat.div_add_mod (n / 4) p.h
    omega

/-- A unit's outputs are outputs of the pass (R91). -/
theorem Pass.outputs_in_range (p : Pass) {u : Nat} (hu : u < p.units) {o : Output} (ho : o ∈ p.outputs u) :
    o.r < p.h ∧ o.c < p.w := by
  unfold Pass.units at hu
  unfold Pass.outputs at ho
  split at ho
  · rename_i hv
    rw [if_pos hv] at hu
    have hpos : 0 < p.pairs := Nat.pos_of_mul_pos_left (lt_of_le_of_lt (Nat.zero_le _) hu)
    have hr : u / p.pairs < p.h := (Nat.div_lt_iff_lt_mul hpos).2 hu
    have hm : u % p.pairs < p.pairs := Nat.mod_lt _ hpos
    unfold Pass.pairs at hm hr ho
    dsimp only at ho
    split at ho
    · simp only [List.mem_cons, List.not_mem_nil, or_false] at ho
      rcases ho with rfl | rfl
      · exact ⟨hr, by simp only; omega⟩
      · exact ⟨hr, by assumption⟩
    · simp only [List.mem_cons, List.not_mem_nil, or_false] at ho
      subst ho
      exact ⟨hr, by simp only; omega⟩
  · rename_i hv
    rw [if_neg hv] at hu
    have hpos : 0 < p.w := Nat.pos_of_mul_pos_left (lt_of_le_of_lt (Nat.zero_le _) hu)
    simp only [List.mem_cons, List.not_mem_nil, or_false] at ho
    subst ho
    exact ⟨(Nat.div_lt_iff_lt_mul hpos).2 hu, Nat.mod_lt _ hpos⟩

/-- The outputs of one unit use different halves of the engine (R108). -/
theorem Pass.outputs_halves (p : Pass) (u : Nat) : (p.outputs u).Pairwise fun a b => a.upper ≠ b.upper := by
  unfold Pass.outputs
  split
  · dsimp only
    split <;> simp
  · simp

/-- The outputs of a unit go to words apart. -/
theorem Pass.outputs_apart (p : Pass) {u : Nat} (hu : u < p.units) :
    (p.outputs u).Pairwise fun a b =>
      p.outAddr a.r a.c + 4 ≤ p.outAddr b.r b.c ∨ p.outAddr b.r b.c + 4 ≤ p.outAddr a.r a.c := by
  have hr : ∀ o ∈ p.outputs u, o.r < p.h := fun o ho => (p.outputs_in_range hu ho).1
  unfold Pass.outputs at hr ⊢
  split
  · rename_i hv
    simp only [hv, if_true] at hr
    dsimp only at hr ⊢
    split
    · rename_i hc
      simp only [hc, if_true] at hr
      refine List.pairwise_cons.2 ⟨fun b hb => ?_, List.pairwise_singleton _ _⟩
      simp only [List.mem_cons, List.not_mem_nil, or_false] at hb
      subst hb
      exact p.outAddr_apart (hr ⟨false, u / p.pairs, 2 * (u % p.pairs)⟩ (by simp))
        (hr ⟨false, u / p.pairs, 2 * (u % p.pairs)⟩ (by simp)) (by simp)
    · exact List.pairwise_singleton _ _
  · exact List.pairwise_singleton _ _

/-- A unit determines its outputs' row and pair of columns, so an output belongs to one unit only (R91: "exactly once"). -/
theorem Pass.unit_unique (p : Pass) {u u' : Nat} {o o' : Output}
    (ho : o ∈ p.outputs u) (ho' : o' ∈ p.outputs u') (hr : o.r = o'.r) (hc : o.c = o'.c) : u = u' := by
  unfold Pass.outputs at ho ho'
  split at ho
  · rename_i hv
    rw [if_pos hv] at ho'
    have key : ∀ {v : Nat} {q : Output}, q ∈ (if 2 * (v % p.pairs) + 1 < p.w then
        [{ upper := false, r := v / p.pairs, c := 2 * (v % p.pairs) : Output },
          { upper := true, r := v / p.pairs, c := 2 * (v % p.pairs) + 1 }]
        else [{ upper := false, r := v / p.pairs, c := 2 * (v % p.pairs) }]) →
        q.r = v / p.pairs ∧ q.c / 2 = v % p.pairs := by
      intro v q hq
      split at hq
      · simp only [List.mem_cons, List.not_mem_nil, or_false] at hq
        rcases hq with rfl | rfl <;> exact ⟨rfl, by simp only; omega⟩
      · simp only [List.mem_cons, List.not_mem_nil, or_false] at hq
        subst hq; exact ⟨rfl, by simp only; omega⟩
    obtain ⟨h1, h2⟩ := key ho
    obtain ⟨h3, h4⟩ := key ho'
    have e1 : u / p.pairs = u' / p.pairs := by rw [← h1, ← h3, hr]
    have e2 : u % p.pairs = u' % p.pairs := by rw [← h2, ← h4, hc]
    rw [← Nat.div_add_mod u p.pairs, ← Nat.div_add_mod u' p.pairs, e1, e2]
  · rename_i hv
    rw [if_neg hv] at ho'
    simp only [List.mem_cons, List.not_mem_nil, or_false] at ho ho'
    subst ho ho'
    simp only at hr hc
    rw [← Nat.div_add_mod u p.w, ← Nat.div_add_mod u' p.w, hr, hc]

/-- Every output of the pass belongs to a unit (R91). -/
theorem Pass.unit_of (p : Pass) {r c : Nat} (hr : r < p.h) (hc : c < p.w) :
    ∃ u < p.units, ∃ o ∈ p.outputs u, o.r = r ∧ o.c = c := by
  unfold Pass.units Pass.outputs
  by_cases hv : p.vw
  · simp only [hv, if_true]
    have hpos : c / 2 < p.pairs := by unfold Pass.pairs; omega
    have hd : (p.pairs * r + c / 2) / p.pairs = r := by
      rw [Nat.mul_add_div (by omega), Nat.div_eq_of_lt hpos]; omega
    have hm : (p.pairs * r + c / 2) % p.pairs = c / 2 := by
      rw [Nat.mul_add_mod, Nat.mod_eq_of_lt hpos]
    refine ⟨p.pairs * r + c / 2, by nlinarith, ?_⟩
    rw [hd, hm]
    split
    · rcases Nat.mod_two_eq_zero_or_one c with h | h
      · exact ⟨⟨false, r, 2 * (c / 2)⟩, by simp, rfl, by simp only; omega⟩
      · exact ⟨⟨true, r, 2 * (c / 2) + 1⟩, by simp, rfl, by simp only; omega⟩
    · exact ⟨⟨false, r, 2 * (c / 2)⟩, by simp, rfl, by simp only; omega⟩
  · simp only [hv, Bool.false_eq_true, if_false]
    refine ⟨p.w * r + c, by nlinarith, ⟨false, r, c⟩, ?_, rfl, rfl⟩
    rw [Nat.mul_add_div (by omega), Nat.div_eq_of_lt hc, Nat.mul_add_mod, Nat.mod_eq_of_lt hc]
    simp

/-- A tap of an output that does not read its own pass's destination shares no byte with it (R109). -/
theorem Pass.tap_apart {inst : Params} {p : Pass} {r c k : Nat} (h : p.readsOwnOutput inst r c = false) (hk : k < 7) :
    p.tapAddr inst r c k + 4 ≤ p.dst ∨ p.dst + p.bytes ≤ p.tapAddr inst r c k := by
  unfold Pass.readsOwnOutput at h
  have := List.any_eq_false.1 h k (List.mem_range.2 hk)
  simp only [decide_eq_true_eq, not_and, not_lt] at this
  by_cases h' : p.dst < p.tapAddr inst r c k + 4
  · exact .inr (this h')
  · exact .inl (by omega)

/-- The value of an output depends on the bytes outside the destination only. -/
theorem Pass.value_congr {inst : Params} {kw : Vector Word 7} {p : Pass} {r c : Nat} {m n : Memory}
    (h : p.readsOwnOutput inst r c = false) (hmn : ∀ a, ¬ p.InDest a → Memory.get m a = Memory.get n a) :
    p.value inst kw m r c = p.value inst kw n r c := by
  have tap : ∀ k < 7, Memory.read32 m (p.tapAddr inst r c k) = Memory.read32 n (p.tapAddr inst r c k) := by
    intro k hk
    refine Memory.read32_congr fun l hl => hmn _ ?_
    have := Pass.tap_apart h hk
    unfold Pass.InDest
    omega
  have gather : gatherTaps inst m p r c = gatherTaps inst n p r c := by
    simp only [gatherTaps, tap 0 (by decide), tap 1 (by decide), tap 2 (by decide), tap 3 (by decide),
      tap 4 (by decide), tap 5 (by decide), tap 6 (by decide)]
  rw [Pass.value, Pass.value, gather]

/-- The outputs of a pass are those of its units. -/
theorem Pass.mem_allOutputs {p : Pass} {o : Output} : o ∈ p.allOutputs ↔ ∃ u < p.units, o ∈ p.outputs u := by
  simp only [Pass.allOutputs, List.mem_flatMap, List.mem_range]

/-- An output of a unit is in R40's set when the unit is done or it has landed alone. -/
theorem State.mem_written {s : State} {o : Output} :
    o ∈ s.written ↔
      ∃ u < (currentPass s).units, o ∈ (currentPass s).outputs u ∧ (u ∉ s.todo ∨ (o.r, o.c) ∈ s.landed) := by
  simp only [State.written, List.mem_flatMap, List.mem_range, List.mem_filter, Bool.or_eq_true, Bool.not_eq_true',
    List.contains_eq_mem, decide_eq_false_iff_not, decide_eq_true_eq]

end Sys2Proof.Machine
end

