-- ==== Sys2Proof/Laws/State.lean ====
section
/-! SUPPORT. What each named update of the state does to each field, so that no proof unfolds a record update. -/
namespace Sys2Proof.Machine

/-! `State.dropPick`: the open choice is used up (log 3). -/

@[simp] theorem dropPick_inst (s : State) : s.dropPick.inst = s.inst := rfl
@[simp] theorem dropPick_done (s : State) : s.dropPick.done = s.done := rfl
@[simp] theorem dropPick_err (s : State) : s.dropPick.err = s.err := rfl
@[simp] theorem dropPick_ovr (s : State) : s.dropPick.ovr = s.ovr := rfl
@[simp] theorem dropPick_kvalid (s : State) : s.dropPick.kvalid = s.kvalid := rfl
@[simp] theorem dropPick_phase (s : State) : s.dropPick.phase = s.phase := rfl
@[simp] theorem dropPick_errCode (s : State) : s.dropPick.errCode = s.errCode := rfl
@[simp] theorem dropPick_errAddr (s : State) : s.dropPick.errAddr = s.errAddr := rfl
@[simp] theorem dropPick_irqEn (s : State) : s.dropPick.irqEn = s.irqEn := rfl
@[simp] theorem dropPick_sigma (s : State) : s.dropPick.sigma = s.sigma := rfl
@[simp] theorem dropPick_srcAddr (s : State) : s.dropPick.srcAddr = s.srcAddr := rfl
@[simp] theorem dropPick_dstAddr (s : State) : s.dropPick.dstAddr = s.dstAddr := rfl
@[simp] theorem dropPick_width (s : State) : s.dropPick.width = s.width := rfl
@[simp] theorem dropPick_height (s : State) : s.dropPick.height = s.height := rfl
@[simp] theorem dropPick_kw (s : State) : s.dropPick.kw = s.kw := rfl
@[simp] theorem dropPick_latch (s : State) : s.dropPick.latch = s.latch := rfl
@[simp] theorem dropPick_todo (s : State) : s.dropPick.todo = s.todo := rfl
@[simp] theorem dropPick_lo (s : State) : s.dropPick.lo = s.lo := rfl
@[simp] theorem dropPick_hi (s : State) : s.dropPick.hi = s.hi := rfl
@[simp] theorem dropPick_stalled (s : State) : s.dropPick.stalled = s.stalled := rfl
@[simp] theorem dropPick_srstWait (s : State) : s.dropPick.srstWait = s.srstWait := rfl
@[simp] theorem dropPick_rstLow (s : State) : s.dropPick.rstLow = s.rstLow := rfl
@[simp] theorem dropPick_mem (s : State) : s.dropPick.mem = s.mem := rfl
@[simp] theorem dropPick_landed (s : State) : s.dropPick.landed = s.landed := rfl
@[simp] theorem dropPick_bus (s : State) : s.dropPick.bus = s.bus := rfl
@[simp] theorem dropPick_rdata (s : State) : s.dropPick.rdata = s.rdata := rfl
@[simp] theorem dropPick_inputs (s : State) : s.dropPick.inputs = s.inputs := rfl
@[simp] theorem dropPick_lead (s : State) : s.dropPick.lead = s.lead := rfl
@[simp] theorem dropPick_picks (s : State) : s.dropPick.picks = s.picks.tail := rfl
@[simp] theorem dropPick_free (s : State) : s.dropPick.free = s.free := rfl
@[simp] theorem dropPick_raced (s : State) : s.dropPick.raced = s.raced := rfl
@[simp] theorem dropPick_before (s : State) : s.dropPick.before = s.before := rfl

/-! `State.dropFree`: the free value is used up (log 4). -/

@[simp] theorem dropFree_inst (s : State) : s.dropFree.inst = s.inst := rfl
@[simp] theorem dropFree_done (s : State) : s.dropFree.done = s.done := rfl
@[simp] theorem dropFree_err (s : State) : s.dropFree.err = s.err := rfl
@[simp] theorem dropFree_ovr (s : State) : s.dropFree.ovr = s.ovr := rfl
@[simp] theorem dropFree_kvalid (s : State) : s.dropFree.kvalid = s.kvalid := rfl
@[simp] theorem dropFree_phase (s : State) : s.dropFree.phase = s.phase := rfl
@[simp] theorem dropFree_errCode (s : State) : s.dropFree.errCode = s.errCode := rfl
@[simp] theorem dropFree_errAddr (s : State) : s.dropFree.errAddr = s.errAddr := rfl
@[simp] theorem dropFree_irqEn (s : State) : s.dropFree.irqEn = s.irqEn := rfl
@[simp] theorem dropFree_sigma (s : State) : s.dropFree.sigma = s.sigma := rfl
@[simp] theorem dropFree_srcAddr (s : State) : s.dropFree.srcAddr = s.srcAddr := rfl
@[simp] theorem dropFree_dstAddr (s : State) : s.dropFree.dstAddr = s.dstAddr := rfl
@[simp] theorem dropFree_width (s : State) : s.dropFree.width = s.width := rfl
@[simp] theorem dropFree_height (s : State) : s.dropFree.height = s.height := rfl
@[simp] theorem dropFree_kw (s : State) : s.dropFree.kw = s.kw := rfl
@[simp] theorem dropFree_latch (s : State) : s.dropFree.latch = s.latch := rfl
@[simp] theorem dropFree_todo (s : State) : s.dropFree.todo = s.todo := rfl
@[simp] theorem dropFree_lo (s : State) : s.dropFree.lo = s.lo := rfl
@[simp] theorem dropFree_hi (s : State) : s.dropFree.hi = s.hi := rfl
@[simp] theorem dropFree_stalled (s : State) : s.dropFree.stalled = s.stalled := rfl
@[simp] theorem dropFree_srstWait (s : State) : s.dropFree.srstWait = s.srstWait := rfl
@[simp] theorem dropFree_rstLow (s : State) : s.dropFree.rstLow = s.rstLow := rfl
@[simp] theorem dropFree_mem (s : State) : s.dropFree.mem = s.mem := rfl
@[simp] theorem dropFree_landed (s : State) : s.dropFree.landed = s.landed := rfl
@[simp] theorem dropFree_bus (s : State) : s.dropFree.bus = s.bus := rfl
@[simp] theorem dropFree_rdata (s : State) : s.dropFree.rdata = s.rdata := rfl
@[simp] theorem dropFree_inputs (s : State) : s.dropFree.inputs = s.inputs := rfl
@[simp] theorem dropFree_lead (s : State) : s.dropFree.lead = s.lead := rfl
@[simp] theorem dropFree_picks (s : State) : s.dropFree.picks = s.picks := rfl
@[simp] theorem dropFree_free (s : State) : s.dropFree.free = s.free + 1 := rfl
@[simp] theorem dropFree_raced (s : State) : s.dropFree.raced = s.raced := rfl
@[simp] theorem dropFree_before (s : State) : s.dropFree.before = s.before := rfl

/-! `overrun`: R119. -/

@[simp] theorem overrun_inst (s : State) : (overrun s).inst = s.inst := rfl
@[simp] theorem overrun_done (s : State) : (overrun s).done = s.done := rfl
@[simp] theorem overrun_err (s : State) : (overrun s).err = s.err := rfl
@[simp] theorem overrun_ovr (s : State) : (overrun s).ovr = true := rfl
@[simp] theorem overrun_kvalid (s : State) : (overrun s).kvalid = s.kvalid := rfl
@[simp] theorem overrun_phase (s : State) : (overrun s).phase = s.phase := rfl
@[simp] theorem overrun_errCode (s : State) : (overrun s).errCode = s.errCode := rfl
@[simp] theorem overrun_errAddr (s : State) : (overrun s).errAddr = s.errAddr := rfl
@[simp] theorem overrun_irqEn (s : State) : (overrun s).irqEn = s.irqEn := rfl
@[simp] theorem overrun_sigma (s : State) : (overrun s).sigma = s.sigma := rfl
@[simp] theorem overrun_srcAddr (s : State) : (overrun s).srcAddr = s.srcAddr := rfl
@[simp] theorem overrun_dstAddr (s : State) : (overrun s).dstAddr = s.dstAddr := rfl
@[simp] theorem overrun_width (s : State) : (overrun s).width = s.width := rfl
@[simp] theorem overrun_height (s : State) : (overrun s).height = s.height := rfl
@[simp] theorem overrun_kw (s : State) : (overrun s).kw = s.kw := rfl
@[simp] theorem overrun_latch (s : State) : (overrun s).latch = s.latch := rfl
@[simp] theorem overrun_todo (s : State) : (overrun s).todo = s.todo := rfl
@[simp] theorem overrun_lo (s : State) : (overrun s).lo = s.lo := rfl
@[simp] theorem overrun_hi (s : State) : (overrun s).hi = s.hi := rfl
@[simp] theorem overrun_stalled (s : State) : (overrun s).stalled = s.stalled := rfl
@[simp] theorem overrun_srstWait (s : State) : (overrun s).srstWait = s.srstWait := rfl
@[simp] theorem overrun_rstLow (s : State) : (overrun s).rstLow = s.rstLow := rfl
@[simp] theorem overrun_mem (s : State) : (overrun s).mem = s.mem := rfl
@[simp] theorem overrun_landed (s : State) : (overrun s).landed = s.landed := rfl
@[simp] theorem overrun_bus (s : State) : (overrun s).bus = s.bus := rfl
@[simp] theorem overrun_rdata (s : State) : (overrun s).rdata = s.rdata := rfl
@[simp] theorem overrun_inputs (s : State) : (overrun s).inputs = s.inputs := rfl
@[simp] theorem overrun_lead (s : State) : (overrun s).lead = s.lead := rfl
@[simp] theorem overrun_picks (s : State) : (overrun s).picks = s.picks := rfl
@[simp] theorem overrun_free (s : State) : (overrun s).free = s.free := rfl
@[simp] theorem overrun_raced (s : State) : (overrun s).raced = s.raced := rfl
@[simp] theorem overrun_before (s : State) : (overrun s).before = s.before := rfl

/-! `clearError`: R122. -/

@[simp] theorem clearError_inst (s : State) : (clearError s).inst = s.inst := rfl
@[simp] theorem clearError_done (s : State) : (clearError s).done = s.done := rfl
@[simp] theorem clearError_err (s : State) : (clearError s).err = false := rfl
@[simp] theorem clearError_ovr (s : State) : (clearError s).ovr = s.ovr := rfl
@[simp] theorem clearError_kvalid (s : State) : (clearError s).kvalid = s.kvalid := rfl
@[simp] theorem clearError_phase (s : State) : (clearError s).phase = s.phase := rfl
@[simp] theorem clearError_errCode (s : State) : (clearError s).errCode = 0 := rfl
@[simp] theorem clearError_errAddr (s : State) : (clearError s).errAddr = 0 := rfl
@[simp] theorem clearError_irqEn (s : State) : (clearError s).irqEn = s.irqEn := rfl
@[simp] theorem clearError_sigma (s : State) : (clearError s).sigma = s.sigma := rfl
@[simp] theorem clearError_srcAddr (s : State) : (clearError s).srcAddr = s.srcAddr := rfl
@[simp] theorem clearError_dstAddr (s : State) : (clearError s).dstAddr = s.dstAddr := rfl
@[simp] theorem clearError_width (s : State) : (clearError s).width = s.width := rfl
@[simp] theorem clearError_height (s : State) : (clearError s).height = s.height := rfl
@[simp] theorem clearError_kw (s : State) : (clearError s).kw = s.kw := rfl
@[simp] theorem clearError_latch (s : State) : (clearError s).latch = s.latch := rfl
@[simp] theorem clearError_todo (s : State) : (clearError s).todo = s.todo := rfl
@[simp] theorem clearError_lo (s : State) : (clearError s).lo = s.lo := rfl
@[simp] theorem clearError_hi (s : State) : (clearError s).hi = s.hi := rfl
@[simp] theorem clearError_stalled (s : State) : (clearError s).stalled = s.stalled := rfl
@[simp] theorem clearError_srstWait (s : State) : (clearError s).srstWait = s.srstWait := rfl
@[simp] theorem clearError_rstLow (s : State) : (clearError s).rstLow = s.rstLow := rfl
@[simp] theorem clearError_mem (s : State) : (clearError s).mem = s.mem := rfl
@[simp] theorem clearError_landed (s : State) : (clearError s).landed = s.landed := rfl
@[simp] theorem clearError_bus (s : State) : (clearError s).bus = s.bus := rfl
@[simp] theorem clearError_rdata (s : State) : (clearError s).rdata = s.rdata := rfl
@[simp] theorem clearError_inputs (s : State) : (clearError s).inputs = s.inputs := rfl
@[simp] theorem clearError_lead (s : State) : (clearError s).lead = s.lead := rfl
@[simp] theorem clearError_picks (s : State) : (clearError s).picks = s.picks := rfl
@[simp] theorem clearError_free (s : State) : (clearError s).free = s.free := rfl
@[simp] theorem clearError_raced (s : State) : (clearError s).raced = s.raced := rfl
@[simp] theorem clearError_before (s : State) : (clearError s).before = s.before := rfl

/-! `latchOperands`: R39. -/

@[simp] theorem latchOperands_inst (w : Word) (s : State) : (latchOperands w s).inst = s.inst := rfl
@[simp] theorem latchOperands_done (w : Word) (s : State) : (latchOperands w s).done = s.done := rfl
@[simp] theorem latchOperands_err (w : Word) (s : State) : (latchOperands w s).err = s.err := rfl
@[simp] theorem latchOperands_ovr (w : Word) (s : State) : (latchOperands w s).ovr = s.ovr := rfl
@[simp] theorem latchOperands_kvalid (w : Word) (s : State) : (latchOperands w s).kvalid = s.kvalid := rfl
@[simp] theorem latchOperands_phase (w : Word) (s : State) : (latchOperands w s).phase = s.phase := rfl
@[simp] theorem latchOperands_errCode (w : Word) (s : State) : (latchOperands w s).errCode = s.errCode := rfl
@[simp] theorem latchOperands_errAddr (w : Word) (s : State) : (latchOperands w s).errAddr = s.errAddr := rfl
@[simp] theorem latchOperands_irqEn (w : Word) (s : State) : (latchOperands w s).irqEn = s.irqEn := rfl
@[simp] theorem latchOperands_sigma (w : Word) (s : State) : (latchOperands w s).sigma = s.sigma := rfl
@[simp] theorem latchOperands_srcAddr (w : Word) (s : State) : (latchOperands w s).srcAddr = s.srcAddr := rfl
@[simp] theorem latchOperands_dstAddr (w : Word) (s : State) : (latchOperands w s).dstAddr = s.dstAddr := rfl
@[simp] theorem latchOperands_width (w : Word) (s : State) : (latchOperands w s).width = s.width := rfl
@[simp] theorem latchOperands_height (w : Word) (s : State) : (latchOperands w s).height = s.height := rfl
@[simp] theorem latchOperands_kw (w : Word) (s : State) : (latchOperands w s).kw = s.kw := rfl
@[simp] theorem latchOperands_latch (w : Word) (s : State) :
    (latchOperands w s).latch = { op := opField w, vw := vwField w, sigma := s.sigma, src := s.srcAddr, dst := s.dstAddr, w := s.width, h := s.height } := rfl
@[simp] theorem latchOperands_todo (w : Word) (s : State) : (latchOperands w s).todo = s.todo := rfl
@[simp] theorem latchOperands_lo (w : Word) (s : State) : (latchOperands w s).lo = s.lo := rfl
@[simp] theorem latchOperands_hi (w : Word) (s : State) : (latchOperands w s).hi = s.hi := rfl
@[simp] theorem latchOperands_stalled (w : Word) (s : State) : (latchOperands w s).stalled = s.stalled := rfl
@[simp] theorem latchOperands_srstWait (w : Word) (s : State) : (latchOperands w s).srstWait = s.srstWait := rfl
@[simp] theorem latchOperands_rstLow (w : Word) (s : State) : (latchOperands w s).rstLow = s.rstLow := rfl
@[simp] theorem latchOperands_mem (w : Word) (s : State) : (latchOperands w s).mem = s.mem := rfl
@[simp] theorem latchOperands_landed (w : Word) (s : State) : (latchOperands w s).landed = s.landed := rfl
@[simp] theorem latchOperands_bus (w : Word) (s : State) : (latchOperands w s).bus = s.bus := rfl
@[simp] theorem latchOperands_rdata (w : Word) (s : State) : (latchOperands w s).rdata = s.rdata := rfl
@[simp] theorem latchOperands_inputs (w : Word) (s : State) : (latchOperands w s).inputs = s.inputs := rfl
@[simp] theorem latchOperands_lead (w : Word) (s : State) : (latchOperands w s).lead = s.lead := rfl
@[simp] theorem latchOperands_picks (w : Word) (s : State) : (latchOperands w s).picks = s.picks := rfl
@[simp] theorem latchOperands_free (w : Word) (s : State) : (latchOperands w s).free = s.free := rfl
@[simp] theorem latchOperands_raced (w : Word) (s : State) : (latchOperands w s).raced = s.raced := rfl
@[simp] theorem latchOperands_before (w : Word) (s : State) : (latchOperands w s).before = s.mem := rfl

/-! `beginKernel`: R81. -/

@[simp] theorem beginKernel_inst (s : State) : (beginKernel s).inst = s.inst := rfl
@[simp] theorem beginKernel_done (s : State) : (beginKernel s).done = s.done := rfl
@[simp] theorem beginKernel_err (s : State) : (beginKernel s).err = s.err := rfl
@[simp] theorem beginKernel_ovr (s : State) : (beginKernel s).ovr = s.ovr := rfl
@[simp] theorem beginKernel_kvalid (s : State) : (beginKernel s).kvalid = s.kvalid := rfl
@[simp] theorem beginKernel_phase (s : State) : (beginKernel s).phase = .kgen := rfl
@[simp] theorem beginKernel_errCode (s : State) : (beginKernel s).errCode = s.errCode := rfl
@[simp] theorem beginKernel_errAddr (s : State) : (beginKernel s).errAddr = s.errAddr := rfl
@[simp] theorem beginKernel_irqEn (s : State) : (beginKernel s).irqEn = s.irqEn := rfl
@[simp] theorem beginKernel_sigma (s : State) : (beginKernel s).sigma = s.sigma := rfl
@[simp] theorem beginKernel_srcAddr (s : State) : (beginKernel s).srcAddr = s.srcAddr := rfl
@[simp] theorem beginKernel_dstAddr (s : State) : (beginKernel s).dstAddr = s.dstAddr := rfl
@[simp] theorem beginKernel_width (s : State) : (beginKernel s).width = s.width := rfl
@[simp] theorem beginKernel_height (s : State) : (beginKernel s).height = s.height := rfl
@[simp] theorem beginKernel_kw (s : State) : (beginKernel s).kw = s.kw := rfl
@[simp] theorem beginKernel_latch (s : State) : (beginKernel s).latch = s.latch := rfl
@[simp] theorem beginKernel_todo (s : State) : (beginKernel s).todo = [0] := rfl
@[simp] theorem beginKernel_lo (s : State) : (beginKernel s).lo = s.lo := rfl
@[simp] theorem beginKernel_hi (s : State) : (beginKernel s).hi = s.hi := rfl
@[simp] theorem beginKernel_stalled (s : State) : (beginKernel s).stalled = s.stalled := rfl
@[simp] theorem beginKernel_srstWait (s : State) : (beginKernel s).srstWait = s.srstWait := rfl
@[simp] theorem beginKernel_rstLow (s : State) : (beginKernel s).rstLow = s.rstLow := rfl
@[simp] theorem beginKernel_mem (s : State) : (beginKernel s).mem = s.mem := rfl
@[simp] theorem beginKernel_landed (s : State) : (beginKernel s).landed = s.landed := rfl
@[simp] theorem beginKernel_bus (s : State) : (beginKernel s).bus = s.bus := rfl
@[simp] theorem beginKernel_rdata (s : State) : (beginKernel s).rdata = s.rdata := rfl
@[simp] theorem beginKernel_inputs (s : State) : (beginKernel s).inputs = s.inputs := rfl
@[simp] theorem beginKernel_lead (s : State) : (beginKernel s).lead = s.lead := rfl
@[simp] theorem beginKernel_picks (s : State) : (beginKernel s).picks = s.picks := rfl
@[simp] theorem beginKernel_free (s : State) : (beginKernel s).free = s.free := rfl
@[simp] theorem beginKernel_raced (s : State) : (beginKernel s).raced = s.raced := rfl
@[simp] theorem beginKernel_before (s : State) : (beginKernel s).before = s.before := rfl

/-! `beginPass`: R89. -/

@[simp] theorem beginPass_inst (ph : Phase) (s : State) : (beginPass ph s).inst = s.inst := rfl
@[simp] theorem beginPass_done (ph : Phase) (s : State) : (beginPass ph s).done = s.done := rfl
@[simp] theorem beginPass_err (ph : Phase) (s : State) : (beginPass ph s).err = s.err := rfl
@[simp] theorem beginPass_ovr (ph : Phase) (s : State) : (beginPass ph s).ovr = s.ovr := rfl
@[simp] theorem beginPass_kvalid (ph : Phase) (s : State) : (beginPass ph s).kvalid = s.kvalid := rfl
@[simp] theorem beginPass_phase (ph : Phase) (s : State) : (beginPass ph s).phase = ph := rfl
@[simp] theorem beginPass_errCode (ph : Phase) (s : State) : (beginPass ph s).errCode = s.errCode := rfl
@[simp] theorem beginPass_errAddr (ph : Phase) (s : State) : (beginPass ph s).errAddr = s.errAddr := rfl
@[simp] theorem beginPass_irqEn (ph : Phase) (s : State) : (beginPass ph s).irqEn = s.irqEn := rfl
@[simp] theorem beginPass_sigma (ph : Phase) (s : State) : (beginPass ph s).sigma = s.sigma := rfl
@[simp] theorem beginPass_srcAddr (ph : Phase) (s : State) : (beginPass ph s).srcAddr = s.srcAddr := rfl
@[simp] theorem beginPass_dstAddr (ph : Phase) (s : State) : (beginPass ph s).dstAddr = s.dstAddr := rfl
@[simp] theorem beginPass_width (ph : Phase) (s : State) : (beginPass ph s).width = s.width := rfl
@[simp] theorem beginPass_height (ph : Phase) (s : State) : (beginPass ph s).height = s.height := rfl
@[simp] theorem beginPass_kw (ph : Phase) (s : State) : (beginPass ph s).kw = s.kw := rfl
@[simp] theorem beginPass_latch (ph : Phase) (s : State) : (beginPass ph s).latch = s.latch := rfl
@[simp] theorem beginPass_todo (ph : Phase) (s : State) :
    (beginPass ph s).todo = List.range (currentPass { s with phase := ph }).units := rfl
@[simp] theorem beginPass_lo (ph : Phase) (s : State) : (beginPass ph s).lo = s.lo := rfl
@[simp] theorem beginPass_hi (ph : Phase) (s : State) : (beginPass ph s).hi = s.hi := rfl
@[simp] theorem beginPass_stalled (ph : Phase) (s : State) : (beginPass ph s).stalled = s.stalled := rfl
@[simp] theorem beginPass_srstWait (ph : Phase) (s : State) : (beginPass ph s).srstWait = s.srstWait := rfl
@[simp] theorem beginPass_rstLow (ph : Phase) (s : State) : (beginPass ph s).rstLow = s.rstLow := rfl
@[simp] theorem beginPass_mem (ph : Phase) (s : State) : (beginPass ph s).mem = s.mem := rfl
@[simp] theorem beginPass_landed (ph : Phase) (s : State) : (beginPass ph s).landed = s.landed := rfl
@[simp] theorem beginPass_bus (ph : Phase) (s : State) : (beginPass ph s).bus = s.bus := rfl
@[simp] theorem beginPass_rdata (ph : Phase) (s : State) : (beginPass ph s).rdata = s.rdata := rfl
@[simp] theorem beginPass_inputs (ph : Phase) (s : State) : (beginPass ph s).inputs = s.inputs := rfl
@[simp] theorem beginPass_lead (ph : Phase) (s : State) : (beginPass ph s).lead = s.lead := rfl
@[simp] theorem beginPass_picks (ph : Phase) (s : State) : (beginPass ph s).picks = s.picks := rfl
@[simp] theorem beginPass_free (ph : Phase) (s : State) : (beginPass ph s).free = s.free := rfl
@[simp] theorem beginPass_raced (ph : Phase) (s : State) : (beginPass ph s).raced = s.raced := rfl
@[simp] theorem beginPass_before (ph : Phase) (s : State) : (beginPass ph s).before = s.before := rfl

/-! `writeKernel`: R85. -/

@[simp] theorem writeKernel_inst (s : State) : (writeKernel s).inst = s.inst := rfl
@[simp] theorem writeKernel_done (s : State) : (writeKernel s).done = s.done := rfl
@[simp] theorem writeKernel_err (s : State) : (writeKernel s).err = s.err := rfl
@[simp] theorem writeKernel_ovr (s : State) : (writeKernel s).ovr = s.ovr := rfl
@[simp] theorem writeKernel_kvalid (s : State) : (writeKernel s).kvalid = true := rfl
@[simp] theorem writeKernel_phase (s : State) : (writeKernel s).phase = s.phase := rfl
@[simp] theorem writeKernel_errCode (s : State) : (writeKernel s).errCode = s.errCode := rfl
@[simp] theorem writeKernel_errAddr (s : State) : (writeKernel s).errAddr = s.errAddr := rfl
@[simp] theorem writeKernel_irqEn (s : State) : (writeKernel s).irqEn = s.irqEn := rfl
@[simp] theorem writeKernel_sigma (s : State) : (writeKernel s).sigma = s.sigma := rfl
@[simp] theorem writeKernel_srcAddr (s : State) : (writeKernel s).srcAddr = s.srcAddr := rfl
@[simp] theorem writeKernel_dstAddr (s : State) : (writeKernel s).dstAddr = s.dstAddr := rfl
@[simp] theorem writeKernel_width (s : State) : (writeKernel s).width = s.width := rfl
@[simp] theorem writeKernel_height (s : State) : (writeKernel s).height = s.height := rfl
@[simp] theorem writeKernel_kw (s : State) : (writeKernel s).kw = kernelOf s.latch.sigma := rfl
@[simp] theorem writeKernel_latch (s : State) : (writeKernel s).latch = s.latch := rfl
@[simp] theorem writeKernel_todo (s : State) : (writeKernel s).todo = [] := rfl
@[simp] theorem writeKernel_lo (s : State) : (writeKernel s).lo = s.lo := rfl
@[simp] theorem writeKernel_hi (s : State) : (writeKernel s).hi = s.hi := rfl
@[simp] theorem writeKernel_stalled (s : State) : (writeKernel s).stalled = s.stalled := rfl
@[simp] theorem writeKernel_srstWait (s : State) : (writeKernel s).srstWait = s.srstWait := rfl
@[simp] theorem writeKernel_rstLow (s : State) : (writeKernel s).rstLow = s.rstLow := rfl
@[simp] theorem writeKernel_mem (s : State) : (writeKernel s).mem = s.mem := rfl
@[simp] theorem writeKernel_landed (s : State) : (writeKernel s).landed = s.landed := rfl
@[simp] theorem writeKernel_bus (s : State) : (writeKernel s).bus = s.bus := rfl
@[simp] theorem writeKernel_rdata (s : State) : (writeKernel s).rdata = s.rdata := rfl
@[simp] theorem writeKernel_inputs (s : State) : (writeKernel s).inputs = s.inputs := rfl
@[simp] theorem writeKernel_lead (s : State) : (writeKernel s).lead = s.lead := rfl
@[simp] theorem writeKernel_picks (s : State) : (writeKernel s).picks = s.picks := rfl
@[simp] theorem writeKernel_free (s : State) : (writeKernel s).free = s.free := rfl
@[simp] theorem writeKernel_raced (s : State) : (writeKernel s).raced = s.raced := rfl
@[simp] theorem writeKernel_before (s : State) : (writeKernel s).before = s.before := rfl

/-! `takeUnit`: R91. -/

@[simp] theorem takeUnit_inst (s : State) : (takeUnit s).inst = s.inst := rfl
@[simp] theorem takeUnit_done (s : State) : (takeUnit s).done = s.done := rfl
@[simp] theorem takeUnit_err (s : State) : (takeUnit s).err = s.err := rfl
@[simp] theorem takeUnit_ovr (s : State) : (takeUnit s).ovr = s.ovr := rfl
@[simp] theorem takeUnit_kvalid (s : State) : (takeUnit s).kvalid = s.kvalid := rfl
@[simp] theorem takeUnit_phase (s : State) : (takeUnit s).phase = s.phase := rfl
@[simp] theorem takeUnit_errCode (s : State) : (takeUnit s).errCode = s.errCode := rfl
@[simp] theorem takeUnit_errAddr (s : State) : (takeUnit s).errAddr = s.errAddr := rfl
@[simp] theorem takeUnit_irqEn (s : State) : (takeUnit s).irqEn = s.irqEn := rfl
@[simp] theorem takeUnit_sigma (s : State) : (takeUnit s).sigma = s.sigma := rfl
@[simp] theorem takeUnit_srcAddr (s : State) : (takeUnit s).srcAddr = s.srcAddr := rfl
@[simp] theorem takeUnit_dstAddr (s : State) : (takeUnit s).dstAddr = s.dstAddr := rfl
@[simp] theorem takeUnit_width (s : State) : (takeUnit s).width = s.width := rfl
@[simp] theorem takeUnit_height (s : State) : (takeUnit s).height = s.height := rfl
@[simp] theorem takeUnit_kw (s : State) : (takeUnit s).kw = s.kw := rfl
@[simp] theorem takeUnit_latch (s : State) : (takeUnit s).latch = s.latch := rfl
@[simp] theorem takeUnit_todo (s : State) : (takeUnit s).todo = s.todo.eraseIdx s.nextUnit := rfl
@[simp] theorem takeUnit_lo (s : State) : (takeUnit s).lo = s.lo := rfl
@[simp] theorem takeUnit_hi (s : State) : (takeUnit s).hi = s.hi := rfl
@[simp] theorem takeUnit_stalled (s : State) : (takeUnit s).stalled = s.stalled := rfl
@[simp] theorem takeUnit_srstWait (s : State) : (takeUnit s).srstWait = s.srstWait := rfl
@[simp] theorem takeUnit_rstLow (s : State) : (takeUnit s).rstLow = s.rstLow := rfl
@[simp] theorem takeUnit_mem (s : State) : (takeUnit s).mem = s.mem := rfl
@[simp] theorem takeUnit_landed (s : State) : (takeUnit s).landed = s.landed := rfl
@[simp] theorem takeUnit_bus (s : State) : (takeUnit s).bus = s.bus := rfl
@[simp] theorem takeUnit_rdata (s : State) : (takeUnit s).rdata = s.rdata := rfl
@[simp] theorem takeUnit_inputs (s : State) : (takeUnit s).inputs = s.inputs := rfl
@[simp] theorem takeUnit_lead (s : State) : (takeUnit s).lead = s.lead := rfl
@[simp] theorem takeUnit_picks (s : State) : (takeUnit s).picks = s.picks.tail := rfl
@[simp] theorem takeUnit_free (s : State) : (takeUnit s).free = s.free := rfl
@[simp] theorem takeUnit_raced (s : State) : (takeUnit s).raced = s.raced := rfl
@[simp] theorem takeUnit_before (s : State) : (takeUnit s).before = s.before := rfl

/-! `stallCommand`: R160. -/

@[simp] theorem stallCommand_inst (units : List Nat) (outs : List Output) (s : State) :
    (stallCommand units outs s).inst = s.inst := rfl
@[simp] theorem stallCommand_done (units : List Nat) (outs : List Output) (s : State) :
    (stallCommand units outs s).done = s.done := rfl
@[simp] theorem stallCommand_err (units : List Nat) (outs : List Output) (s : State) :
    (stallCommand units outs s).err = s.err := rfl
@[simp] theorem stallCommand_ovr (units : List Nat) (outs : List Output) (s : State) :
    (stallCommand units outs s).ovr = s.ovr := rfl
@[simp] theorem stallCommand_kvalid (units : List Nat) (outs : List Output) (s : State) :
    (stallCommand units outs s).kvalid = s.kvalid := rfl
@[simp] theorem stallCommand_phase (units : List Nat) (outs : List Output) (s : State) :
    (stallCommand units outs s).phase = s.phase := rfl
@[simp] theorem stallCommand_errCode (units : List Nat) (outs : List Output) (s : State) :
    (stallCommand units outs s).errCode = s.errCode := rfl
@[simp] theorem stallCommand_errAddr (units : List Nat) (outs : List Output) (s : State) :
    (stallCommand units outs s).errAddr = s.errAddr := rfl
@[simp] theorem stallCommand_irqEn (units : List Nat) (outs : List Output) (s : State) :
    (stallCommand units outs s).irqEn = s.irqEn := rfl
@[simp] theorem stallCommand_sigma (units : List Nat) (outs : List Output) (s : State) :
    (stallCommand units outs s).sigma = s.sigma := rfl
@[simp] theorem stallCommand_srcAddr (units : List Nat) (outs : List Output) (s : State) :
    (stallCommand units outs s).srcAddr = s.srcAddr := rfl
@[simp] theorem stallCommand_dstAddr (units : List Nat) (outs : List Output) (s : State) :
    (stallCommand units outs s).dstAddr = s.dstAddr := rfl
@[simp] theorem stallCommand_width (units : List Nat) (outs : List Output) (s : State) :
    (stallCommand units outs s).width = s.width := rfl
@[simp] theorem stallCommand_height (units : List Nat) (outs : List Output) (s : State) :
    (stallCommand units outs s).height = s.height := rfl
@[simp] theorem stallCommand_kw (units : List Nat) (outs : List Output) (s : State) :
    (stallCommand units outs s).kw = s.kw := rfl
@[simp] theorem stallCommand_latch (units : List Nat) (outs : List Output) (s : State) :
    (stallCommand units outs s).latch = s.latch := rfl
@[simp] theorem stallCommand_todo (units : List Nat) (outs : List Output) (s : State) :
    (stallCommand units outs s).todo = units := rfl
@[simp] theorem stallCommand_lo (units : List Nat) (outs : List Output) (s : State) :
    (stallCommand units outs s).lo = s.lo := rfl
@[simp] theorem stallCommand_hi (units : List Nat) (outs : List Output) (s : State) :
    (stallCommand units outs s).hi = s.hi := rfl
@[simp] theorem stallCommand_stalled (units : List Nat) (outs : List Output) (s : State) :
    (stallCommand units outs s).stalled = true := rfl
@[simp] theorem stallCommand_srstWait (units : List Nat) (outs : List Output) (s : State) :
    (stallCommand units outs s).srstWait = s.srstWait := rfl
@[simp] theorem stallCommand_rstLow (units : List Nat) (outs : List Output) (s : State) :
    (stallCommand units outs s).rstLow = s.rstLow := rfl
@[simp] theorem stallCommand_mem (units : List Nat) (outs : List Output) (s : State) :
    (stallCommand units outs s).mem = s.mem := rfl
@[simp] theorem stallCommand_landed (units : List Nat) (outs : List Output) (s : State) :
    (stallCommand units outs s).landed = outs.map fun o => (o.r, o.c) := rfl
@[simp] theorem stallCommand_bus (units : List Nat) (outs : List Output) (s : State) :
    (stallCommand units outs s).bus = s.bus := rfl
@[simp] theorem stallCommand_rdata (units : List Nat) (outs : List Output) (s : State) :
    (stallCommand units outs s).rdata = s.rdata := rfl
@[simp] theorem stallCommand_inputs (units : List Nat) (outs : List Output) (s : State) :
    (stallCommand units outs s).inputs = s.inputs := rfl
@[simp] theorem stallCommand_lead (units : List Nat) (outs : List Output) (s : State) :
    (stallCommand units outs s).lead = s.lead := rfl
@[simp] theorem stallCommand_picks (units : List Nat) (outs : List Output) (s : State) :
    (stallCommand units outs s).picks = s.picks := rfl
@[simp] theorem stallCommand_free (units : List Nat) (outs : List Output) (s : State) :
    (stallCommand units outs s).free = s.free := rfl
@[simp] theorem stallCommand_raced (units : List Nat) (outs : List Output) (s : State) :
    (stallCommand units outs s).raced = s.raced := rfl
@[simp] theorem stallCommand_before (units : List Nat) (outs : List Output) (s : State) :
    (stallCommand units outs s).before = s.before := rfl

/-! `endRaces`: the end of a command (R67). -/

@[simp] theorem endRaces_inst (s : State) : (endRaces s).inst = s.inst := rfl
@[simp] theorem endRaces_done (s : State) : (endRaces s).done = s.done := rfl
@[simp] theorem endRaces_err (s : State) : (endRaces s).err = s.err := rfl
@[simp] theorem endRaces_ovr (s : State) : (endRaces s).ovr = s.ovr := rfl
@[simp] theorem endRaces_kvalid (s : State) : (endRaces s).kvalid = s.kvalid := rfl
@[simp] theorem endRaces_phase (s : State) : (endRaces s).phase = s.phase := rfl
@[simp] theorem endRaces_errCode (s : State) : (endRaces s).errCode = s.errCode := rfl
@[simp] theorem endRaces_errAddr (s : State) : (endRaces s).errAddr = s.errAddr := rfl
@[simp] theorem endRaces_irqEn (s : State) : (endRaces s).irqEn = s.irqEn := rfl
@[simp] theorem endRaces_sigma (s : State) : (endRaces s).sigma = s.sigma := rfl
@[simp] theorem endRaces_srcAddr (s : State) : (endRaces s).srcAddr = s.srcAddr := rfl
@[simp] theorem endRaces_dstAddr (s : State) : (endRaces s).dstAddr = s.dstAddr := rfl
@[simp] theorem endRaces_width (s : State) : (endRaces s).width = s.width := rfl
@[simp] theorem endRaces_height (s : State) : (endRaces s).height = s.height := rfl
@[simp] theorem endRaces_kw (s : State) : (endRaces s).kw = s.kw := rfl
@[simp] theorem endRaces_latch (s : State) : (endRaces s).latch = s.latch := rfl
@[simp] theorem endRaces_todo (s : State) : (endRaces s).todo = s.todo := rfl
@[simp] theorem endRaces_lo (s : State) : (endRaces s).lo = s.lo := rfl
@[simp] theorem endRaces_hi (s : State) : (endRaces s).hi = s.hi := rfl
@[simp] theorem endRaces_stalled (s : State) : (endRaces s).stalled = s.stalled := rfl
@[simp] theorem endRaces_srstWait (s : State) : (endRaces s).srstWait = s.srstWait := rfl
@[simp] theorem endRaces_rstLow (s : State) : (endRaces s).rstLow = s.rstLow := rfl
@[simp] theorem endRaces_mem (s : State) : (endRaces s).mem = s.mem := rfl
@[simp] theorem endRaces_landed (s : State) : (endRaces s).landed = s.landed := rfl
@[simp] theorem endRaces_bus (s : State) : (endRaces s).bus = s.bus := rfl
@[simp] theorem endRaces_rdata (s : State) : (endRaces s).rdata = s.rdata := rfl
@[simp] theorem endRaces_inputs (s : State) : (endRaces s).inputs = s.inputs := rfl
@[simp] theorem endRaces_lead (s : State) : (endRaces s).lead = s.lead := rfl
@[simp] theorem endRaces_picks (s : State) : (endRaces s).picks = s.picks := rfl
@[simp] theorem endRaces_free (s : State) : (endRaces s).free = s.free := rfl
@[simp] theorem endRaces_raced (s : State) : (endRaces s).raced = [] := rfl
@[simp] theorem endRaces_before (s : State) : (endRaces s).before = [] := rfl

/-! `resetBlock`: R46. -/

@[simp] theorem resetBlock_inst (s : State) : (resetBlock s).inst = s.inst := rfl
@[simp] theorem resetBlock_done (s : State) : (resetBlock s).done = false := rfl
@[simp] theorem resetBlock_err (s : State) : (resetBlock s).err = false := rfl
@[simp] theorem resetBlock_ovr (s : State) : (resetBlock s).ovr = false := rfl
@[simp] theorem resetBlock_kvalid (s : State) : (resetBlock s).kvalid = false := rfl
@[simp] theorem resetBlock_phase (s : State) : (resetBlock s).phase = .idle := rfl
@[simp] theorem resetBlock_errCode (s : State) : (resetBlock s).errCode = 0 := rfl
@[simp] theorem resetBlock_errAddr (s : State) : (resetBlock s).errAddr = 0 := rfl
@[simp] theorem resetBlock_irqEn (s : State) : (resetBlock s).irqEn = 0 := rfl
@[simp] theorem resetBlock_sigma (s : State) : (resetBlock s).sigma = 0 := rfl
@[simp] theorem resetBlock_srcAddr (s : State) : (resetBlock s).srcAddr = 0 := rfl
@[simp] theorem resetBlock_dstAddr (s : State) : (resetBlock s).dstAddr = 0 := rfl
@[simp] theorem resetBlock_width (s : State) : (resetBlock s).width = 0 := rfl
@[simp] theorem resetBlock_height (s : State) : (resetBlock s).height = 0 := rfl
@[simp] theorem resetBlock_kw (s : State) : (resetBlock s).kw = Vector.replicate 7 0 := rfl
@[simp] theorem resetBlock_latch (s : State) : (resetBlock s).latch = Latch.reset := rfl
@[simp] theorem resetBlock_todo (s : State) : (resetBlock s).todo = [] := rfl
@[simp] theorem resetBlock_lo (s : State) : (resetBlock s).lo = Half.reset := rfl
@[simp] theorem resetBlock_hi (s : State) : (resetBlock s).hi = Half.reset := rfl
@[simp] theorem resetBlock_stalled (s : State) : (resetBlock s).stalled = false := rfl
@[simp] theorem resetBlock_srstWait (s : State) : (resetBlock s).srstWait = false := rfl
@[simp] theorem resetBlock_rstLow (s : State) : (resetBlock s).rstLow = s.rstLow := rfl
@[simp] theorem resetBlock_mem (s : State) : (resetBlock s).mem = s.mem := rfl
@[simp] theorem resetBlock_landed (s : State) : (resetBlock s).landed = [] := rfl
@[simp] theorem resetBlock_bus (s : State) : (resetBlock s).bus = s.bus := rfl
@[simp] theorem resetBlock_rdata (s : State) : (resetBlock s).rdata = s.rdata := rfl
@[simp] theorem resetBlock_inputs (s : State) : (resetBlock s).inputs = s.inputs := rfl
@[simp] theorem resetBlock_lead (s : State) : (resetBlock s).lead = s.lead := rfl
@[simp] theorem resetBlock_picks (s : State) : (resetBlock s).picks = s.picks := rfl
@[simp] theorem resetBlock_free (s : State) : (resetBlock s).free = s.free := rfl
@[simp] theorem resetBlock_raced (s : State) : (resetBlock s).raced = [] := rfl
@[simp] theorem resetBlock_before (s : State) : (resetBlock s).before = [] := rfl

end Sys2Proof.Machine
end

