-- ==== Sys2Proof/Laws/Engine.lean ====
section
/-! SUPPORT. What running some outputs of a pass does: which fields it can change, and, when no tap lies in the pass's own
destination, exactly which words it stores (R99 to R105). -/
namespace Sys2Proof.Machine

/-- The half of the engine an output uses (R107, R108). -/
def State.half (s : State) (upper : Bool) : Half := if upper then s.hi else s.lo

/-- Gathering changes the engine's two halves only. -/
theorem loadOutput_frame (p : Pass) (o : Output) (s : State) :
    loadOutput p o s = { s with lo := (loadOutput p o s).lo, hi := (loadOutput p o s).hi } := by
  unfold loadOutput; dsimp only; split <;> rfl

/-- Storing changes memory and draws free values only. -/
theorem storeOutput_frame (p : Pass) (o : Output) (s : State) :
    storeOutput p o s = { s with mem := (storeOutput p o s).mem, free := (storeOutput p o s).free } := by
  unfold storeOutput
  split
  · rfl
  · split <;> rfl

/-- Without words that could taint it, no output depends on any (R67). -/
theorem Pass.dependsOn_nil (inst : Params) (p : Pass) (r c : Nat) : p.dependsOn inst [] r c = false := by
  simp [Pass.dependsOn]

/-- Without a race no word is tainted (R67). -/
theorem State.tainted_nil {s : State} (h : s.raced = []) : s.tainted = [] := by
  unfold State.tainted State.taint Pass.openWords
  rw [h]
  split <;> simp [Pass.dependsOn_nil]

/-- Without a race only the legacy read leaves an output open (R109, R158). -/
theorem State.outputIsOpen_unraced {s : State} (h : s.raced = []) (p : Pass) (o : Output) :
    s.outputIsOpen p o = p.readsOwnOutput s.inst o.r o.c := by
  rw [State.outputIsOpen, State.tainted_nil h, Pass.dependsOn_nil, Bool.or_false]

/-- Without a race every output is written (R61). -/
theorem State.keepsHostWord_unraced {s : State} (h : s.raced = []) (a : Nat) : s.keepsHostWord a = false := by
  simp [State.keepsHostWord, h]

/-- Gathering a list of outputs changes the engine's two halves only. -/
theorem loadAll_frame (p : Pass) (outs : List Output) (s : State) :
    outs.foldl (fun s o => loadOutput p o s) s =
      { s with
        lo := (outs.foldl (fun s o => loadOutput p o s) s).lo
        hi := (outs.foldl (fun s o => loadOutput p o s) s).hi } := by
  induction outs generalizing s with
  | nil => rfl
  | cons o outs ih => rw [List.foldl_cons, ih, loadOutput_frame]

/-- Storing a list of outputs changes memory and draws free values only. -/
theorem storeAll_frame (p : Pass) (outs : List Output) (s : State) :
    outs.foldl (fun s o => storeOutput p o s) s =
      { s with
        mem := (outs.foldl (fun s o => storeOutput p o s) s).mem
        free := (outs.foldl (fun s o => storeOutput p o s) s).free } := by
  induction outs generalizing s with
  | nil => rfl
  | cons o outs ih => rw [List.foldl_cons, ih, storeOutput_frame]

/-- Running outputs changes the engine's halves, memory and the counter of free values only. -/
theorem runOutputs_frame (p : Pass) (outs : List Output) (s : State) :
    runOutputs p outs s =
      { s with
        lo := (runOutputs p outs s).lo
        hi := (runOutputs p outs s).hi
        mem := (runOutputs p outs s).mem
        free := (runOutputs p outs s).free } := by
  unfold runOutputs
  rw [storeAll_frame, loadAll_frame]

/-- A property of memory that storing any word of the listed outputs keeps, running them keeps. -/
theorem runOutputs_mem_induction {p : Pass} {outs : List Output} {s : State} (P : Memory → Prop) (h0 : P s.mem)
    (hstep : ∀ o ∈ outs, ∀ m v, P m → P (Memory.write32 m (p.outAddr o.r o.c) v)) :
    P (runOutputs p outs s).mem := by
  have hload : ∀ (l : List Output) (t : State), P t.mem → P (l.foldl (fun s o => loadOutput p o s) t).mem := by
    intro l t ht
    rw [loadAll_frame]; exact ht
  have hstore : ∀ (l : List Output) (t : State), (∀ o ∈ l, o ∈ outs) → P t.mem →
      P (l.foldl (fun s o => storeOutput p o s) t).mem := by
    intro l
    induction l with
    | nil => intro t _ ht; exact ht
    | cons o l ih =>
      intro t hl ht
      rw [List.foldl_cons]
      refine ih _ (fun x hx => hl x (List.mem_cons_of_mem _ hx)) ?_
      unfold storeOutput
      split
      · exact ht
      · split <;> exact hstep o (hl o (by simp)) _ _ ht
  exact hstore _ _ (fun _ h => h) (hload _ _ h0)

/-- Gathering leaves a half that no listed output uses as it was. -/
theorem loadAll_half_other (p : Pass) (outs : List Output) (s : State) (b : Bool) (h : ∀ o ∈ outs, o.upper ≠ b) :
    (outs.foldl (fun s o => loadOutput p o s) s).half b = s.half b := by
  induction outs generalizing s with
  | nil => rfl
  | cons o outs ih =>
    rw [List.foldl_cons, ih _ fun x hx => h x (List.mem_cons_of_mem _ hx)]
    have ho := h o (by simp)
    unfold loadOutput State.half
    cases b <;> cases ho' : o.upper <;> simp_all

/-- After gathering, the half of each listed output holds its taps and its sums (R99 to R101). -/
theorem loadAll_half (p : Pass) (outs : List Output) (s : State) (hp : outs.Pairwise fun a b => a.upper ≠ b.upper)
    {o : Output} (ho : o ∈ outs) :
    (outs.foldl (fun s o => loadOutput p o s) s).half o.upper =
      { taps := gatherTaps s.inst s.mem p o.r o.c
        acc := accumulate s.kw (gatherTaps s.inst s.mem p o.r o.c) } := by
  induction outs generalizing s with
  | nil => simp at ho
  | cons q outs ih =>
    obtain ⟨hq, hp⟩ := List.pairwise_cons.1 hp
    rw [List.foldl_cons]
    rcases List.mem_cons.1 ho with rfl | ho
    · rw [loadAll_half_other _ _ _ _ fun x hx => (hq x hx).symm]
      unfold loadOutput State.half
      cases o.upper <;> rfl
    · have hi : (loadOutput p q s).inst = s.inst := by rw [loadOutput_frame]
      have hm : (loadOutput p q s).mem = s.mem := by rw [loadOutput_frame]
      have hk : (loadOutput p q s).kw = s.kw := by rw [loadOutput_frame]
      rw [ih _ hp ho, hi, hm, hk]

/-- Memory with a word stored for each of some outputs of a pass (R104). -/
def storeWords (p : Pass) (words : List (Output × Word)) (m : Memory) : Memory :=
  words.foldl (fun m x => Memory.write32 m (p.outAddr x.1.r x.1.c) x.2) m

/-- Without a race, running outputs of one unit stores a word for each of them, and that word is the output's value unless
the output reads the pass's own destination (R105, R109). -/
theorem runOutputs_mem {p : Pass} {outs : List Output} {s : State} (hrace : s.raced = [])
    (hp : outs.Pairwise fun a b => a.upper ≠ b.upper) :
    ∃ words : List (Output × Word), words.map Prod.fst = outs ∧
      (∀ x ∈ words, p.readsOwnOutput s.inst x.1.r x.1.c = false → x.2 = p.value s.inst s.kw s.mem x.1.r x.1.c) ∧
      (runOutputs p outs s).mem = storeWords p words s.mem := by
  have hstore : ∀ (l : List Output) (t : State), (∀ o ∈ l, o ∈ outs) → t.inst = s.inst → t.raced = [] →
      (∀ o ∈ outs, (t.half o.upper).acc = accumulate s.kw (gatherTaps s.inst s.mem p o.r o.c)) →
      ∃ words : List (Output × Word), words.map Prod.fst = l ∧
        (∀ x ∈ words, p.readsOwnOutput s.inst x.1.r x.1.c = false → x.2 = p.value s.inst s.kw s.mem x.1.r x.1.c) ∧
        (l.foldl (fun s o => storeOutput p o s) t).mem = storeWords p words t.mem := by
    intro l
    induction l with
    | nil => intro t _ _ _ _; exact ⟨[], rfl, by simp, rfl⟩
    | cons o l ih =>
      intro t hl hi hr hacc
      have ho := hl o (by simp)
      have hst : ∃ v, (p.readsOwnOutput s.inst o.r o.c = false → v = p.value s.inst s.kw s.mem o.r o.c) ∧
          (storeOutput p o t).mem = Memory.write32 t.mem (p.outAddr o.r o.c) v := by
        unfold storeOutput
        rw [State.keepsHostWord_unraced hr, State.outputIsOpen_unraced hr, hi, if_neg Bool.false_ne_true]
        split
        · rename_i hc
          exact ⟨t.freeWord, fun h => absurd h (by simp [hc]), rfl⟩
        · refine ⟨_, fun _ => ?_, rfl⟩
          have ha := hacc o ho
          unfold State.half at ha
          have : (if o.upper = true then t.hi.acc else t.lo.acc) =
              accumulate s.kw (gatherTaps s.inst s.mem p o.r o.c) := by
            rw [← ha]; split <;> rfl
          rw [this]; rfl
      obtain ⟨v, hv, hmem⟩ := hst
      obtain ⟨words, h1, h2, h3⟩ := ih (storeOutput p o t) (fun x hx => hl x (List.mem_cons_of_mem _ hx))
        (by rw [storeOutput_frame]; exact hi) (by rw [storeOutput_frame]; exact hr) (by
          intro x hx
          rw [storeOutput_frame]
          exact hacc x hx)
      refine ⟨(o, v) :: words, by simp [h1], ?_, ?_⟩
      · intro x hx
        rcases List.mem_cons.1 hx with rfl | hx
        · exact hv
        · exact h2 x hx
      · rw [List.foldl_cons, h3, hmem]; rfl
  obtain ⟨words, h1, h2, h3⟩ := hstore outs (outs.foldl (fun s o => loadOutput p o s) s) (fun _ h => h)
    (by rw [loadAll_frame]) (by rw [loadAll_frame]; exact hrace) (fun o ho => by rw [loadAll_half p outs s hp ho])
  refine ⟨words, h1, h2, ?_⟩
  unfold runOutputs
  rw [h3, loadAll_frame]

/-- Storing words leaves a byte outside all of them alone. -/
theorem storeWords_get_other {p : Pass} {words : List (Output × Word)} {m : Memory} {a : Nat}
    (h : ∀ x ∈ words, a < p.outAddr x.1.r x.1.c ∨ p.outAddr x.1.r x.1.c + 4 ≤ a) :
    Memory.get (storeWords p words m) a = Memory.get m a := by
  induction words generalizing m with
  | nil => rfl
  | cons o words ih =>
    unfold storeWords at ih ⊢
    rw [List.foldl_cons, ih fun x hx => h x (List.mem_cons_of_mem _ hx)]
    exact Memory.get_write32_other _ _ (h o (by simp))

/-- Storing words keeps the canonical form. -/
theorem storeWords_wf {p : Pass} {words : List (Output × Word)} {m : Memory} (hm : Memory.wf m) :
    Memory.wf (storeWords p words m) := by
  induction words generalizing m with
  | nil => exact hm
  | cons o words ih => exact ih (Memory.wf_write32 hm _ _)

/-- Each stored word reads back. -/
theorem storeWords_read {p : Pass} {words : List (Output × Word)} {m : Memory} (hm : Memory.wf m)
    (hp : words.Pairwise fun a b =>
      p.outAddr a.1.r a.1.c + 4 ≤ p.outAddr b.1.r b.1.c ∨ p.outAddr b.1.r b.1.c + 4 ≤ p.outAddr a.1.r a.1.c)
    {x : Output × Word} (hx : x ∈ words) :
    Memory.read32 (storeWords p words m) (p.outAddr x.1.r x.1.c) = x.2 := by
  induction words generalizing m with
  | nil => simp at hx
  | cons q words ih =>
    obtain ⟨hq, hp⟩ := List.pairwise_cons.1 hp
    rcases List.mem_cons.1 hx with rfl | hx
    · have : Memory.read32 (storeWords p words (Memory.write32 m (p.outAddr x.1.r x.1.c) x.2))
          (p.outAddr x.1.r x.1.c) =
          Memory.read32 (Memory.write32 m (p.outAddr x.1.r x.1.c) x.2) (p.outAddr x.1.r x.1.c) :=
        Memory.read32_congr fun l hl => storeWords_get_other fun y hy => by
          have := hq y hy
          omega
      rw [Memory.read32_write32_same hm] at this
      exact this
    · exact ih (Memory.wf_write32 hm _ _) hp hx

/-- Cutting a pass short changes the engine's halves, memory and the counter of free values only. -/
theorem landUnits_frame (p : Pass) (n : Nat) (units : List Nat) (s : State) :
    landUnits p n units s =
      { s with
        lo := (landUnits p n units s).lo
        hi := (landUnits p n units s).hi
        mem := (landUnits p n units s).mem
        free := (landUnits p n units s).free } := by
  induction units generalizing n s with
  | nil => rfl
  | cons u us ih =>
    have hf := runOutputs_frame p (p.landed s.inst s.bus (n % 4) (s.pending p u)) s
    rw [landUnits]
    generalize runOutputs p (p.landed s.inst s.bus (n % 4) (s.pending p u)) s = t at *
    rw [ih, hf]

/-! The fields of a state that cutting a pass short leaves alone. -/

@[simp] theorem landUnits_phase (p : Pass) (n : Nat) (units : List Nat) (s : State) :
    (landUnits p n units s).phase = s.phase := by rw [landUnits_frame]
@[simp] theorem landUnits_latch (p : Pass) (n : Nat) (units : List Nat) (s : State) :
    (landUnits p n units s).latch = s.latch := by rw [landUnits_frame]
@[simp] theorem landUnits_inst (p : Pass) (n : Nat) (units : List Nat) (s : State) :
    (landUnits p n units s).inst = s.inst := by rw [landUnits_frame]
@[simp] theorem landUnits_bus (p : Pass) (n : Nat) (units : List Nat) (s : State) :
    (landUnits p n units s).bus = s.bus := by rw [landUnits_frame]
@[simp] theorem landUnits_kw (p : Pass) (n : Nat) (units : List Nat) (s : State) :
    (landUnits p n units s).kw = s.kw := by rw [landUnits_frame]
@[simp] theorem landUnits_todo (p : Pass) (n : Nat) (units : List Nat) (s : State) :
    (landUnits p n units s).todo = s.todo := by rw [landUnits_frame]
@[simp] theorem landUnits_landed (p : Pass) (n : Nat) (units : List Nat) (s : State) :
    (landUnits p n units s).landed = s.landed := by rw [landUnits_frame]
@[simp] theorem landUnits_stalled (p : Pass) (n : Nat) (units : List Nat) (s : State) :
    (landUnits p n units s).stalled = s.stalled := by rw [landUnits_frame]
@[simp] theorem landUnits_err (p : Pass) (n : Nat) (units : List Nat) (s : State) :
    (landUnits p n units s).err = s.err := by rw [landUnits_frame]
@[simp] theorem landUnits_rstLow (p : Pass) (n : Nat) (units : List Nat) (s : State) :
    (landUnits p n units s).rstLow = s.rstLow := by rw [landUnits_frame]
@[simp] theorem landUnits_picks (p : Pass) (n : Nat) (units : List Nat) (s : State) :
    (landUnits p n units s).picks = s.picks := by rw [landUnits_frame]
@[simp] theorem landUnits_raced (p : Pass) (n : Nat) (units : List Nat) (s : State) :
    (landUnits p n units s).raced = s.raced := by rw [landUnits_frame]

/-- A property of memory that storing any word of the units' outputs keeps, cutting a pass short keeps. -/
theorem landUnits_mem_induction {p : Pass} {n : Nat} {units : List Nat} {s : State} (P : Memory → Prop) (h0 : P s.mem)
    (hstep : ∀ u ∈ units, ∀ o ∈ p.outputs u, ∀ m v, P m → P (Memory.write32 m (p.outAddr o.r o.c) v)) :
    P (landUnits p n units s).mem := by
  induction units generalizing n s with
  | nil => exact h0
  | cons u us ih =>
    refine ih (runOutputs_mem_induction P h0 fun o ho => hstep u (by simp) o ?_) fun v hv => hstep v (by simp [hv])
    exact List.mem_of_mem_filter (List.mem_of_mem_filter ho)

/-- Which outputs cutting a pass short writes depends on the instance, the platform and the outputs already written only. -/
theorem State.landings_congr {s t : State} (p : Pass) (n : Nat) (units : List Nat) (hi : t.inst = s.inst) (hb : t.bus = s.bus)
    (hl : t.landed = s.landed) : t.landings p n units = s.landings p n units := by
  induction units generalizing n with
  | nil => rfl
  | cons u us ih => simp only [State.landings, State.pending, hi, hb, hl, ih]

/-- The outputs that cutting a pass short writes are outputs of its units. -/
theorem State.mem_landings {s : State} {p : Pass} {n : Nat} {units : List Nat} {o : Output}
    (h : o ∈ s.landings p n units) : ∃ u ∈ units, o ∈ p.outputs u := by
  induction units generalizing n with
  | nil => simp [State.landings] at h
  | cons u us ih =>
    rcases List.mem_append.1 h with h | h
    · exact ⟨u, by simp, List.mem_of_mem_filter (List.mem_of_mem_filter h)⟩
    · obtain ⟨v, hv, ho⟩ := ih h
      exact ⟨v, by simp [hv], ho⟩

/-- After a pass was cut short without a race, the word of an output that does not read the pass's own destination holds the
output's value if it is one of those written then, and is as it was if not (R129, R147). -/
theorem landUnits_word {p : Pass} {n : Nat} {units : List Nat} {s : State} (hrace : s.raced = [])
    (hm : Memory.wf s.mem) (hu : ∀ u ∈ units, u < p.units) {r c : Nat} (hr : r < p.h)
    (hcalm : p.readsOwnOutput s.inst r c = false) :
    ((∃ o ∈ s.landings p n units, o.r = r ∧ o.c = c) →
        Memory.read32 (landUnits p n units s).mem (p.outAddr r c) = p.value s.inst s.kw s.mem r c) ∧
      ((¬ ∃ o ∈ s.landings p n units, o.r = r ∧ o.c = c) →
        Memory.read32 (landUnits p n units s).mem (p.outAddr r c) = Memory.read32 s.mem (p.outAddr r c)) := by
  induction units generalizing n s with
  | nil => exact ⟨fun h => by simp [State.landings] at h, fun _ => rfl⟩
  | cons u us ih =>
    rw [landUnits, State.landings]
    have hsub : (p.landed s.inst s.bus (n % 4) (s.pending p u)).Sublist (p.outputs u) :=
      List.filter_sublist.trans List.filter_sublist
    generalize p.landed s.inst s.bus (n % 4) (s.pending p u) = outs at *
    have hin : ∀ o ∈ outs, o.r < p.h ∧ o.c < p.w := fun o ho =>
      p.outputs_in_range (hu u (by simp)) (hsub.subset ho)
    have hframe := runOutputs_frame p outs s
    obtain ⟨words, hw, hval, hmem⟩ := runOutputs_mem (p := p) (outs := outs) (s := s) hrace
      ((p.outputs_halves u).sublist hsub)
    have hfst : ∀ x ∈ words, x.1 ∈ outs := fun x hx => by rw [← hw]; exact List.mem_map_of_mem hx
    have hwf : Memory.wf (runOutputs p outs s).mem := by rw [hmem]; exact storeWords_wf hm
    have hout : ∀ a, ¬ p.InDest a → Memory.get (runOutputs p outs s).mem a = Memory.get s.mem a := by
      intro a ha
      rw [hmem, storeWords_get_other]
      intro x hx
      obtain ⟨h1, h2⟩ := hin _ (hfst x hx)
      have := p.outAddr_bounds h1 h2
      unfold Pass.InDest at ha
      omega
    have hi : (runOutputs p outs s).inst = s.inst := by rw [hframe]
    have hk : (runOutputs p outs s).kw = s.kw := by rw [hframe]
    have hv : p.value (runOutputs p outs s).inst (runOutputs p outs s).kw (runOutputs p outs s).mem r c =
        p.value s.inst s.kw s.mem r c := by
      rw [hi, hk]; exact Pass.value_congr hcalm hout
    have hnew : (∃ o ∈ outs, o.r = r ∧ o.c = c) →
        Memory.read32 (runOutputs p outs s).mem (p.outAddr r c) = p.value s.inst s.kw s.mem r c := by
      rintro ⟨o, ho, rfl, rfl⟩
      rw [← hw] at ho
      obtain ⟨x, hx, rfl⟩ := List.mem_map.1 ho
      rw [hmem, storeWords_read hm _ hx, hval x hx hcalm]
      have := (p.outputs_apart (hu u (by simp))).sublist hsub
      rw [← hw, List.pairwise_map] at this
      exact this
    have hold : (¬ ∃ o ∈ outs, o.r = r ∧ o.c = c) →
        Memory.read32 (runOutputs p outs s).mem (p.outAddr r c) = Memory.read32 s.mem (p.outAddr r c) := by
      intro hex
      rw [hmem]
      refine Memory.read32_congr fun l hl => storeWords_get_other fun x hx => ?_
      obtain ⟨h1, h2⟩ := hin _ (hfst x hx)
      have := p.outAddr_apart hr h1 (c := c) (c' := x.1.c) fun h => hex ⟨x.1, hfst x hx, h.1.symm, h.2.symm⟩
      omega
    have hrest := ih (n := n / 4) (s := runOutputs p outs s) (by rw [hframe]; exact hrace) hwf
      (fun v hv => hu v (by simp [hv])) (by rw [hi]; exact hcalm)
    rw [State.landings_congr p (n / 4) us hi (by rw [hframe]) (by rw [hframe]), hv] at hrest
    refine ⟨fun ⟨o, ho, hrc⟩ => ?_, fun hex => ?_⟩
    · by_cases hlater : ∃ o ∈ s.landings p (n / 4) us, o.r = r ∧ o.c = c
      · exact hrest.1 hlater
      · rw [hrest.2 hlater]
        refine hnew ⟨o, ?_, hrc⟩
        exact (List.mem_append.1 ho).resolve_right fun h => hlater ⟨o, h, hrc⟩
    · rw [hrest.2 fun ⟨o, ho, hrc⟩ => hex ⟨o, List.mem_append_right _ ho, hrc⟩]
      exact hold fun ⟨o, ho, hrc⟩ => hex ⟨o, List.mem_append_left _ ho, hrc⟩

/-- So each such word is as it was or holds the output's value. -/
theorem landUnits_old_or_new {p : Pass} {n : Nat} {units : List Nat} {s : State} (hrace : s.raced = [])
    (hm : Memory.wf s.mem) (hu : ∀ u ∈ units, u < p.units) {r c : Nat} (hr : r < p.h)
    (hcalm : p.readsOwnOutput s.inst r c = false) :
    Memory.read32 (landUnits p n units s).mem (p.outAddr r c) = Memory.read32 s.mem (p.outAddr r c) ∨
      Memory.read32 (landUnits p n units s).mem (p.outAddr r c) = p.value s.inst s.kw s.mem r c := by
  have h := landUnits_word (n := n) hrace hm hu hr hcalm
  by_cases hex : ∃ o ∈ s.landings p n units, o.r = r ∧ o.c = c
  · exact .inr (h.1 hex)
  · exact .inl (h.2 hex)

/-- Cutting a pass short leaves every byte outside its destination as it was. -/
theorem landUnits_outside {p : Pass} {n : Nat} {units : List Nat} {s : State} (hu : ∀ u ∈ units, u < p.units) {a : Nat}
    (ha : ¬ p.InDest a) : Memory.get (landUnits p n units s).mem a = Memory.get s.mem a := by
  refine landUnits_mem_induction (fun m => Memory.get m a = Memory.get s.mem a) rfl fun u hu' o ho m v hm => ?_
  obtain ⟨h1, h2⟩ := p.outputs_in_range (hu u hu') ho
  have := p.outAddr_bounds h1 h2
  unfold Pass.InDest at ha
  rw [Memory.get_write32_other _ _ (by omega), hm]

end Sys2Proof.Machine
end

