-- ==== Sys2Proof/Laws/Sequencer.lean ====
section
/-! SUPPORT. What a micro-step of the sequencer can do, said once, and how a pass whose requests are answered runs from its
first unit to its last (R63, R91, R105, R114). -/
namespace Sys2Proof.Machine

/-- Idle, a micro-step does nothing. -/
theorem tick_idle {s : State} (h : s.phase = .idle) : tick s = (s, .none) := by
  unfold tick; split <;> simp [h]

/-- With a request that is never answered, a micro-step does nothing (R160). -/
theorem tick_stalled {s : State} (h : s.stalled = true) : tick s = (s, .none) := by simp [tick, h]

/-- Idle, any number of micro-steps does nothing. -/
theorem advance_idle (n : Nat) {s : State} (h : s.phase = .idle) : advance n s = s := by
  induction n with
  | zero => rfl
  | succ n ih => rw [advance, tick_idle h, ih]

/-- With a request that is never answered, any number of micro-steps does nothing (R160). -/
theorem advance_stalled (n : Nat) {s : State} (h : s.stalled = true) : advance n s = s := by
  induction n with
  | zero => rfl
  | succ n ih => rw [advance, tick_stalled h, ih]

/-- Micro-steps add up. -/
theorem advance_add (m n : Nat) (s : State) : advance (m + n) s = advance n (advance m s) := by
  induction m generalizing s with
  | zero => rw [Nat.zero_add, advance]
  | succ m ih => rw [Nat.succ_add, advance, ih, advance]

/-- What every micro-step keeps, any number of micro-steps keeps. -/
theorem advance_induction {P : State → Prop} (hstep : ∀ s, P s → P (tick s).1) (n : Nat) {s : State} (h : P s) :
    P (advance n s) := by
  induction n generalizing s with
  | zero => exact h
  | succ n ih => exact ih (hstep s h)

/-- What a work unit `u` of a pass can do: all its requests are answered and its outputs are stored (R105), or the first
request `q` with a bad answer stalls the command (R160) or aborts it (R129) with some words of the units not done landed. -/
def UnitStep (s : State) (x : State × Event) : Prop :=
  ∃ u, u = s.todo.getD s.nextUnit 0 ∧
    ((((currentPass s).outputs u).flatMap ((currentPass s).badRequests s.inst s.bus) = [] ∧
        x = (runOutputs (currentPass s) ((currentPass s).outputs u) (takeUnit s), .none)) ∨
      ∃ q ∈ ((currentPass s).outputs u).flatMap ((currentPass s).badRequests s.inst s.bus), ∃ n t,
        t = landUnits (currentPass s) n (u :: (takeUnit s).todo) (takeUnit s).dropPick.dropPick ∧
          ((q.unanswered s.bus = true ∧
              x = (stallCommand (u :: (takeUnit s).todo)
                ((takeUnit s).dropPick.dropPick.landings (currentPass s) n (u :: (takeUnit s).todo)) t, .none)) ∨
            (q.unanswered s.bus = false ∧ x = (abortCommand q.code q.addr t, .err))))

/-- `UnitStep` says all that a work unit can do. -/
theorem runUnit_cases (s : State) : UnitStep s (runUnit s) := by
  refine ⟨_, rfl, ?_⟩
  unfold runUnit
  simp only [List.isEmpty_iff]
  split
  · rename_i hb
    exact .inl ⟨hb, rfl⟩
  · rename_i hb
    refine .inr ?_
    generalize hbad : ((currentPass s).outputs (s.todo.getD s.nextUnit 0)).flatMap
      ((currentPass s).badRequests s.inst s.bus) = bad at hb
    have hlen : 0 < bad.length := List.length_pos_iff.2 hb
    have hmem : bad.getD ((takeUnit s).nextPick % bad.length) (.read 0) ∈ bad := by
      rw [List.getD_eq_getElem _ _ (Nat.mod_lt _ hlen)]
      exact List.getElem_mem _
    refine ⟨_, hmem, (takeUnit s).dropPick.nextPick, _, rfl, ?_⟩
    unfold troubledUnit
    dsimp only
    split
    · rename_i hq
      exact .inl ⟨hq, rfl⟩
    · rename_i hq
      exact .inr ⟨by simpa using hq, rfl⟩

/-- Every micro-step of the sequencer is one of these four: nothing, the kernel write (R85), the end of a phase (R114,
R131), a work unit. -/
theorem tick_cases (s : State) :
    (tick s = (s, .none) ∧ (s.stalled = true ∨ s.phase = .idle)) ∨
    (tick s = (writeKernel s, .none) ∧ s.stalled = false ∧ s.phase = .kgen ∧ s.todo ≠ []) ∨
    (tick s = endPhase s ∧ s.stalled = false ∧ s.phase ≠ .idle ∧ s.todo = []) ∨
    (UnitStep s (tick s) ∧ s.stalled = false ∧ (s.phase = .pass1 ∨ s.phase = .pass2) ∧ s.todo ≠ []) := by
  by_cases hst : s.stalled = true
  · exact .inl ⟨tick_stalled hst, .inl hst⟩
  · have hst : s.stalled = false := by simpa using hst
    by_cases ht : s.todo = []
    · by_cases hph : s.phase = .idle
      · exact .inl ⟨tick_idle hph, .inr hph⟩
      · refine .inr (.inr (.inl ⟨?_, hst, hph, ht⟩))
        cases h : s.phase <;> simp_all [tick]
    · cases h : s.phase
      · exact .inl ⟨tick_idle h, .inr rfl⟩
      · exact .inr (.inl ⟨by simp [tick, hst, h, ht], hst, rfl, ht⟩)
      · have : tick s = runUnit s := by simp [tick, hst, h, ht]
        exact .inr (.inr (.inr ⟨this ▸ runUnit_cases s, hst, .inl rfl, ht⟩))
      · have : tick s = runUnit s := by simp [tick, hst, h, ht]
        exact .inr (.inr (.inr ⟨this ▸ runUnit_cases s, hst, .inr rfl, ht⟩))

/-- Successful completion changes BUSY, PHASE and DONE, and its races end with it (R131). -/
theorem completeCommand_frame (s : State) :
    completeCommand s = { s with phase := .idle, todo := [], done := true, raced := [], before := [] } := rfl

/-- An abort changes BUSY, PHASE, ERR and the error registers, and its races end with it (R129, R130). -/
theorem abortCommand_frame (c : ErrCode) (a : Nat) (s : State) :
    abortCommand c a s =
      { s with
        phase := .idle
        todo := []
        err := true
        errCode := if s.err then s.errCode else errCodeWord c s.latch.op s.latch.vw
        errAddr := if s.err then s.errAddr else errAddrWord c a
        raced := []
        before := [] } := by
  unfold abortCommand errorEntry
  rw [endRaces_err]
  cases h : s.err <;> simp [h, endRaces]

/-- A micro-step of the sequencer changes nothing of the instance, the registers the host writes, the latched context, the
platform, `rst_n` and the host's events. -/
theorem tick_frame (s : State) :
    (tick s).1 =
      { s with
        done := (tick s).1.done
        err := (tick s).1.err
        kvalid := (tick s).1.kvalid
        phase := (tick s).1.phase
        errCode := (tick s).1.errCode
        errAddr := (tick s).1.errAddr
        kw := (tick s).1.kw
        todo := (tick s).1.todo
        landed := (tick s).1.landed
        lo := (tick s).1.lo
        hi := (tick s).1.hi
        stalled := (tick s).1.stalled
        mem := (tick s).1.mem
        picks := (tick s).1.picks
        free := (tick s).1.free
        raced := (tick s).1.raced
        before := (tick s).1.before } := by
  rcases tick_cases s with ⟨h, -⟩ | ⟨h, -⟩ | ⟨h, -⟩ | ⟨⟨u, -, ⟨-, h⟩ | ⟨q, -, n, t, ht, ⟨-, h⟩ | ⟨-, h⟩⟩⟩, -⟩
  · rw [h]
  · rw [h]; rfl
  · rw [h]
    unfold endPhase
    split
    · rfl
    · split
      · rfl
      · rw [completeCommand_frame]
    · split
      · rfl
      · rw [completeCommand_frame]
    · rw [completeCommand_frame]
  · have hf := runOutputs_frame (currentPass s) ((currentPass s).outputs u) (takeUnit s)
    generalize runOutputs (currentPass s) ((currentPass s).outputs u) (takeUnit s) = v at *
    rw [h, hf]; rfl
  · have hf := landUnits_frame (currentPass s) n (u :: (takeUnit s).todo) (takeUnit s).dropPick.dropPick
    rw [← ht] at hf
    clear ht
    rw [h]
    unfold stallCommand
    rw [hf]; simp
  · have hf := landUnits_frame (currentPass s) n (u :: (takeUnit s).todo) (takeUnit s).dropPick.dropPick
    rw [← ht] at hf
    clear ht
    rw [h]
    dsimp only
    rw [abortCommand_frame, hf]; simp

/-- A reset cuts a running pass short, which changes the engine's halves, memory, choices and free values only. -/
theorem abandonPass_frame (s : State) :
    abandonPass s =
      { s with
        lo := (abandonPass s).lo
        hi := (abandonPass s).hi
        mem := (abandonPass s).mem
        picks := (abandonPass s).picks
        free := (abandonPass s).free } := by
  have key : ∀ n, landUnits (currentPass s) n s.todo s.dropPick =
      { s with
        lo := (landUnits (currentPass s) n s.todo s.dropPick).lo
        hi := (landUnits (currentPass s) n s.todo s.dropPick).hi
        mem := (landUnits (currentPass s) n s.todo s.dropPick).mem
        picks := (landUnits (currentPass s) n s.todo s.dropPick).picks
        free := (landUnits (currentPass s) n s.todo s.dropPick).free } := by
    intro n
    have hf := landUnits_frame (currentPass s) n s.todo s.dropPick
    generalize landUnits (currentPass s) n s.todo s.dropPick = v at *
    rw [hf]; simp
  unfold abandonPass
  split
  · rfl
  · rfl
  · exact key _
  · exact key _

/-- Any number of micro-steps changes nothing of the same. -/
theorem advance_frame (n : Nat) (s : State) :
    advance n s =
      { s with
        done := (advance n s).done
        err := (advance n s).err
        kvalid := (advance n s).kvalid
        phase := (advance n s).phase
        errCode := (advance n s).errCode
        errAddr := (advance n s).errAddr
        kw := (advance n s).kw
        todo := (advance n s).todo
        landed := (advance n s).landed
        lo := (advance n s).lo
        hi := (advance n s).hi
        stalled := (advance n s).stalled
        mem := (advance n s).mem
        picks := (advance n s).picks
        free := (advance n s).free
        raced := (advance n s).raced
        before := (advance n s).before } := by
  induction n generalizing s with
  | zero => rfl
  | succ n ih =>
    have h := ih (tick s).1
    rw [advance]
    generalize advance n (tick s).1 = u at *
    rw [h]
    have hf := tick_frame s
    generalize (tick s).1 = t at *
    rw [hf]

end Sys2Proof.Machine
end

