-- ==== Sys2Proof/Laws/PassRun.lean ====
section
/-! SUPPORT. A pass whose requests are answered and that races with nothing, from its first unit to its last, in whatever
order the units come (R63, R91, R105): every output is stored once with its value, and nothing else changes. -/
namespace Sys2Proof.Machine

/-- `s` is `s0` with some units of the pass `p` done: the words of the units still to do are as they were, the words of
the others hold their values (any value where an output reads the pass's own destination), and nothing else has changed
but the engine's halves, the choices and the free values used. -/
structure PassRun (p : Pass) (s0 s : State) : Prop where
  frame : s = { s0 with todo := s.todo, lo := s.lo, hi := s.hi, mem := s.mem, picks := s.picks, free := s.free }
  canonical : Memory.wf s.mem
  nodup : s.todo.Nodup
  inRange : ∀ u ∈ s.todo, u < p.units
  outside : ∀ a, ¬ p.InDest a → Memory.get s.mem a = Memory.get s0.mem a
  pending : ∀ u ∈ s.todo, ∀ o ∈ p.outputs u,
    Memory.read32 s.mem (p.outAddr o.r o.c) = Memory.read32 s0.mem (p.outAddr o.r o.c)
  stored : ∀ u < p.units, u ∉ s.todo → ∀ o ∈ p.outputs u, p.readsOwnOutput s0.inst o.r o.c = false →
    Memory.read32 s.mem (p.outAddr o.r o.c) = p.value s0.inst s0.kw s0.mem o.r o.c

/-- Nothing is done yet. -/
theorem PassRun.start {p : Pass} {s : State} (hm : Memory.wf s.mem) (ht : s.todo = List.range p.units) :
    PassRun p s s where
  frame := rfl
  canonical := hm
  nodup := ht ▸ List.nodup_range
  inRange := fun _ hu => List.mem_range.1 (ht ▸ hu)
  outside _ _ := rfl
  pending := fun _ _ _ _ => rfl
  stored := fun _ hu hn => absurd (ht ▸ List.mem_range.2 hu) hn

/-- Requests do not depend on which half an output uses. -/
theorem Pass.badRequests_half (inst : Params) (b : Bus) (p : Pass) (o : Output) :
    p.badRequests inst b o = p.badRequests inst b { upper := false, r := o.r, c := o.c } := rfl

/-- A unit of an answered pass has no request with a bad answer. -/
theorem Pass.Answered.unit {inst : Params} {b : Bus} {p : Pass} (h : p.Answered inst b) {u : Nat} (hu : u < p.units) :
    (p.outputs u).flatMap (p.badRequests inst b) = [] := by
  rw [List.flatMap_eq_nil_iff]
  intro o ho
  obtain ⟨hr, hc⟩ := p.outputs_in_range hu ho
  rw [Pass.badRequests_half]
  exact h _ hr _ hc

/-- The unit taken next is one of those still to do. -/
theorem nextUnit_mem {s : State} (h : s.todo ≠ []) : s.todo.getD s.nextUnit 0 ∈ s.todo := by
  have : s.nextUnit < s.todo.length := Nat.mod_lt _ (List.length_pos_iff.2 h)
  rw [List.getD_eq_getElem _ _ this]
  exact List.getElem_mem _

/-- Taking a unit leaves the others. -/
theorem mem_eraseIdx_iff {s : State} (h : s.todo ≠ []) (hn : s.todo.Nodup) (u : Nat) :
    u ∈ s.todo.eraseIdx s.nextUnit ↔ u ∈ s.todo ∧ u ≠ s.todo.getD s.nextUnit 0 := by
  have hlt : s.nextUnit < s.todo.length := Nat.mod_lt _ (List.length_pos_iff.2 h)
  rw [List.getD_eq_getElem _ _ hlt, ← hn.erase_getElem _ hlt, hn.mem_erase_iff, and_comm]

/-- The fields of a pass in progress that do not change. -/
theorem PassRun.same {p : Pass} {s0 s : State} (h : PassRun p s0 s) :
    s.phase = s0.phase ∧ s.latch = s0.latch ∧ s.inst = s0.inst ∧ s.bus = s0.bus ∧ s.kw = s0.kw ∧
      s.stalled = s0.stalled ∧ s.raced = s0.raced ∧ s.landed = s0.landed ∧ currentPass s = currentPass s0 := by
  have hf := h.frame
  refine ⟨?_, ?_, ?_, ?_, ?_, ?_, ?_, ?_, ?_⟩ <;> rw [hf]
  rfl

/-- A unit whose outputs are all stored, of a pass without a race, is done (R105). -/
theorem PassRun.unit {p : Pass} {s0 s : State} (h : PassRun p s0 s) (hrace : s0.raced = []) (hne : s.todo ≠ []) {u : Nat}
    (hunit : s.todo.getD s.nextUnit 0 = u)
    (h1 : Machine.tick s = (runOutputs p (p.outputs u) (takeUnit s), .none)) :
    PassRun p s0 (Machine.tick s).1 ∧ (Machine.tick s).2 = .none ∧
      (Machine.tick s).1.todo.length + 1 = s.todo.length := by
  obtain ⟨-, -, e3, -, e5, -, e7, -, -⟩ := h.same
  have hu : u < p.units := hunit ▸ h.inRange _ (nextUnit_mem hne)
  obtain ⟨words, hw, hval, hrun⟩ := runOutputs_mem (p := p) (s := takeUnit s)
    (by rw [takeUnit_raced, e7]; exact hrace) (p.outputs_halves u)
  rw [takeUnit_inst, takeUnit_kw, takeUnit_mem, e3, e5] at hval
  rw [takeUnit_mem] at hrun
  have hmem : (Machine.tick s).1.mem = storeWords p words s.mem := by rw [h1, hrun]
  have hfst : ∀ x ∈ words, x.1 ∈ p.outputs u := by
    intro x hx; rw [← hw]; exact List.mem_map_of_mem hx
  have htodo : (Machine.tick s).1.todo = s.todo.eraseIdx s.nextUnit := by
    rw [h1, runOutputs_frame]; rfl
  have hin : ∀ v, v ∈ s.todo.eraseIdx s.nextUnit ↔ v ∈ s.todo ∧ v ≠ u := by
    intro v; rw [← hunit]; exact mem_eraseIdx_iff hne h.nodup v
  have hsame : ∀ v < p.units, v ≠ u → ∀ o ∈ p.outputs v,
      Memory.read32 (storeWords p words s.mem) (p.outAddr o.r o.c) = Memory.read32 s.mem (p.outAddr o.r o.c) := by
    intro v hv hvu o ho
    obtain ⟨hr, hc⟩ := p.outputs_in_range hv ho
    refine Memory.read32_congr fun l hl => storeWords_get_other fun x hx => ?_
    obtain ⟨hr', hc'⟩ := p.outputs_in_range hu (hfst x hx)
    have := p.outAddr_apart hr hr' (c := o.c) (c' := x.1.c) fun hrc =>
      hvu (p.unit_unique ho (hfst x hx) hrc.1 hrc.2)
    omega
  refine ⟨⟨?_, ?_, ?_, ?_, ?_, ?_, ?_⟩, by rw [h1], ?_⟩
  · rw [h1, runOutputs_frame]
    have hf := h.frame
    unfold takeUnit State.dropPick
    rw [hf]
  · rw [hmem]; exact storeWords_wf h.canonical
  · rw [htodo]; exact h.nodup.sublist (List.eraseIdx_sublist _ _)
  · rw [htodo]; exact fun v hv => h.inRange v ((hin v).1 hv).1
  · intro a ha
    rw [hmem, storeWords_get_other, h.outside a ha]
    intro x hx
    obtain ⟨hr, hc⟩ := p.outputs_in_range hu (hfst x hx)
    have := p.outAddr_bounds hr hc
    unfold Pass.InDest at ha
    omega
  · intro v hv o ho
    rw [htodo, hin] at hv
    rw [hmem, hsame v (h.inRange v hv.1) hv.2 o ho, h.pending v hv.1 o ho]
  · intro v hv hn o ho hc
    rw [htodo, hin] at hn
    by_cases hvu : v = u
    · subst hvu
      have ho' : o ∈ words.map Prod.fst := by rw [hw]; exact ho
      obtain ⟨x, hx, rfl⟩ := List.mem_map.1 ho'
      have hpair : words.Pairwise fun a b =>
          p.outAddr a.1.r a.1.c + 4 ≤ p.outAddr b.1.r b.1.c ∨ p.outAddr b.1.r b.1.c + 4 ≤ p.outAddr a.1.r a.1.c := by
        have := p.outputs_apart hv
        rw [← hw, List.pairwise_map] at this
        exact this
      rw [hmem, storeWords_read h.canonical hpair hx, hval x hx hc]
      exact Pass.value_congr hc h.outside
    · have hn : v ∉ s.todo := fun hvt => hn ⟨hvt, hvu⟩
      rw [hmem, hsame v hv hvu o ho, h.stored v hv hn o ho hc]
  · have hpos := List.length_pos_iff.2 hne
    have hlt : s.nextUnit < s.todo.length := Nat.mod_lt _ hpos
    rw [htodo, List.length_eraseIdx_of_lt hlt]
    omega

/-- What a micro-step of a pass with units to do can do: the next unit is stored, or a request with a bad answer cuts the
pass short (R105, R129, R160). -/
theorem PassRun.next {p : Pass} {s0 s : State} (h : PassRun p s0 s) (hp : p = currentPass s0)
    (hph : s0.phase = .pass1 ∨ s0.phase = .pass2) (hst : s0.stalled = false) (hne : s.todo ≠ []) :
    ∃ u, s.todo.getD s.nextUnit 0 = u ∧
      (((p.outputs u).flatMap (p.badRequests s0.inst s0.bus) = [] ∧
          Machine.tick s = (runOutputs p (p.outputs u) (takeUnit s), .none)) ∨
        ∃ q ∈ (p.outputs u).flatMap (p.badRequests s0.inst s0.bus), ∃ n t,
          t = landUnits p n (u :: (takeUnit s).todo) (takeUnit s).dropPick.dropPick ∧
            (Machine.tick s = (stallCommand (u :: (takeUnit s).todo)
                ((takeUnit s).dropPick.dropPick.landings p n (u :: (takeUnit s).todo)) t, .none) ∨
              Machine.tick s = (abortCommand q.code q.addr t, .err))) := by
  obtain ⟨e1, -, e3, e4, -, e6, -, -, e8⟩ := h.same
  rw [← hp] at e8
  rcases tick_cases s with ⟨-, h1 | h1⟩ | ⟨-, -, h1, -⟩ | ⟨-, -, -, h1⟩ | ⟨⟨u, hu, h1⟩, -, -, -⟩
  · rw [e6, hst] at h1; exact absurd h1 (by simp)
  · rw [e1] at h1; rcases hph with h2 | h2 <;> rw [h2] at h1 <;> cases h1
  · rw [e1] at h1; rcases hph with h2 | h2 <;> rw [h2] at h1 <;> cases h1
  · exact absurd h1 hne
  rw [e8, e3, e4] at h1
  refine ⟨u, hu.symm, ?_⟩
  rcases h1 with h1 | ⟨q, hq, n, t, ht, ⟨-, h1⟩ | ⟨-, h1⟩⟩
  · exact .inl h1
  · exact .inr ⟨q, hq, n, t, ht, .inl h1⟩
  · exact .inr ⟨q, hq, n, t, ht, .inr h1⟩

/-- One micro-step of an answered pass without a race does one more unit (R105). -/
theorem PassRun.tick {p : Pass} {s0 s : State} (h : PassRun p s0 s) (hrace : s0.raced = []) (hp : p = currentPass s0)
    (hph : s0.phase = .pass1 ∨ s0.phase = .pass2) (hst : s0.stalled = false)
    (hans : p.Answered s0.inst s0.bus) (hne : s.todo ≠ []) :
    PassRun p s0 (Machine.tick s).1 ∧ (Machine.tick s).2 = .none ∧
      (Machine.tick s).1.todo.length + 1 = s.todo.length := by
  obtain ⟨u, hu, ⟨-, h1⟩ | ⟨q, hq, -⟩⟩ := h.next hp hph hst hne
  · exact h.unit hrace hne hu h1
  · rw [hans.unit (hu ▸ h.inRange _ (nextUnit_mem hne))] at hq
    simp at hq

/-- `s` holds the pass `p` begun at `s0` and cut short: every byte outside the destination is as it was, and every word of
it is old or, unless the output reads the pass's own destination, its output's value (R129, R147). -/
structure PassCut (p : Pass) (s0 s : State) : Prop where
  outside : ∀ a, ¬ p.InDest a → Memory.get s.mem a = Memory.get s0.mem a
  words : ∀ r < p.h, ∀ c < p.w, p.readsOwnOutput s0.inst r c = false →
    Memory.read32 s.mem (p.outAddr r c) = Memory.read32 s0.mem (p.outAddr r c) ∨
      Memory.read32 s.mem (p.outAddr r c) = p.value s0.inst s0.kw s0.mem r c

/-- A pass in progress is one cut short here. -/
theorem PassRun.cut {p : Pass} {s0 s : State} (h : PassRun p s0 s) : PassCut p s0 s where
  outside := h.outside
  words r hr c hc hcalm := by
    obtain ⟨u, hu, o, ho, rfl, rfl⟩ := p.unit_of hr hc
    by_cases ht : u ∈ s.todo
    · exact .inl (h.pending u ht o ho)
    · exact .inr (h.stored u hu ht o ho hcalm)

/-- Landing any units of a pass in progress without a race leaves it cut short (R129, R147). -/
theorem PassRun.landed {p : Pass} {s0 s t : State} (h : PassRun p s0 s) (hrace : s0.raced = []) {n : Nat}
    {units : List Nat} (hu : ∀ u ∈ units, u < p.units) (hm : t.mem = s.mem) (hr : t.raced = s.raced)
    (hi : t.inst = s.inst) (hk : t.kw = s.kw) : PassCut p s0 (landUnits p n units t) := by
  obtain ⟨-, -, e3, -, e5, -, e7, -, -⟩ := h.same
  refine ⟨fun a ha => ?_, fun r hr' c hc hcalm => ?_⟩
  · rw [landUnits_outside hu ha, hm, h.outside a ha]
  · rcases landUnits_old_or_new (n := n) (s := t) (by rw [hr, e7]; exact hrace) (by rw [hm]; exact h.canonical) hu hr'
        (by rw [hi, e3]; exact hcalm) with h1 | h1
    · rw [h1, hm]; exact h.cut.words r hr' c hc hcalm
    · rw [h1, hm, hi, hk, e3, e5]
      exact .inr (Pass.value_congr hcalm h.outside)

/-- R40's set at `s` is exact for the pass `p` begun at `s0`: the word of an output in it holds the output's value, and that of
one outside it is as it was (outputs that read the pass's own destination apart). -/
def WrittenExact (p : Pass) (s0 s : State) : Prop :=
  ∀ r < p.h, ∀ c < p.w, p.readsOwnOutput s0.inst r c = false →
    ((∃ o ∈ s.written, o.r = r ∧ o.c = c) →
        Memory.read32 s.mem (p.outAddr r c) = p.value s0.inst s0.kw s0.mem r c) ∧
      ((¬ ∃ o ∈ s.written, o.r = r ∧ o.c = c) →
        Memory.read32 s.mem (p.outAddr r c) = Memory.read32 s0.mem (p.outAddr r c))

/-- While a pass runs its set is exact (R40). -/
theorem PassRun.exact {p : Pass} {s0 s : State} (h : PassRun p s0 s) (hp : p = currentPass s0) (hl : s0.landed = []) :
    WrittenExact p s0 s := by
  obtain ⟨-, -, -, -, -, -, -, e8, e9⟩ := h.same
  intro r hr c hc hcalm
  obtain ⟨u, hu, o, ho, rfl, rfl⟩ := p.unit_of hr hc
  refine ⟨?_, fun hn => h.pending u ?_ o ho⟩
  · rintro ⟨o', ho', hrc⟩
    obtain ⟨v, hv, ho', hw⟩ := State.mem_written.1 ho'
    rw [e9, ← hp] at ho'
    rw [e8, hl] at hw
    have huv : v = u := p.unit_unique ho' ho hrc.1 hrc.2
    exact h.stored u hu (huv ▸ hw.resolve_right (by simp)) o ho hcalm
  · by_contra ht
    rw [hp, ← e9] at hu ho
    exact hn ⟨o, State.mem_written.2 ⟨u, hu, ho, .inl ht⟩, rfl, rfl⟩

/-- Where a request is never answered the set is exact too (R40, R160). -/
theorem PassRun.stall_exact {p : Pass} {s0 s : State} (h : PassRun p s0 s) (hrace : s0.raced = [])
    (hp : p = currentPass s0) {n : Nat} {units : List Nat} (hu : ∀ u, u ∈ units ↔ u ∈ s.todo)
    (todo picks : List Nat) :
    let t : State := { s with todo := todo, picks := picks }
    WrittenExact p s0 (stallCommand units (t.landings p n units) (landUnits p n units t)) := by
  intro t
  obtain ⟨-, -, e3, -, e5, -, e7, -, e9⟩ := h.same
  have hrange : ∀ u ∈ units, u < p.units := fun u h1 => h.inRange u ((hu u).1 h1)
  have hw : ∀ r c,
      (∃ o ∈ (stallCommand units (t.landings p n units) (landUnits p n units t)).written, o.r = r ∧ o.c = c) ↔
      ∃ u < p.units, ∃ o ∈ p.outputs u, o.r = r ∧ o.c = c ∧
        (u ∉ s.todo ∨ ∃ o' ∈ t.landings p n units, o'.r = r ∧ o'.c = c) := by
    have hcp : currentPass (stallCommand units (t.landings p n units) (landUnits p n units t)) = p := by
      rw [landUnits_frame, hp, ← e9]; rfl
    intro r c
    constructor
    · rintro ⟨o, ho, rfl, rfl⟩
      obtain ⟨u, hu', ho', h1⟩ := State.mem_written.1 ho
      rw [hcp] at hu' ho'
      refine ⟨u, hu', o, ho', rfl, rfl, h1.imp (fun h2 h3 => h2 ((hu u).2 h3)) fun h2 => ?_⟩
      obtain ⟨o', ho', he⟩ := List.mem_map.1 h2
      exact ⟨o', ho', congrArg Prod.fst he, congrArg Prod.snd he⟩
    · rintro ⟨u, hu', o, ho, rfl, rfl, h1⟩
      rw [← hcp] at hu' ho
      refine ⟨o, State.mem_written.2 ⟨u, hu', ho, h1.imp (fun h2 h3 => h2 ((hu u).1 h3)) ?_⟩, rfl, rfl⟩
      rintro ⟨o', ho', h2, h3⟩
      exact List.mem_map.2 ⟨o', ho', by rw [h2, h3]⟩
  intro r hr c hc hcalm
  rw [hw]
  have hmem : (stallCommand units (t.landings p n units) (landUnits p n units t)).mem = (landUnits p n units t).mem := rfl
  have hword := landUnits_word (n := n) (units := units) (s := t) (c := c) (e7.trans hrace) h.canonical
    hrange hr (by rw [show t.inst = s0.inst from e3]; exact hcalm)
  have hval : p.value t.inst t.kw t.mem r c = p.value s0.inst s0.kw s0.mem r c := by
    rw [show t.inst = s0.inst from e3, show t.kw = s0.kw from e5]; exact Pass.value_congr hcalm h.outside
  rw [hmem]
  rw [hval] at hword
  obtain ⟨v, hv, o, ho, rfl, rfl⟩ := p.unit_of hr hc
  by_cases hin : ∃ o' ∈ t.landings p n units, o'.r = o.r ∧ o'.c = o.c
  · exact ⟨fun _ => hword.1 hin, fun hn => absurd ⟨v, hv, o, ho, rfl, rfl, .inr hin⟩ hn⟩
  · rw [hword.2 hin]
    refine ⟨?_, fun hn => h.pending v ?_ o ho⟩
    · rintro ⟨u, -, o', ho', h1, h2, h3⟩
      have huv : u = v := p.unit_unique ho' ho h1 h2
      exact h.stored v hv (huv ▸ h3.resolve_right hin) o ho hcalm
    · by_contra hc'
      exact hn ⟨v, hv, o, ho, rfl, rfl, .inl hc'⟩

/-- `s` is `s0` with only what a pass changes while it runs changed. -/
def PassFrame (s0 s : State) : Prop :=
  s = { s0 with todo := s.todo, lo := s.lo, hi := s.hi, mem := s.mem, picks := s.picks, free := s.free }

/-- Where a pass without a race can be after any number of micro-steps, whatever the platform answers: in progress; stalled
or aborted with the pass cut short; or past its end (R105, R129, R131, R160). -/
inductive PassMoment (p : Pass) (s0 : State) : Nat → State → Prop where
  | running {n : Nat} {s : State} (h : PassRun p s0 s) : PassMoment p s0 n s
  | stalled {n : Nat} {t : State} (units : List Nat) (outs : List Output) (h : PassCut p s0 t) (hf : PassFrame s0 t)
    (hx : WrittenExact p s0 (stallCommand units outs t)) : PassMoment p s0 n (stallCommand units outs t)
  | aborted {n : Nat} {t : State} (c : ErrCode) (a : Nat) (h : PassCut p s0 t) (hf : PassFrame s0 t) :
    PassMoment p s0 n (abortCommand c a t)
  | ended {m n : Nat} {t : State} (h : PassRun p s0 t) (ht : t.todo = []) (hmn : m < n) :
    PassMoment p s0 n (Machine.advance m (endPhase t).1)

/-- Every number of micro-steps of a pass without a race leads to one of these moments. -/
theorem PassRun.moments {p : Pass} {s0 s : State} (h : PassRun p s0 s) (hrace : s0.raced = []) (hp : p = currentPass s0)
    (hph : s0.phase = .pass1 ∨ s0.phase = .pass2) (hst : s0.stalled = false) (n : Nat) :
    PassMoment p s0 n (Machine.advance n s) := by
  induction n generalizing s with
  | zero => exact .running h
  | succ n ih =>
    have grow : ∀ x, PassMoment p s0 n x → PassMoment p s0 (n + 1) x := by
      rintro x (h | ⟨_, _, h, hf, hx⟩ | ⟨c, a, h, hf⟩ | ⟨h, ht, hmn⟩)
      · exact .running h
      · exact .stalled _ _ h hf hx
      · exact .aborted c a h hf
      · exact .ended h ht (by omega)
    obtain ⟨e1, -, -, -, -, e6, -, -, -⟩ := h.same
    rw [Machine.advance]
    by_cases hne : s.todo = []
    · have : Machine.tick s = endPhase s := by
        rw [← e1] at hph
        rcases hph with h1 | h1 <;> simp [Machine.tick, e6, hst, h1, hne]
      rw [this]
      exact .ended h hne (by omega)
    · obtain ⟨u, hu, ⟨-, h1⟩ | ⟨q, -, k, t, ht, h1⟩⟩ := h.next hp hph hst hne
      · exact grow _ (ih (h.unit hrace hne hu h1).1)
      · have hcut : PassCut p s0 t := by
          rw [ht]
          refine h.landed hrace (fun v hv => ?_) rfl rfl rfl rfl
          rcases List.mem_cons.1 hv with rfl | hv
          · exact hu ▸ h.inRange _ (nextUnit_mem hne)
          · exact h.inRange v ((List.eraseIdx_sublist _ _).subset hv)
        have hframe : PassFrame s0 t := by
          have hf := landUnits_frame p k (u :: (takeUnit s).todo) (takeUnit s).dropPick.dropPick
          rw [← ht] at hf
          have h0 := h.frame
          unfold PassFrame
          clear ht hcut h1
          rw [hf]
          unfold takeUnit State.dropPick
          rw [h0]
        rcases h1 with h1 | h1 <;> rw [h1]
        · rw [advance_stalled n rfl]
          refine .stalled _ _ hcut hframe ?_
          rw [ht]
          refine h.stall_exact hrace hp (fun v => ?_) (takeUnit s).todo s.picks.tail.tail.tail
          have := mem_eraseIdx_iff hne h.nodup v
          rw [List.mem_cons, takeUnit_todo, this, hu]
          by_cases hv : v = u
          · subst hv; simp [hu ▸ nextUnit_mem hne]
          · simp [hv]
        · have : (abortCommand q.code q.addr t).phase = .idle := rfl
          rw [advance_idle n this]
          exact .aborted _ _ hcut hframe

/-- The micro-steps of a whole answered pass without a race do all its units (R105). -/
theorem PassRun.advance {p : Pass} {s0 s : State} (h : PassRun p s0 s) (hrace : s0.raced = []) (hp : p = currentPass s0)
    (hph : s0.phase = .pass1 ∨ s0.phase = .pass2) (hst : s0.stalled = false)
    (hans : p.Answered s0.inst s0.bus) :
    PassRun p s0 (Machine.advance s.todo.length s) ∧ (Machine.advance s.todo.length s).todo = [] := by
  generalize hn : s.todo.length = n
  induction n generalizing s with
  | zero => exact ⟨h, List.length_eq_zero_iff.1 hn⟩
  | succ n ih =>
    have hne : s.todo ≠ [] := by
      intro h0; rw [h0] at hn; simp at hn
    obtain ⟨h1, -, h2⟩ := h.tick hrace hp hph hst hans hne
    exact ih h1 (by omega)

/-- A pass that is done: every output has its value, unless it reads the pass's own destination, and every byte outside
the destination is as it was (R104, R105, R109). -/
theorem PassRun.finished {p : Pass} {s0 s : State} (h : PassRun p s0 s) (ht : s.todo = []) :
    (∀ r < p.h, ∀ c < p.w, p.readsOwnOutput s0.inst r c = false →
        Memory.read32 s.mem (p.outAddr r c) = p.value s0.inst s0.kw s0.mem r c) ∧
      ∀ a, ¬ p.InDest a → Memory.get s.mem a = Memory.get s0.mem a := by
  refine ⟨fun r hr c hc hcalm => ?_, h.outside⟩
  obtain ⟨u, hu, o, ho, rfl, rfl⟩ := p.unit_of hr hc
  exact h.stored u hu (by rw [ht]; simp) o ho hcalm

end Sys2Proof.Machine
end

