-- ==== Sys2Proof/Laws/PerInstr.lean ====
section
/-! SUPPORT. What holds of each instruction as syntax: the register write that presents it (R72, R73, R75, R117). -/

/-- A well-formed instruction is presented by a command word without reserved bits and with a legal OP written to CMD, or
by a word with bit 0 = 1 written to CTRL. -/
def Sys2Proof.Laws.CommandWord.Statement (i : Sys2Proof.Instr) : Prop :=
  i.wf = true →
    ((Sys2Proof.encode i).1 = Sys2Proof.cmdOffset ∧ Sys2Proof.rsvField (Sys2Proof.encode i).2 = 0 ∧
        (Sys2Proof.opField (Sys2Proof.encode i).2).toNat ≤ 3) ∨
      ((Sys2Proof.encode i).1 = Sys2Proof.ctrlOffset ∧ (Sys2Proof.encode i).2.getLsbD 0 = true)

theorem Sys2Proof.Laws.CommandWord.nop (vw : Bool) : Sys2Proof.Laws.CommandWord.Statement (.nop vw) :=
  fun _ => .inl (by cases vw <;> decide)

theorem Sys2Proof.Laws.CommandWord.kgen (vw : Bool) : Sys2Proof.Laws.CommandWord.Statement (.kgen vw) :=
  fun _ => .inl (by cases vw <;> decide)

theorem Sys2Proof.Laws.CommandWord.hpassV128 : Sys2Proof.Laws.CommandWord.Statement .hpassV128 :=
  fun _ => .inl (by decide)

theorem Sys2Proof.Laws.CommandWord.hpassV256 : Sys2Proof.Laws.CommandWord.Statement .hpassV256 :=
  fun _ => .inl (by decide)

theorem Sys2Proof.Laws.CommandWord.blurV128 : Sys2Proof.Laws.CommandWord.Statement .blurV128 :=
  fun _ => .inl (by decide)

theorem Sys2Proof.Laws.CommandWord.blurV256 : Sys2Proof.Laws.CommandWord.Statement .blurV256 :=
  fun _ => .inl (by decide)

theorem Sys2Proof.Laws.CommandWord.srst (ctrl : Sys2Proof.Word) : Sys2Proof.Laws.CommandWord.Statement (.srst ctrl) :=
  fun h => .inr ⟨rfl, h⟩
end

