-- ==== Sys2Proof/Laws/Races.lean ====
section
/-! SUPPORT. What a host's race with the running command can change (R67): the bytes its store leaves, the words that take
any value at once, and those that take it when the engine stores them. -/
namespace Sys2Proof.Machine

/-! Which bytes race. -/

/-- The destination of the latched command, as a property (R52). -/
theorem State.inDestination_iff (s : State) (b : Nat) : s.inDestination b = true ↔ (firstPass s.latch).InDest b := by
  simp only [State.inDestination, Pass.InDest, decide_eq_true_eq]

/-- The source of the latched command is what a BLUR's second pass writes (R114). -/
theorem State.inSource_iff (s : State) (b : Nat) : s.inSource b = true ↔ (secondPass s.latch).InDest b := by
  rw [State.inSource, decide_eq_true_iff]
  simp only [Pass.InDest, Pass.bytes, firstPass, secondPass, Nat.mul_comm s.latch.h.toNat]

/-- A host store races on the bytes of both buffers while an HPASS or a BLUR runs (R67). -/
theorem State.storeRaces_iff (s : State) (b : Nat) :
    s.storeRaces b = true ↔ s.busy = true ∧ (s.latch.op = 2 ∨ s.latch.op = 3) ∧
      ((firstPass s.latch).InDest b ∨ (secondPass s.latch).InDest b) := by
  rw [← State.inDestination_iff, ← State.inSource_iff]
  simp only [State.storeRaces, State.usesBuffers, Bool.and_eq_true, Bool.or_eq_true, decide_eq_true_eq]
  tauto

/-- A host load races on the bytes of the destination while an HPASS runs, of both buffers while a BLUR does (R67). -/
theorem State.loadRaces_iff (s : State) (b : Nat) :
    s.loadRaces b = true ↔ s.busy = true ∧
      (s.latch.op = 2 ∧ (firstPass s.latch).InDest b ∨
        s.latch.op = 3 ∧ ((firstPass s.latch).InDest b ∨ (secondPass s.latch).InDest b)) := by
  rw [← State.inDestination_iff, ← State.inSource_iff]
  simp only [State.loadRaces, State.usesBuffers, Bool.and_eq_true, Bool.or_eq_true, decide_eq_true_eq]
  constructor
  · rintro ⟨⟨h1, h2 | h2⟩, h3⟩ <;> simp_all
  · rintro ⟨h1, ⟨h2, h3⟩ | ⟨h2, h3⟩⟩
    · exact ⟨⟨h1, .inl h2⟩, .inl h3⟩
    · exact ⟨⟨h1, .inr h2⟩, h3.imp id fun h => ⟨h2, h⟩⟩

/-! Freed words. -/

/-- Freeing words changes memory and draws free values only. -/
theorem freeWords_frame (addrs : List Nat) (s : State) :
    freeWords addrs s = { s with mem := (freeWords addrs s).mem, free := (freeWords addrs s).free } := by
  unfold freeWords
  induction addrs generalizing s with
  | nil => rfl
  | cons a addrs ih => rw [List.foldl_cons, ih]; rfl

/-- A property of memory that storing any of the words keeps, freeing them keeps. -/
theorem freeWords_mem_induction {addrs : List Nat} {s : State} (P : Memory → Prop) (h0 : P s.mem)
    (hstep : ∀ a ∈ addrs, ∀ m v, P m → P (Memory.write32 m a v)) : P (freeWords addrs s).mem := by
  induction addrs generalizing s with
  | nil => exact h0
  | cons a addrs ih =>
    exact ih (s := storeFree a s) (hstep a (by simp) _ _ h0)
      fun x hx => hstep x (by simp [hx])

/-- Freeing words leaves a byte outside all of them alone. -/
theorem freeWords_get_other {addrs : List Nat} {s : State} {b : Nat} (h : ∀ a ∈ addrs, b < a ∨ a + 4 ≤ b) :
    Memory.get (freeWords addrs s).mem b = Memory.get s.mem b :=
  freeWords_mem_induction (fun m => Memory.get m b = Memory.get s.mem b) rfl fun a ha m v hm => by
    rw [Memory.get_write32_other _ _ (h a ha), hm]

/-- The counter of free values only grows. -/
theorem freeWords_free_le (addrs : List Nat) (s : State) : s.free ≤ (freeWords addrs s).free := by
  induction addrs generalizing s with
  | nil => exact le_rfl
  | cons a addrs ih =>
    exact le_trans (Nat.le_succ _) (ih (storeFree a s))

/-- Each freed word reads as a free value of its own, where no two of the words overlap in part. -/
theorem freeWords_read {addrs : List Nat} {s : State} (hm : Memory.wf s.mem) {a : Nat} (ha : a ∈ addrs)
    (hap : ∀ x ∈ addrs, x = a ∨ a + 4 ≤ x ∨ x + 4 ≤ a) :
    ∃ k, s.free ≤ k ∧ Memory.read32 (freeWords addrs s).mem a = Config.freeWord k := by
  induction addrs generalizing s with
  | nil => simp at ha
  | cons x addrs ih =>
    have hm' : Memory.wf (storeFree x s).mem :=
      Memory.wf_write32 hm _ _
    by_cases hin : a ∈ addrs
    · obtain ⟨k, hk, hr⟩ := ih hm' hin fun y hy => hap y (by simp [hy])
      exact ⟨k, le_trans (Nat.le_succ _) hk, hr⟩
    · have hxa : x = a := by
        rcases List.mem_cons.1 ha with h | h
        · exact h.symm
        · exact absurd h hin
      subst hxa
      refine ⟨s.free, le_rfl, ?_⟩
      have : Memory.read32 (freeWords addrs (storeFree x s)).mem x =
          Memory.read32 (Memory.write32 s.mem x s.freeWord) x :=
        Memory.read32_congr fun l hl => freeWords_get_other fun y hy => by
          rcases hap y (by simp [hy]) with rfl | h | h
          · exact absurd hy hin
          · omega
          · omega
      exact this.trans (Memory.read32_write32_same hm _ _)

/-! Stored bytes. -/

/-- A property of memory that storing any of the four bytes keeps, storing some of them keeps. -/
theorem storeBytes_induction {lands : Nat → Bool} {a : Nat} {v : Word} {m : Memory} (P : Memory → Prop) (h0 : P m)
    (hstep : ∀ l < 4, lands l = true → ∀ n b, P n → P (Memory.set n (a + l) b)) : P (storeBytes lands a v m) := by
  have key : ∀ (ls : List Nat), (∀ l ∈ ls, l < 4) → ∀ n, P n →
      P (ls.foldl (fun m l => if lands l then Memory.set m (a + l) (v.extractLsb' (8 * l) 8) else m) n) := by
    intro ls
    induction ls with
    | nil => exact fun _ n hn => hn
    | cons l ls ih =>
      intro hl n hn
      refine ih (fun x hx => hl x (by simp [hx])) _ ?_
      dsimp only
      split
      · exact hstep l (hl l (by simp)) (by assumption) _ _ hn
      · exact hn
  exact key _ (fun l hl => List.mem_range.1 hl) _ h0

/-- Storing some bytes of a word keeps the canonical form. -/
theorem storeBytes_wf (lands : Nat → Bool) (a : Nat) (v : Word) {m : Memory} (hm : Memory.wf m) :
    Memory.wf (storeBytes lands a v m) :=
  storeBytes_induction _ hm fun _ _ _ _ _ hn => Memory.wf_set hn _ _

/-- Storing some bytes of a word inside a space of `n` bytes lists no address outside it. -/
theorem storeBytes_in_space {lands : Nat → Bool} {m : Memory} {n a : Nat} (v : Word) (hm : ∀ c ∈ m, c.1 < n)
    (ha : a + 4 ≤ n) : ∀ c ∈ storeBytes lands a v m, c.1 < n :=
  storeBytes_induction (fun m => ∀ c ∈ m, c.1 < n) hm fun l hl _ m b hm c hc => by
    rcases Memory.mem_set hc with hc | ⟨rfl, -⟩
    · exact hm c hc
    · simp only; omega

/-- Storing some bytes of a word leaves every byte outside it alone. -/
theorem storeBytes_get_other (lands : Nat → Bool) {a b : Nat} (v : Word) (m : Memory) (h : b < a ∨ a + 4 ≤ b) :
    Memory.get (storeBytes lands a v m) b = Memory.get m b :=
  storeBytes_induction (fun n => Memory.get n b = Memory.get m b) rfl fun l hl _ n x hn => by
    rw [Memory.get_set_other _ _ (by omega), hn]

/-- Of the four bytes, those that land hold the stored byte and the others what they held. -/
theorem storeBytes_get (lands : Nat → Bool) (a : Nat) (v : Word) {m : Memory} (hm : Memory.wf m) {l : Nat} (hl : l < 4) :
    Memory.get (storeBytes lands a v m) (a + l) =
      if lands l then v.extractLsb' (8 * l) 8 else Memory.get m (a + l) := by
  have hset : ∀ n, Memory.wf n → ∀ i < 4, ∀ b,
      Memory.get (if lands i then Memory.set n (a + i) b else n) (a + l) =
        if i = l ∧ lands l then b else Memory.get n (a + l) := by
    intro n hn i hi b
    by_cases hil : i = l
    · subst hil
      cases lands i
      · simp
      · simp [Memory.get_set_same hn]
    · rw [if_neg (c := i = l ∧ lands l = true) fun h => hil h.1]
      split
      · rw [Memory.get_set_other _ _ (by omega)]
      · rfl
  have hwf : ∀ n, Memory.wf n → ∀ i b, Memory.wf (if lands i then Memory.set n (a + i) b else n) := by
    intro n hn i b
    split
    · exact Memory.wf_set hn _ _
    · exact hn
  simp only [storeBytes, List.range, List.range.loop, List.foldl_cons, List.foldl_nil]
  have h0 := hwf m hm 0 (v.extractLsb' (8 * 0) 8)
  have h1 := hwf _ h0 1 (v.extractLsb' (8 * 1) 8)
  have h2 := hwf _ h1 2 (v.extractLsb' (8 * 2) 8)
  rw [hset _ h2 3 (by omega), hset _ h1 2 (by omega), hset _ h0 1 (by omega), hset _ hm 0 (by omega)]
  interval_cases l <;> simp

/-! The words a race leaves open. -/

/-- An open word is the word of one of the outputs, with one of the words among its taps (R67). -/
theorem Pass.mem_openWords {inst : Params} {p : Pass} {outs : List Output} {words : List Nat} {a : Nat} :
    a ∈ p.openWords inst outs words ↔
      ∃ o ∈ outs, p.dependsOn inst words o.r o.c = true ∧ p.outAddr o.r o.c = a := by
  simp only [Pass.openWords, List.mem_map, List.mem_filter]
  tauto

/-- An open word of outputs of a pass lies in its destination. -/
theorem Pass.openWords_bounds {inst : Params} {p : Pass} {outs : List Output} {words : List Nat}
    (hu : ∀ o ∈ outs, ∃ u < p.units, o ∈ p.outputs u) {a : Nat} (h : a ∈ p.openWords inst outs words) :
    p.dst ≤ a ∧ a + 4 ≤ p.dst + p.bytes := by
  obtain ⟨o, ho, -, rfl⟩ := Pass.mem_openWords.1 h
  obtain ⟨u, hu', ho⟩ := hu o ho
  obtain ⟨hr, hc⟩ := p.outputs_in_range hu' ho
  exact p.outAddr_bounds hr hc

/-- What a race opens at once lies in the destination of the first pass or, in PASS2, of the second. -/
theorem State.dependents_bounds {s : State} {words : List Nat} {a : Nat} (h : a ∈ s.dependents words) :
    (s.phase = .pass1 ∨ s.phase = .pass2) ∧
        (firstPass s.latch).dst ≤ a ∧ a + 4 ≤ (firstPass s.latch).dst + (firstPass s.latch).bytes ∨
      s.phase = .pass2 ∧
        (secondPass s.latch).dst ≤ a ∧ a + 4 ≤ (secondPass s.latch).dst + (secondPass s.latch).bytes := by
  have hw : ∀ o ∈ s.written, ∃ u < (currentPass s).units, o ∈ (currentPass s).outputs u := fun o ho => by
    obtain ⟨u, hu, ho, -⟩ := State.mem_written.1 ho
    exact ⟨u, hu, ho⟩
  unfold State.dependents at h
  split at h
  · simp at h
  · simp at h
  · rename_i hp
    rw [currentPass, hp] at hw
    exact .inl ⟨.inl hp, Pass.openWords_bounds hw h⟩
  · rename_i hp
    rw [currentPass, hp] at hw
    rcases List.mem_append.1 h with h | h
    · exact .inl ⟨.inr hp, Pass.openWords_bounds (fun o ho => Pass.mem_allOutputs.1 ho) h⟩
    · exact .inr ⟨hp, Pass.openWords_bounds hw h⟩

/-- A racing store changes memory, the races, the open choices and the free values only. -/
theorem racingStore_frame (a : Nat) (v : Word) (s : State) :
    racingStore a v s =
      { s with
        mem := (racingStore a v s).mem
        raced := (racingStore a v s).raced
        picks := s.picks.tail
        free := (racingStore a v s).free } := by
  unfold racingStore
  dsimp only
  have hf := freeWords_frame (s.dependents ((s.newRaces a).map (·.word))) s.dropPick
  generalize freeWords (s.dependents ((s.newRaces a).map (·.word))) s.dropPick = t at *
  rw [hf]
  simp

/-! Outputs stored later. -/

/-- Storing an output that is open: its word holds a free value, unless a race has left it the host's (R67, R109). -/
theorem storeOutput_open {p : Pass} {o : Output} {s : State} (h : s.outputIsOpen p o = true) :
    (s.keepsHostWord (p.outAddr o.r o.c) = true ∧ storeOutput p o s = s) ∨
      (s.keepsHostWord (p.outAddr o.r o.c) = false ∧
        storeOutput p o s = storeFree (p.outAddr o.r o.c) s) := by
  cases hk : s.keepsHostWord (p.outAddr o.r o.c)
  · exact .inr ⟨rfl, by simp [storeOutput, hk, h]⟩
  · exact .inl ⟨rfl, by simp [storeOutput, hk]⟩

/-- Which outputs are open, and which words keep the host's value, depends on the races, the phase, the latched context and
the instance only. -/
theorem State.races_congr {s t : State} (h1 : t.raced = s.raced) (h2 : t.phase = s.phase) (h3 : t.latch = s.latch)
    (h4 : t.inst = s.inst) :
    (∀ p o, t.outputIsOpen p o = s.outputIsOpen p o) ∧ ∀ a, t.keepsHostWord a = s.keepsHostWord a := by
  unfold State.outputIsOpen State.tainted State.taint State.keepsHostWord
  rw [h1, h2, h3, h4]
  exact ⟨fun _ _ => rfl, fun _ => rfl⟩

/-- Running outputs of one unit: the word of each that is open holds a free value, unless a race has left it the host's,
which it keeps (R67). -/
theorem runOutputs_open {p : Pass} {outs : List Output} {s : State} (hm : Memory.wf s.mem)
    (hap : outs.Pairwise fun a b =>
      p.outAddr a.r a.c + 4 ≤ p.outAddr b.r b.c ∨ p.outAddr b.r b.c + 4 ≤ p.outAddr a.r a.c)
    {o : Output} (ho : o ∈ outs) (hopen : s.outputIsOpen p o = true) :
    (s.keepsHostWord (p.outAddr o.r o.c) = true ∧
        Memory.read32 (runOutputs p outs s).mem (p.outAddr o.r o.c) = Memory.read32 s.mem (p.outAddr o.r o.c)) ∨
      ∃ k, s.free ≤ k ∧ Memory.read32 (runOutputs p outs s).mem (p.outAddr o.r o.c) = Config.freeWord k := by
  have hother : ∀ (l : List Output) (t : State), (∀ x ∈ l,
      p.outAddr o.r o.c + 4 ≤ p.outAddr x.r x.c ∨ p.outAddr x.r x.c + 4 ≤ p.outAddr o.r o.c) →
      Memory.read32 (l.foldl (fun s o => storeOutput p o s) t).mem (p.outAddr o.r o.c) =
        Memory.read32 t.mem (p.outAddr o.r o.c) := by
    intro l
    induction l with
    | nil => exact fun _ _ => rfl
    | cons x l ih =>
      intro t h
      rw [List.foldl_cons, ih _ fun y hy => h y (by simp [hy])]
      have hx := h x (by simp)
      unfold storeOutput
      split
      · rfl
      · split <;> exact Memory.read32_write32_other _ _ hx
  have hmain : ∀ (l : List Output) (t : State), (l.Pairwise fun a b =>
      p.outAddr a.r a.c + 4 ≤ p.outAddr b.r b.c ∨ p.outAddr b.r b.c + 4 ≤ p.outAddr a.r a.c) → o ∈ l →
      Memory.wf t.mem → t.outputIsOpen p o = true →
      (t.keepsHostWord (p.outAddr o.r o.c) = true ∧
          Memory.read32 (l.foldl (fun s o => storeOutput p o s) t).mem (p.outAddr o.r o.c) =
            Memory.read32 t.mem (p.outAddr o.r o.c)) ∨
        ∃ k, t.free ≤ k ∧
          Memory.read32 (l.foldl (fun s o => storeOutput p o s) t).mem (p.outAddr o.r o.c) = Config.freeWord k := by
    intro l
    induction l with
    | nil => intro t _ h; simp at h
    | cons x l ih =>
      intro t hp hol hwf ht
      obtain ⟨hx, hp⟩ := List.pairwise_cons.1 hp
      rw [List.foldl_cons]
      by_cases hol' : o ∈ l
      · have hf := storeOutput_frame p x t
        have hc := State.races_congr (s := t) (t := storeOutput p x t) (by rw [hf]) (by rw [hf]) (by rw [hf])
          (by rw [hf])
        have hmem : Memory.wf (storeOutput p x t).mem ∧ t.free ≤ (storeOutput p x t).free ∧
            Memory.read32 (storeOutput p x t).mem (p.outAddr o.r o.c) = Memory.read32 t.mem (p.outAddr o.r o.c) := by
          have hap := (hx o hol').symm
          unfold storeOutput
          split
          · exact ⟨hwf, le_rfl, rfl⟩
          · split
            · exact ⟨Memory.wf_write32 hwf _ _, Nat.le_succ _, Memory.read32_write32_other _ _ hap⟩
            · exact ⟨Memory.wf_write32 hwf _ _, le_rfl, Memory.read32_write32_other _ _ hap⟩
        rcases ih (storeOutput p x t) hp hol' hmem.1 (by rw [hc.1]; exact ht) with ⟨h1, h2⟩ | ⟨k, hk, h2⟩
        · exact .inl ⟨by rw [← hc.2]; exact h1, by rw [h2, hmem.2.2]⟩
        · exact .inr ⟨k, hmem.2.1.trans hk, h2⟩
      · have hxo : o = x := by
          rcases List.mem_cons.1 hol with h | h
          · exact h
          · exact absurd h hol'
        subst hxo
        rw [hother l _ fun y hy => hx y hy]
        rcases storeOutput_open ht with ⟨h1, h2⟩ | ⟨-, h2⟩
        · exact .inl ⟨h1, by rw [h2]⟩
        · exact .inr ⟨t.free, le_rfl, by rw [h2]; exact Memory.read32_write32_same hwf _ _⟩
  have hl := loadAll_frame p outs s
  have hc := State.races_congr (s := s) (t := outs.foldl (fun s o => loadOutput p o s) s) (by rw [hl]) (by rw [hl])
    (by rw [hl]) (by rw [hl])
  have hmem : (outs.foldl (fun s o => loadOutput p o s) s).mem = s.mem := by rw [hl]
  have hfree : (outs.foldl (fun s o => loadOutput p o s) s).free = s.free := by rw [hl]
  have := hmain outs (outs.foldl (fun s o => loadOutput p o s) s) hap ho (by rw [hmem]; exact hm)
    (by rw [hc.1]; exact hopen)
  rw [hc.2, hmem, hfree] at this
  exact this

end Sys2Proof.Machine
end

