-- ==== Sys2Proof/Tests/Slice0.lean ====
section
/-! SUPPORT. Tests: words written out from the spec's encodings, ill-formed terms, one or two steps per instruction with the
results spec/95_test_vectors.md gives, and for each statement with hypotheses a state that meets them. -/
namespace Sys2Proof.Tests
open Sys2Proof.Machine

/-! ## Decoding: words from R72 to R74 and R117, bits 31..5 RSV, bit 4 VW, bits 3..0 OP -/

theorem test_decode_nop :
    decode 0x00C 0b00000000000000000000000000000000#32 = some (.nop false) ∧
      decode 0x00C 0b00000000000000000000000000010000#32 = some (.nop true) := by decide

theorem test_decode_kgen :
    decode 0x00C 0b00000000000000000000000000000001#32 = some (.kgen false) ∧
      decode 0x00C 0b00000000000000000000000000010001#32 = some (.kgen true) := by decide

theorem test_decode_hpass :
    decode 0x00C 0b00000000000000000000000000000010#32 = some .hpassV128 ∧
      decode 0x00C 0b00000000000000000000000000010010#32 = some .hpassV256 := by decide

theorem test_decode_blur :
    decode 0x00C 0b00000000000000000000000000000011#32 = some .blurV128 ∧
      decode 0x00C 0b00000000000000000000000000010011#32 = some .blurV256 := by decide

/-- Bit 0 of CTRL; bits 31..1 are ignored (R24). -/
theorem test_decode_srst :
    decode 0x008 0b00000000000000000000000000000001#32 = some (.srst 1) ∧
      decode 0x008 0b10000000000000000000000000000001#32 = some (.srst 0x80000001) ∧
      decode 0x008 0b10000000000000000000000000000000#32 = none := by decide

/-- E-1 to E-4: OP 4, OP F, RSV bit 31, RSV bit 5. -/
theorem test_decode_illegal :
    decode 0x00C 0x00000004 = none ∧ decode 0x00C 0x0000001F = none ∧ decode 0x00C 0x80000003 = none ∧
      decode 0x00C 0x00000020 = none := by decide

/-- The words of the table, as the host numbers them: KGEN's word is also one SRST's row matches (log 8). -/
theorem test_decode_table :
    decodeTableWord 32 0x00 = some (.nop false) ∧ decodeTableWord 32 0x01 = some (.kgen false) ∧
      decodeTableWord 32 0x02 = some .hpassV128 ∧ decodeTableWord 32 0x12 = some .hpassV256 ∧
      decodeTableWord 32 0x03 = some .blurV128 ∧ decodeTableWord 32 0x13 = some .blurV256 ∧
      decodeTableWord 32 0xFFFFFFFF = some (.srst 0xFFFFFFFF) ∧ decodeTableWord 32 0x20 = none ∧
      decodeTableWord 16 0x02 = none := by decide

/-! ## Ill-formed terms -/

theorem test_wellformed_refuses_srst_without_bit_0 :
    (Instr.srst 0).wf = false ∧ (Instr.srst 0xFFFFFFFE).wf = false ∧ (Instr.srst 1).wf = true := by decide

/-- ADDR_W is 16 to 32 (R8). -/
theorem test_wellformed_refuses_address_widths :
    ({ Params.default with addrW := 15 } : Params).wf = false ∧
      ({ Params.default with addrW := 33 } : Params).wf = false ∧
      ({ Params.default with addrW := 16 } : Params).wf = true ∧ Params.default.wf = true := by decide

/-! ## Small states -/

/-- The kernel of sigma 1.0, vector K-1. -/
def k1 : Vector Word 7 :=
  #v[0x3B91431A, 0x3D5D34F5, 0x3E77D858, 0x3ECC5051, 0x3E77D858, 0x3D5D34F5, 0x3B91431A]

/-- The start state of E-1 to E-20, with an image of `w` by `h`, lane 0 of its first pixel at 255, and `lead` micro-steps
after each event. -/
def ready (w h : BitVec 16) (lead : Nat) : State :=
  { State.reset with
    sigma := 0x3F800000
    srcAddr := 0x1000
    dstAddr := 0x2000
    width := w
    height := h
    kw := k1
    kvalid := true
    mem := [(0x1000, 255)]
    lead := lead }

/-- The same with the host's next event. -/
def ask (op : HostOp) (s : State) : State := { s with inputs := [{ op := op, lead := s.lead }] }

/-- The latched context of `ready` for an operation. -/
def latched (op : BitVec 4) (vw : Bool) (s : State) : Latch :=
  { op := op, vw := vw, sigma := s.sigma, src := s.srcAddr, dst := s.dstAddr, w := s.width, h := s.height }

/-- A command of `ready 3 3` in a phase, with units still to do. -/
def running (op : BitVec 4) (ph : Phase) (todo : List Nat) : State :=
  { ready 3 3 0 with latch := latched op false (ready 3 3 0), phase := ph, todo := todo }

/-- A platform that answers an address with a read error, a write error, or never. -/
def badRead (a : Nat) : Bus := { Bus.answersAll with readError := [{ base := a, len := 4 }] }
def badWrite (a : Nat) : Bus := { Bus.answersAll with writeError := [{ base := a, len := 4 }] }
def silent (a : Nat) : Bus := { Bus.answersAll with noAnswer := [{ base := a, len := 4 }] }

/-- A property of the next state. -/
def ends (o : Host.Outcome State Fault Refusal) (f : State → Bool) : Bool :=
  match o with
  | .next t => f t
  | .fault _ => false
  | .refused _ => false

/-! ## The instructions, one step each -/

/-- C-1, C-2: STATUS stays 0x12. -/
theorem test_nop :
    (∀ vw, ends (exec (.nop vw) { ready 3 3 5 with done := true }) fun t =>
      statusWord t = 0x00000012 ∧ t.latch = Latch.reset) := by decide

/-- K-18: the kernel of K-1, DONE and KVALID. -/
theorem test_kgen_sigma_one :
    ends (exec (.kgen false) { State.reset with sigma := 0x3F800000, lead := 2 }) fun t =>
      t.kw = k1 ∧ statusWord t = 0x00000012 := by decide +kernel

/-- K-8, K-21: a subnormal weight, and the least legal sigma. -/
theorem test_kernel_small_sigma :
    kernelOf 0x3E600000 =
        #v[0x00002829, 0x21501A4E, 0x37F311CE, 0x3F7FFC34, 0x37F311CE, 0x21501A4E, 0x00002829] ∧
      kernelOf 0x00000001 = #v[0, 0, 0, 0x3F800000, 0, 0, 0] := by decide +kernel

/-- P-5: a row of width 3 with 255 at column 0. -/
theorem test_hpass_v128_row_of_three :
    ends (exec .hpassV128 (ready 3 1 4)) fun t =>
      Memory.read32 t.mem 0x2000 = 102 ∧ Memory.read32 t.mem 0x2004 = 63 ∧ Memory.read32 t.mem 0x2008 = 28 ∧
        statusWord t = 0x00000012 := by decide +kernel

/-- E-14: a misaligned source. -/
theorem test_hpass_v128_misaligned :
    ends (exec .hpassV128 { ready 8 8 0 with srcAddr := 0x1002 }) fun t =>
      statusWord t = 0x00000014 ∧ t.errCode = 0x00000206 ∧ t.errAddr = 0 := by decide

/-- V-3: an odd width on the wide datapath. -/
theorem test_hpass_v256_row_of_three :
    ends (exec .hpassV256 (ready 3 1 3)) fun t =>
      Memory.read32 t.mem 0x2000 = 102 ∧ Memory.read32 t.mem 0x2004 = 63 ∧ Memory.read32 t.mem 0x2008 = 28 ∧
        statusWord t = 0x00000012 := by decide +kernel

/-- V-4: no wide datapath. -/
theorem test_hpass_v256_unsupported :
    ends (exec .hpassV256 { ready 3 3 0 with inst := { Params.default with hasV256 := false } }) fun t =>
      t.errCode = 0x00001202 := by decide

/-- B-6: a near-identity kernel leaves the source and puts its transpose in the destination. -/
theorem test_blur_v128_identity :
    ends (exec .blurV128 { ready 3 3 22 with sigma := 0x3A800000, mem := [(0x1004, 255)] }) fun t =>
      Memory.read32 t.mem 0x1004 = 255 ∧ Memory.read32 t.mem 0x2004 = 0 ∧ Memory.read32 t.mem 0x200C = 255 ∧
        t.mem.length = 2 ∧ statusWord t = 0x00000012 := by decide +kernel

/-- E-6: the sigma is checked before the width. -/
theorem test_blur_v128_bad_sigma :
    ends (exec .blurV128 { ready 2 8 0 with sigma := 0 }) fun t => t.errCode = 0x00000303 := by decide

/-- E-11: a BLUR needs a height of WMIN. -/
theorem test_blur_v256_bad_dim :
    ends (exec .blurV256 (ready 8 2 0)) fun t => t.errCode = 0x00001305 := by decide

/-- C-8: everything at its reset value. -/
theorem test_srst :
    ends (exec (.srst 1) { ready 3 3 9 with done := true, irqEn := 7 }) fun t =>
      statusWord t = 0 ∧ t.kw = Vector.replicate 7 0 ∧ t.sigma = 0 ∧ t.width = 0 ∧ t.irqEn = 0 ∧
        t.mem = [(0x1000, 255)] := by decide

/-- C-9: a soft reset while an HPASS runs: no ERR, no DONE. -/
theorem test_srst_while_busy :
    ends (exec (.srst 1) (running 2 .pass1 [7, 8])) fun t => statusWord t = 0 ∧ t.todo = [] := by decide

/-- From the state after reset, the next step runs the placed word: E-7 on both datapaths, and a BLUR without a sigma. -/
theorem test_first_step :
    (ends (step (State.reset.withFetchWord 32 0x02)) fun t => t.errCode = 0x00000204) ∧
      (ends (step (State.reset.withFetchWord 32 0x12)) fun t => t.errCode = 0x00001204) ∧
      (ends (step (State.reset.withFetchWord 32 0x03)) fun t => t.errCode = 0x00000303) ∧
      (ends (step (State.reset.withFetchWord 32 0x00)) fun t => t = State.reset) ∧
      (ends (step ((ready 3 3 0).withFetchWord 32 0x21)) fun t => statusWord t = 0 ∧ t.sigma = 0) := by decide

/-! ## The datapath and the registers -/

/-- M-3, M-4, M-9: accumulators of three sets of taps. -/
theorem test_accumulate :
    accumulateLane k1 #v[0, 0, 0, 255, 0, 0, 0] 0 = 0x42CB8401 ∧
      accumulateLane k1 #v[1, 1, 1, 1, 1, 1, 1] 0 = 0x3F7FFFFF ∧
      accumulateLane (Vector.replicate 7 0x3E124925) (Vector.replicate 7 255) 0 = 0x437F0001 := by decide +kernel

/-- N-2, N-3, N-4, N-5: 1.5, 2.5, 254.5, 255.5 under both roundings. -/
theorem test_narrow :
    narrow Params.default 0x3FC00000 = 2 ∧ narrow Params.default 0x40200000 = 2 ∧
      narrow Params.default 0x437E8000 = 254 ∧ narrow Params.default 0x437F8000 = 255 ∧
      narrow { Params.default with narrowRound := .trunc } 0x3FC00000 = 1 ∧
      narrow { Params.default with narrowRound := .trunc } 0x437F8000 = 255 := by decide +kernel

/-- T-1, T-2, T-3, T-9: tap columns. -/
theorem test_tap_columns :
    (List.range 7).map (tapColumn Params.default 8 6) = [3, 4, 5, 6, 7, 6, 5] ∧
      (List.range 7).map (tapColumn { Params.default with mirrorAxis := .center } 8 1) = [4, 3, 0, 1, 2, 3, 4] ∧
      (List.range 7).map (tapColumn { Params.default with rbLegacy := true } 8 5) = [2, 3, 4, 5, 6, 7, 8] ∧
      (List.range 7).map (tapColumn Params.default 3 1) = [2, 1, 0, 1, 2, 1, 0] := by decide

/-- C-10, C-11: CAP. -/
theorem test_cap :
    capWord Params.default = 0x01207303 ∧
      capWord { addrW := 24, hasV256 := false, rbLegacy := true, mirrorAxis := .center, narrowRound := .trunc } =
        0x0118731D := by decide

/-- C-7: STATUS 0x1E, all ones written. -/
theorem test_status_write :
    statusWord { State.reset with kvalid := true, ovr := true, err := true, done := true } = 0x0000001E ∧
      statusWord (writeRegister 0x010 0xFFFFFFFF
        { State.reset with kvalid := true, ovr := true, err := true, done := true }) = 0x00000010 := by decide

/-- C-13, C-14: reserved bits of WIDTH, and a write to KW3. -/
theorem test_write_ignored :
    readRegister 0x02C (writeRegister 0x02C 0xFFFF0008 State.reset) = 8 ∧
      writeRegister 0x04C 0x12345678 (ready 3 3 0) = ready 3 3 0 := by decide

/-- E-23, with the image of `ready`: the read of 0x1004 fails. -/
theorem test_bus_read_error :
    ends (exec .hpassV128 { ready 3 3 20 with bus := badRead 0x1004 }) fun t =>
      statusWord t = 0x00000014 ∧ t.errCode = 0x00000209 ∧ t.errAddr = 0x00001004 := by decide +kernel

/-! ## States that meet the hypotheses of the statements -/

/-- The pass of a `w` by `h` image of `ready` on one datapath. -/
def pass (w h : Nat) (vw : Bool) : Pass := { src := 0x1000, dst := 0x2000, w := w, h := h, vw := vw }

/-- The second pass of a BLUR of `ready 3 3`. -/
def back (vw : Bool) : Pass := { src := 0x2000, dst := 0x1000, w := 3, h := 3, vw := vw }

theorem test_pass_valid (vw : Bool) :
    (pass 3 1 vw).Valid Params.default ∧ (pass 3 3 vw).Valid Params.default ∧ (back vw).Valid Params.default := by
  cases vw <;> (refine ⟨⟨?_, ?_, ?_, ?_, ?_, ?_, ?_⟩, ⟨?_, ?_, ?_, ?_, ?_, ?_, ?_⟩, ⟨?_, ?_, ?_, ?_, ?_, ?_, ?_⟩⟩ <;> decide)

theorem test_pass_answered (vw : Bool) :
    (pass 3 1 vw).Answered Params.default Bus.answersAll ∧ (pass 3 3 vw).Answered Params.default Bus.answersAll ∧
      (back vw).Answered Params.default Bus.answersAll := by
  unfold Pass.Answered; decide +revert

theorem test_pass_calm (vw : Bool) :
    (pass 3 1 vw).Calm Params.default ∧ (pass 3 3 vw).Calm Params.default ∧ (back vw).Calm Params.default := by
  unfold Pass.Calm; decide +revert

theorem test_pass_responsive (vw : Bool) :
    (pass 3 3 vw).Responsive Params.default Bus.answersAll ∧ (back vw).Responsive Params.default Bus.answersAll := by
  unfold Pass.Responsive; decide +revert

/-- The states of these tests meet the invariant: an image of any size, on any platform, the host about to do anything. -/
theorem test_ready_inv (w h : BitVec 16) (lead : Nat) (bus : Bus) (inputs : List Input) :
    State.Inv { ready w h lead with bus := bus, inputs := inputs } where
  instance_legal := rfl
  memory_canonical := ⟨List.pairwise_singleton _ _, by simp [ready, Memory.blank]⟩
  memory_in_space := by simp [ready, State.reset, Params.default]
  error_cleared _ := ⟨rfl, rfl⟩
  error_code_reserved := by simp [ready, State.reset]
  error_address := by simp [ready, State.reset]
  source_address := by simp [ready, State.reset, Params.default]
  destination_address := by simp [ready, State.reset, Params.default]
  kernel_in_unit := by show KernelInUnit k1; unfold KernelInUnit; decide
  kernel_absent := by simp [ready]
  running := ⟨rfl, rfl, rfl, rfl⟩
  reset_waits := by simp [ready, State.reset]
  landed_stalled _ := rfl
  landed_pending := by simp [ready, State.reset]
  in_reset := by simp [ready, State.reset]

/-- A command that runs, in each phase it can have, with an answer still to come for one request, or none. -/
theorem test_running_inv (op : BitVec 4) (ph : Phase) (todo : List Nat) (bus : Bus) (inputs : List Input) (lead : Nat)
    (stalled wait : Bool)
    (h : (op = 1 ∧ ph = .kgen ∨ op = 3 ∧ ph = .kgen) ∧ todo = [0] ∧ stalled = false ∨
      (op = 2 ∧ ph = .pass1 ∨ op = 3 ∧ ph = .pass1 ∨ op = 3 ∧ ph = .pass2) ∧ todo.Nodup ∧ ∀ u ∈ todo, u < 9)
    (hw : wait = true → stalled = true) :
    State.Inv
      { running op ph todo with bus := bus, inputs := inputs, lead := lead, stalled := stalled, srstWait := wait } :=
  { test_ready_inv 3 3 0 bus inputs with
    running := by
      have hv := test_pass_valid false
      have hs : legalSigma 0x3F800000 = true := by decide
      rcases h with ⟨⟨rfl, rfl⟩ | ⟨rfl, rfl⟩, rfl, rfl⟩ | ⟨⟨rfl, rfl⟩ | ⟨rfl, rfl⟩ | ⟨rfl, rfl⟩, h1, h2⟩
      · exact ⟨hs, .inr rfl, by simp [running], rfl, .inl ⟨rfl, rfl⟩⟩
      · exact ⟨hs, .inr rfl, by simp [running], rfl, .inr ⟨rfl, hv.2.1, hv.2.2⟩⟩
      · exact ⟨rfl, h1, h2, hv.2.1, .inl rfl⟩
      · exact ⟨rfl, h1, h2, hv.2.1, .inr ⟨rfl, hv.2.2⟩⟩
      · exact ⟨rfl, h1, h2, rfl, hv.2.1, hv.2.2⟩
    reset_waits := hw
    landed_stalled := fun _ => rfl
    landed_pending := by simp [running, ready, State.reset]
    in_reset := by simp [running, ready, State.reset] }

/-- An HPASS with a request that is never answered and some outputs of its first row landed. -/
theorem test_landed_inv (landed : List (Nat × Nat)) (inputs : List Input) (h : ∀ x ∈ landed, x.1 = 0 ∧ x.2 < 3) :
    State.Inv { running 2 .pass1 (List.range 9) with inputs := inputs, stalled := true, landed := landed } :=
  { test_running_inv 2 .pass1 (List.range 9) Bus.answersAll inputs 0 true false
      (.inr ⟨.inl ⟨rfl, rfl⟩, by decide, by decide⟩) (by decide) with
    running := ⟨rfl, (by decide : (List.range 9).Nodup), (by decide : ∀ u ∈ List.range 9, u < 9), (test_pass_valid false).2.1,
      .inl rfl⟩
    landed_stalled := by simp
    landed_pending := fun x hx => by
      obtain ⟨h1, h2⟩ := h x hx
      have hu : ∀ c < 3, c ∈ List.range 9 ∧ (⟨false, 0, c⟩ : Output) ∈ (pass 3 3 false).outputs c := by decide
      exact ⟨x.2, (hu x.2 h2).1, _, (hu x.2 h2).2, Prod.ext h1 rfl⟩
    in_reset := by simp [running, ready, State.reset] }

/-- The state while `rst_n` is low, at every point of the host's doing. -/
theorem test_low_inv (inputs : List Input) : State.Inv { State.reset with rstLow := true, inputs := inputs } where
  instance_legal := rfl
  memory_canonical := ⟨List.Pairwise.nil, by simp [State.reset]⟩
  memory_in_space := by simp [State.reset]
  error_cleared _ := ⟨rfl, rfl⟩
  error_code_reserved := by simp [State.reset]
  error_address := by simp [State.reset]
  source_address := by simp [State.reset]
  destination_address := by simp [State.reset]
  kernel_in_unit := by intro k; simp [State.reset]
  kernel_absent _ := rfl
  running := ⟨rfl, rfl, rfl, rfl⟩
  reset_waits := by simp [State.reset]
  landed_stalled _ := rfl
  landed_pending := by simp [State.reset]
  in_reset _ := rfl

/-! For each statement with hypotheses, concrete terms that meet all of them together; where it has several clauses, one for
each, at the ends of its ranges. -/

/-- IllegalWordsAreRefused: an RSV bit at either end, and OP at either end; with and without an error recorded before. -/
theorem test_meets_illegal_words :
    (0x00000020#32).toNat / 32 ≠ 0 ∧ (0x80000000#32).toNat / 32 ≠ 0 ∧ 4 ≤ (0x00000004#32).toNat % 16 ∧
      4 ≤ (0x0000000F#32).toNat % 16 ∧
      (ask (.write 0x00C 0x20) State.reset).inputs = [{ op := .write 0x00C 0x20, lead := 0 }] ∧
      State.reset.rstLow = false ∧ State.reset.busy = false ∧
      State.reset.err = false ∧ ({ State.reset with err := true } : State).busy = false := by decide

/-- StepRunsDecodedInstruction, in the state the host asks about. -/
theorem test_meets_step_runs_decoded :
    (State.reset.withFetchWord 32 0x1).inputs = [{ op := .write 0x00C 0x1, lead := 0 }] ∧
      (State.reset.withFetchWord 32 0x1).rstLow = false ∧
      decode 0x00C 0x1 = some (.kgen false) := by decide

/-- UnalignedAccessIsHostFault: another size, an unaligned write and read; the step faults. -/
theorem test_meets_unaligned :
    (0x00D#12).toNat % 4 ≠ 0 ∧ (0xFFF#12).toNat % 4 ≠ 0 ∧
      step (ask (.otherSize 0x00C) State.reset) = .fault .hostAccess ∧
      step (ask (.write 0x00D 1) State.reset) = .fault .hostAccess ∧
      step (ask (.read 0xFFF) State.reset) = .fault .hostAccess := ⟨by decide, by decide, rfl, rfl, rfl⟩

/-- StepReadsAndWritesRegisters: the first and the last offset, a write to CTRL with every bit but bit 0, and a same-cycle
STATUS write. -/
theorem test_meets_read_write :
    (0x000#12).toNat % 4 = 0 ∧ (0xFFC#12).toNat % 4 = 0 ∧
      (ask (.read 0x000) State.reset).inputs = [{ op := .read 0x000, lead := 0 }] ∧
      (ask (.write 0xFFC 7) State.reset).inputs = [{ op := .write 0xFFC 7, lead := 0 }] ∧ 0xFFC#12 ≠ 0x008 ∧
      0xFFC#12 ≠ 0x00C ∧ State.reset.rstLow = false ∧
      (ask (.write 0x008 0xFFFFFFFE) State.reset).inputs = [{ op := .write 0x008 0xFFFFFFFE, lead := 0 }] ∧
      (0xFFFFFFFE#32).getLsbD 0 = false ∧
      (ask (.statusSame 2) State.reset).inputs = [{ op := .statusSame 2, lead := 0 }] := by decide

/-- NopChangesNothing and SoftResetClearsEveryRegister. -/
theorem test_meets_idle_and_no_stall : State.reset.busy = false ∧ State.reset.stalled = false ∧
    (running 2 .pass1 [8]).busy = true ∧ (running 2 .pass1 [8]).stalled = false ∧ State.reset.raced = [] := by decide

/-- CommandWhileBusyIsDropped. -/
theorem test_meets_command_while_busy :
    (ask (.write 0x00C 1) (running 3 .kgen [0])).inputs = [{ op := .write 0x00C 1, lead := 0 }] ∧
      (running 3 .kgen [0]).rstLow = false ∧
      (running 3 .kgen [0]).busy = true := by decide

/-- ChecksComeInOrder: each code of R127, and a word that passes every check. -/
theorem test_meets_checks :
    validate 0x4 (ready 8 8 0) = some .illegalCmd ∧
      validate 0x12 { ready 8 8 0 with inst := { Params.default with hasV256 := false } } = some .unsupportedVw ∧
      validate 0x3 { ready 8 8 0 with sigma := 0x7F800000 } = some .badSigma ∧
      validate 0x2 { ready 8 8 0 with kvalid := false } = some .noKernel ∧ validate 0x2 (ready 2 8 0) = some .badDim ∧
      validate 0x2 { ready 8 8 0 with srcAddr := 0x1002 } = some .misaligned ∧
      validate 0x2 { ready 8 8 0 with srcAddr := 0xFFFFFF04 } = some .addrRange ∧
      validate 0x2 { ready 8 8 0 with dstAddr := 0x10FC } = some .overlap ∧
      validate 0x2 { ready 8 8 0 with srcAddr := 0xFFFFFF00 } = none ∧
      validate 0x2 { ready 8 8 0 with dstAddr := 0x1100 } = none := by decide

/-- RefusalIsPrecise, with and without an error recorded before. -/
theorem test_meets_refusal :
    (ready 2 8 0).busy = false ∧ validate (encode .hpassV128).2 (ready 2 8 0) = some .badDim ∧ (ready 2 8 0).err = false ∧
      validate (encode .hpassV128).2 { ready 2 8 0 with err := true } = some .badDim := by decide

/-- SigmaMustBePositiveAndFinite: +0 and +inf, the values next to the legal range. -/
theorem test_meets_bad_sigma :
    State.reset.busy = false ∧ State.reset.inst.hasV256 = true ∧ State.reset.sigma.toNat < 1 ∧
      0x7F7FFFFF < ({ State.reset with sigma := 0x7F800000 } : State).sigma.toNat := by decide

/-- AcceptanceLatchesOperands, HpassAcceptedExactlyWhenLegal and BlurAcceptedExactlyWhenLegal, for each command. -/
theorem test_meets_acceptance :
    (ready 3 3 0).busy = false ∧ (ready 3 3 0).lead = 0 ∧ validate (encode (.kgen false)).2 (ready 3 3 0) = none ∧
      validate (encode (.kgen true)).2 (ready 3 3 0) = none ∧ validate (encode .hpassV128).2 (ready 3 3 0) = none ∧
      validate (encode .hpassV256).2 (ready 3 3 0) = none ∧ validate (encode .blurV128).2 (ready 3 3 0) = none ∧
      validate (encode .blurV256).2 (ready 3 3 0) = none := by decide

/-- KgenWritesKernel. -/
theorem test_meets_kgen :
    (ready 3 3 2).Inv ∧ (ready 3 3 2).busy = false ∧ legalSigma (ready 3 3 2).sigma = true ∧ 2 ≤ (ready 3 3 2).lead :=
  ⟨test_ready_inv 3 3 2 Bus.answersAll [], by decide, by decide, by decide⟩

/-- EnclosureHoldsExactWeight and WeightIsNearest: sigma 1.0, the least sigma above 1/16 and the greatest; the least and the
greatest whose kernel is the identity; and the greatest finite value a weight is compared with. -/
theorem test_meets_weight :
    legalSigma 0x3F800000 = true ∧ Weight.tiny (F32.magnitude 0x3F800000) = false ∧
      legalSigma 0x3D800001 = true ∧ Weight.tiny (F32.magnitude 0x3D800001) = false ∧
      legalSigma 0x7F7FFFFF = true ∧ Weight.tiny (F32.magnitude 0x7F7FFFFF) = false ∧
      legalSigma 0x00000001 = true ∧ Weight.tiny (F32.magnitude 0x00000001) = true ∧
      legalSigma 0x3D800000 = true ∧ Weight.tiny (F32.magnitude 0x3D800000) = true ∧
      F32.expField 0x7F7FFFFF < 255 := by decide +kernel

/-- SmallSigmaKernelIsIdentity: both ends of its range. -/
theorem test_meets_small_sigma :
    1 ≤ (0x00000001#32).toNat ∧ (0x00000001#32).toNat ≤ 0x3D800000 ∧ 1 ≤ (0x3D800000#32).toNat ∧
      (0x3D800000#32).toNat ≤ 0x3D800000 := by decide

/-- HpassStoresTransposedConvolution, HpassDatapathsAgree and HpassAtAnyMoment, on either datapath. -/
theorem test_meets_hpass (vw : Bool) :
    (ready 3 1 4).Inv ∧ (ready 3 1 4).busy = false ∧ (ready 3 1 4).kvalid = true ∧
      (ready 3 1 4).inst.hasV256 = true ∧ (pass 3 1 vw).Valid (ready 3 1 4).inst ∧
      (pass 3 1 vw).Calm (ready 3 1 4).inst ∧ (pass 3 1 vw).Answered (ready 3 1 4).inst (ready 3 1 4).bus ∧
      (pass 3 1 vw).steps ≤ (ready 3 1 4).lead :=
  ⟨test_ready_inv 3 1 4 Bus.answersAll [], by decide, by decide, by decide, (test_pass_valid vw).1,
    (test_pass_calm vw).1, (test_pass_answered vw).1, by cases vw <;> decide⟩

/-- BlurRunsKernelAndTwoPasses, BlurDatapathsAgree and BlurAtAnyMoment, on either datapath. -/
theorem test_meets_blur (vw : Bool) :
    (ready 3 3 22).Inv ∧ (ready 3 3 22).busy = false ∧ legalSigma (ready 3 3 22).sigma = true ∧
      (ready 3 3 22).inst.hasV256 = true ∧ (pass 3 3 vw).Valid (ready 3 3 22).inst ∧
      (back vw).Valid (ready 3 3 22).inst ∧ (pass 3 3 vw).Calm (ready 3 3 22).inst ∧
      (back vw).Calm (ready 3 3 22).inst ∧ (pass 3 3 vw).Answered (ready 3 3 22).inst (ready 3 3 22).bus ∧
      (back vw).Answered (ready 3 3 22).inst (ready 3 3 22).bus ∧
      2 + (pass 3 3 vw).steps + (back vw).steps ≤ (ready 3 3 22).lead :=
  ⟨test_ready_inv 3 3 22 Bus.answersAll [], by decide, by decide, by decide, (test_pass_valid vw).2.1,
    (test_pass_valid vw).2.2, (test_pass_calm vw).2.1, (test_pass_calm vw).2.2, (test_pass_answered vw).2.1,
    (test_pass_answered vw).2.2, by cases vw <;> decide⟩

/-- BusErrorAborts: a read error and a write error, in HPASS's and in BLUR's second pass, and after an earlier error; the
unit that comes next has the failing request, and no request is left without an answer. -/
theorem test_meets_bus_error :
    (pass 3 3 false).outputs 0 = [⟨false, 0, 0⟩] ∧ (running 2 .pass1 [0, 8]).nextUnit = 0 ∧
      spansCover (badRead 0x1000).readError ((pass 3 3 false).tapAddr Params.default 0 0 3) = true ∧
      spansCover (badWrite 0x1000).writeError ((back false).outAddr 0 0) = true ∧ (badRead 0x1000).noAnswer = [] ∧
      (badWrite 0x1000).noAnswer = [] ∧
    State.Inv { running 2 .pass1 [0, 8] with bus := badRead 0x1000 } ∧
      (tick { running 2 .pass1 [0, 8] with bus := badRead 0x1000 }).2 = .err ∧
      State.Inv { running 3 .pass2 [0, 8] with bus := badWrite 0x1000 } ∧
      (tick { running 3 .pass2 [0, 8] with bus := badWrite 0x1000 }).2 = .err ∧
      (running 3 .pass2 [0, 8]).raced = [] ∧ (running 3 .pass2 [0, 8]).err = false ∧
      (tick { running 2 .pass1 [0, 8] with bus := badRead 0x1000, err := true }).2 = .err :=
  ⟨by decide, by decide, by decide, by decide, rfl, rfl, test_running_inv 2 .pass1 [0, 8] (badRead 0x1000) [] 0 false false
      (.inr ⟨.inl ⟨rfl, rfl⟩, by decide, by decide⟩) (by decide), by decide +kernel,
    test_running_inv 3 .pass2 [0, 8] (badWrite 0x1000) [] 0 false false
      (.inr ⟨.inr (.inr ⟨rfl, rfl⟩), by decide, by decide⟩) (by decide), by decide +kernel, by decide, by decide,
    by decide +kernel⟩

/-- CompletionStep, SameCycleEventIsNotLost and StatusWriteClearsFlags: the completion of HPASS, of BLUR and of KGEN, and a
micro-step that sets no flag. -/
theorem test_meets_completion :
    (running 2 .pass1 []).raced = [] ∧ (tick (running 2 .pass1 [])).2 = .done ∧ (tick (running 3 .pass2 [])).2 = .done ∧
      (tick (running 1 .kgen [])).2 = .done ∧ (tick (running 3 .pass1 [])).2 = .none := by decide

/-- PhasesRunInOrder: a state in each phase, and the phase its end leads to. -/
theorem test_meets_phases :
    (ready 3 3 0).phase = .idle ∧ (running 3 .kgen []).phase = .kgen ∧ (tick (running 3 .kgen [])).1.phase = .pass1 ∧
      (tick (running 1 .kgen [])).1.phase = .idle ∧ (running 3 .pass1 []).phase = .pass1 ∧
      (tick (running 3 .pass1 [])).1.phase = .pass2 ∧ (tick (running 2 .pass1 [])).1.phase = .idle ∧
      (running 3 .pass2 []).phase = .pass2 ∧ (tick (running 3 .pass2 [])).1.phase = .idle := by decide

/-- CommandEndsInBoundedSteps: an HPASS and a BLUR that has both passes to do. -/
theorem test_meets_bounded_steps :
    (running 2 .pass1 [0, 8]).Inv ∧ (running 3 .kgen [0]).Inv ∧ (running 3 .kgen [0]).stalled = false ∧
      (running 3 .kgen [0]).usesBuffers = true ∧ (running 3 .kgen [0]).runsBlur = true ∧
      (firstPass (running 3 .kgen [0]).latch).Responsive Params.default Bus.answersAll ∧
      (secondPass (running 3 .kgen [0]).latch).Responsive Params.default Bus.answersAll :=
  ⟨test_running_inv 2 .pass1 [0, 8] Bus.answersAll [] 0 false false
      (.inr ⟨.inl ⟨rfl, rfl⟩, by decide, by decide⟩) (by decide),
    test_running_inv 3 .kgen [0] Bus.answersAll [] 0 false false (.inl ⟨.inr ⟨rfl, rfl⟩, rfl, rfl⟩) (by decide),
    by decide, by decide, by decide, (test_pass_responsive false).1, (test_pass_responsive false).2⟩

/-- TapsStayInRow and BorderTestFindsOutsideTaps: the narrowest row, its last column and last tap; and a column of a wider
row that is no border. -/
theorem test_meets_taps :
    Params.default.rbLegacy = false ∧ wmin Params.default ≤ 3 ∧ isBorder Params.default 3 2 = true ∧
      isBorder Params.default 7 3 = false ∧ wmin { Params.default with mirrorAxis := .center } ≤ 6 := by decide

/-- LegacyReadIsTheOnlyOneOutside: rows of 6 and of 5, the taps beside the legacy one and those of the narrowest row, and a
pass whose destination follows its source, so that the last row's legacy read lies in it. -/
theorem test_meets_legacy :
    (List.range 7).map (tapColumn { Params.default with rbLegacy := true } 6 3) = [0, 1, 2, 3, 4, 5, 6] ∧
      (List.range 7).map (tapColumn { Params.default with rbLegacy := true } 6 4) = [1, 2, 3, 4, 5, 4, 3] ∧
      (List.range 7).map (tapColumn { Params.default with rbLegacy := true } 3 0) = [1, 2, 1, 0, 1, 2, 1] ∧
    isBorder { Params.default with rbLegacy := true } 6 3 = false ∧
      isBorder { Params.default with rbLegacy := true } 5 2 = true ∧
      ({ src := 0x1000, dst := 0x1018, w := 6, h := 1, vw := false } : Pass).readsOwnOutput
        { Params.default with rbLegacy := true } 0 3 = true ∧
      ({ src := 0x1000, dst := 0x1018, w := 6, h := 1, vw := false } : Pass).Valid
        { Params.default with rbLegacy := true } :=
  ⟨by decide, by decide, by decide, by decide, by decide, by decide,
    ⟨by decide, by decide, by decide, by decide, by decide, by decide, by decide⟩⟩

/-- EdgeMirrorIsSingleReflection, at the ends of its ranges; MirrorAxesAgreeAtTheEnds, in its narrowest row. -/
theorem test_meets_mirror :
    mirrorEdge (-3) 4 = 3 ∧ mirrorEdge 6 4 = 0 ∧ mirrorEdge 0 4 = 0 ∧ mirrorEdge 3 4 = 3 ∧
      tapColumn Params.default 6 0 0 = 3 ∧ tapColumn { Params.default with mirrorAxis := .center } 6 0 0 = 3 := by decide

/-- ChannelsAreIndependent: one channel of one image is another channel of another. -/
theorem test_meets_channels :
    ∀ k : Fin 7, lane (#v[0x11, 0x22, 0x33, 0x44, 0x55, 0x66, 0x77] : Vector Word 7)[k] 0 =
      lane (#v[0x11000000, 0x22000000, 0x33000000, 0x44000000, 0x55000000, 0x66000000, 0x77000000] :
        Vector Word 7)[k] 3 := by decide

/-- AccumulatorsAreFinite. -/
theorem test_meets_unit_kernel : KernelInUnit k1 ∧ KernelInUnit (Vector.replicate 7 0x3F800000) := by
  unfold KernelInUnit; decide

/-- RoundingIsToNearestEven: a tie, the largest finite value, and just below the bound where rounding overflows. -/
theorem test_meets_rounding :
    0 < 2 ∧ 2 * (1 : Int).natAbs < (2 ^ 25 - 1) * 2 ^ 253 * 2 ∧ F32.rn32 1 2 = 0 ∧
      2 * ((2 ^ 25 - 1) * 2 ^ 252 - 1 : Int).natAbs < (2 ^ 25 - 1) * 2 ^ 253 * 1 ∧
      F32.rn32 ((2 ^ 25 - 1) * 2 ^ 252 - 1) 1 = 0x7F7FFFFF ∧ F32.expField 0x7F7FFFFF < 255 := by decide +kernel

/-- UnansweredRequestSticks: a request of an HPASS that is never answered stalls it, and one of two bad requests of a unit
may do so or abort it; then a soft reset waits, STATUS is read, and `rst_n` falls. -/
theorem test_meets_stall :
    ((tick { running 2 .pass1 [0] with bus := silent 0x1000 }).2 = .none ∧
        (tick { running 2 .pass1 [0] with bus := silent 0x1000 }).1.stalled = true) ∧
      (tick { running 2 .pass1 [0] with bus := { silent 0x1000 with readError := [⟨0x1004, 4⟩] } }).2 = .err ∧
      (tick { running 2 .pass1 [0] with
        bus := { silent 0x1000 with readError := [⟨0x1004, 4⟩] }, picks := [0, 2] }).1.stalled = true ∧
      spansCover (silent 0x1000).noAnswer ((pass 3 3 false).tapAddr Params.default 0 0 3) = true ∧
      (silent 0x1000).readError = [] ∧ (silent 0x1000).writeError = [] ∧
      State.Inv { running 2 .pass1 [0] with
        bus := silent 0x1000, inputs := [], lead := 0, stalled := false, srstWait := false } ∧
      (∀ op ∈ [HostOp.read 0x010, .rstN false],
        State.Inv { running 2 .pass1 [8] with
          bus := silent 0x1000, inputs := [{ op := op, lead := 0 }], lead := 0, stalled := true, srstWait := true }) :=
  ⟨by decide +kernel, by decide +kernel, by decide +kernel, by decide, rfl, rfl,
    test_running_inv 2 .pass1 [0] (silent 0x1000) _ 0 false false (.inr ⟨.inl ⟨rfl, rfl⟩, by decide, by decide⟩)
      (by decide),
    fun _ _ => test_running_inv 2 .pass1 [8] (silent 0x1000) _ 0 true true
      (.inr ⟨.inl ⟨rfl, rfl⟩, by decide, by decide⟩) (by decide)⟩

/-- WrittenSetIsExact: a pass begins with an empty set; one unit on, its output is in it; where a tap of row 0 is never
answered, the set holds the one output of row 1 that has landed. -/
theorem test_meets_written :
    State.Inv { running 2 .pass1 (List.range 9) with
        bus := silent 0x1000, inputs := [], lead := 0, stalled := false, srstWait := false } ∧
      (running 2 .pass1 (List.range 9)).written = [] ∧ (running 2 .pass1 (List.range 9)).raced = [] ∧
      (running 2 .pass1 (List.range 9)).todo = List.range (pass 3 3 false).units ∧
      (tick (running 2 .pass1 (List.range 9))).1.written = [⟨false, 0, 0⟩] ∧
      (tick { running 2 .pass1 (List.range 9) with bus := silent 0x1000, picks := [0, 0, 64] }).1.written =
        [⟨false, 1, 0⟩] ∧
      (tick { running 2 .pass1 (List.range 9) with bus := silent 0x1000, picks := [0, 0, 64] }).1.phase = .pass1 :=
  ⟨test_running_inv 2 .pass1 (List.range 9) (silent 0x1000) _ 0 false false
      (.inr ⟨.inl ⟨rfl, rfl⟩, by decide, by decide⟩) (by decide),
    by decide, rfl, by decide, by decide +kernel, by decide +kernel, by decide +kernel⟩

/-- HardwareResetClearsEveryRegister: `rst_n` falls during an HPASS, and each event while it is low, a misaligned access and
one of another size among them. -/
theorem test_meets_hardware_reset :
    (ask (.rstN false) (running 2 .pass1 [8])).inputs = [{ op := .rstN false, lead := 0 }] ∧
      (running 2 .pass1 [8]).raced = [] ∧
      (∀ op ∈ [HostOp.write 0x020 7, .write 0x021 7, .read 0xFFF, .otherSize 0x020, .rstN true],
        State.Inv { State.reset with rstLow := true, inputs := [{ op := op, lead := 0 }] }) ∧
      (ends (step (ask (.write 0x021 7) { State.reset with rstLow := true })) fun t => t.sigma = 0) ∧
      (ends (step (ask (.otherSize 0x020) { State.reset with rstLow := true })) fun t => t.rdata = 0) :=
  ⟨rfl, rfl, fun _ _ => test_low_inv _, by decide, by decide⟩

/-- ReservedOffsetsReadZero: a hole of the map, and the first and the last offset after it. -/
theorem test_meets_reserved :
    (∀ n ∈ [0x034, 0x05C, 0xFFC],
      n ∉ [0x000, 0x004, 0x008, 0x00C, 0x010, 0x014, 0x018, 0x01C, 0x020, 0x024, 0x028, 0x02C, 0x030, 0x040, 0x044,
        0x048, 0x04C, 0x050, 0x054, 0x058] ∧ (BitVec.ofNat 12 n).toNat = n ∧ n % 4 = 0) ∧
      (ask (.read 0x034) State.reset).inputs = [{ op := .read 0x034, lead := 0 }] ∧
      (ask (.write 0xFFC 7) State.reset).inputs = [{ op := .write 0xFFC 7, lead := 0 }] ∧
      State.reset.rstLow = false := by decide +kernel

/-- RegistersReadBack and StatusAndCapFields: both ends of ADDR_W. -/
theorem test_meets_instances :
    State.reset.inst.wf = true ∧ ({ State.reset with inst := { Params.default with addrW := 16 } } : State).inst.wf = true ∧
      (0x020#12).toNat ∈ [0x010, 0x01C, 0x020, 0x024, 0x028, 0x02C, 0x030] ∧
      (0x04C#12).toNat ∉ [0x010, 0x01C, 0x020, 0x024, 0x028, 0x02C, 0x030] ∧ 0x020#12 ≠ 0x010 := by decide

/-- R27, R28, R35: ERR_CODE, ERR_ADDR and KW0, KW1, KW3 and KW6 at their offsets. -/
theorem test_read_only_registers :
    readRegister 0x014 { ready 3 3 0 with errCode := 0x209, errAddr := 0x1004 } = 0x209 ∧
      readRegister 0x018 { ready 3 3 0 with errCode := 0x209, errAddr := 0x1004 } = 0x1004 ∧
      readRegister 0x040 (ready 3 3 0) = 0x3B91431A ∧ readRegister 0x044 (ready 3 3 0) = 0x3D5D34F5 ∧
      readRegister 0x04C (ready 3 3 0) = 0x3ECC5051 ∧ readRegister 0x058 (ready 3 3 0) = 0x3B91431A := by decide

/-- SameCycleEventIsNotLost, StatusWriteClearsFlags: an abort, with an error recorded before and without. -/
theorem test_meets_same_cycle_abort :
    ∀ e : Bool, (tick { running 2 .pass1 [0] with bus := badRead 0x1000, err := e }).2 = .err := by decide +kernel

/-- FlagsFallOnlyWhenCleared: each flag falls by a STATUS write, and KVALID and the others by either reset. -/
theorem test_meets_flags :
    (ends (step (ask (.write 0x010 0xE) { ready 3 3 0 with done := true, err := true, ovr := true })) fun t =>
        !t.done && !t.err && !t.ovr && t.kvalid) ∧
      (ends (step (ask (.write 0x008 1) { ready 3 3 0 with done := true })) fun t => !t.done && !t.kvalid) ∧
      (ends (step (ask (.rstN false) { ready 3 3 0 with done := true })) fun t => !t.done && !t.kvalid) ∧
      (ends (step (ask .wait { ready 3 3 0 with done := true })) fun t => t.done && t.kvalid) := by decide

/-- HostAccessesWithoutRace: the last word of the memory space; the words on either side of the source of a running HPASS,
and a load in it. -/
theorem test_meets_host_accesses :
    0xFFFFFFFC + 4 ≤ 2 ^ State.reset.inst.addrW ∧
      (ask (.load 0xFFFFFFFC) State.reset).inputs = [{ op := .load 0xFFFFFFFC, lead := 0 }] ∧
      (∀ l < 4, (running 2 .pass1 [8]).storeRaces (0x1024 + l) = false) ∧
      (∀ l < 4, (running 2 .pass1 [8]).storeRaces (0x0FFC + l) = false) ∧
      (∀ l < 4, (running 2 .pass1 [8]).loadRaces (0x1000 + l) = false) ∧
      (ends (step (ask (.load 0x1000) (running 2 .pass1 [8]))) fun t => t.rdata = 255) := by decide

/-- RacingLoadIsOldOrNew: a load over the end of the destination, its racing bytes new and then old; and one over two pixel
words, the lower new and the upper old. -/
theorem test_racing_load :
    (ends (step (ask (.load 0x2022) { running 2 .pass1 [8] with
        mem := [(0x2022, 2), (0x2024, 3)], before := [(0x2022, 9)] })) fun t => t.rdata = 0x00030002) ∧
      (ends (step (ask (.load 0x2022) { running 2 .pass1 [8] with
        mem := [(0x2022, 2), (0x2024, 3)], before := [(0x2022, 9)], picks := [1] })) fun t => t.rdata = 0x00030009) ∧
      (ends (step (ask (.load 0x2002) { running 2 .pass1 [8] with
        mem := [(0x2002, 1), (0x2004, 2)], before := [(0x2004, 7)], picks := [2] })) fun t =>
          t.rdata = 0x00070001) := by decide

/-- RacingStoreOpensItsReaders: a store over the end of the source before its row is read, not taken and taken; the bytes
after the source are stored either way. -/
theorem test_racing_store :
    (ends (step (ask (.store 0x1022 0x44332211) { running 2 .pass1 [6, 7, 8] with picks := [1] })) fun t =>
        t.mem = [(0x1000, 255), (0x1024, 0x33), (0x1025, 0x44)] ∧ t.raced = [{ word := 0x1020, kept := false }] ∧
          t.free = 0) ∧
      (ends (step (ask (.store 0x1022 0x44332211) (running 2 .pass1 [6, 7, 8]))) fun t =>
        t.mem = [(0x1000, 255), (0x1022, 0x11), (0x1023, 0x22), (0x1024, 0x33), (0x1025, 0x44)] ∧
          t.raced = [{ word := 0x1020, kept := true }] ∧ t.free = 0) := by decide +kernel

/-- A second racing store to one pixel word: one that does not land leaves the first one's race as it was (log 15), one that
lands decides anew. -/
theorem test_second_racing_store :
    (ends (step (ask (.store 0x1020 7) { running 2 .pass1 [6, 7, 8] with raced := [⟨0x1020, true⟩], picks := [1] })) fun t =>
        t.mem = [(0x1000, 255)] ∧ t.raced = [⟨0x1020, true⟩]) ∧
      (ends (step (ask (.store 0x1020 7) { running 2 .pass1 [6, 7, 8] with raced := [⟨0x1020, true⟩], picks := [2] })) fun t =>
        t.mem = [(0x1000, 255), (0x1020, 7)] ∧ t.raced = [⟨0x1020, false⟩]) := by decide +kernel

/-- A racing host store of 1 to the first source word of `ready 3 3` while an operation runs. -/
def race (op : BitVec 4) (ph : Phase) : State := ask (.store 0x1000 1) (running op ph [8])

/-- RacingStoreOpensItsReaders: the outputs of row 0 already stored are free at once; in PASS2 also every PASS2 output that
reads one of them; and of a command that has stalled, the one output of row 0 that has landed. The states meet the
invariant. -/
theorem test_meets_racing_store :
    State.Inv { running 2 .pass1 (List.range 9) with
        inputs := [{ op := .store 0x1000 1, lead := 0 }], stalled := true, landed := [(0, 1)] } ∧
      (ends (step { running 2 .pass1 (List.range 9) with
        inputs := [{ op := .store 0x1000 1, lead := 0 }], stalled := true, landed := [(0, 1)] }) fun t => t.free = 1) ∧
    (race 2 .pass1).Inv ∧ (race 3 .pass2).Inv ∧ (race 2 .pass1).storeRaces 0x1003 = true ∧
      (pass 3 3 false).tapAddr Params.default 0 2 1 = 0x1000 ∧ (pass 3 3 false).outAddr 0 2 = 0x2018 ∧
      (back false).tapAddr Params.default 2 1 2 = 0x2018 ∧
      (ends (step (race 2 .pass1)) fun t => t.free = 3 ∧ t.raced = [{ word := 0x1000, kept := true }]) ∧
      (ends (step (race 3 .pass2)) fun t => t.free = 11) :=
  ⟨test_landed_inv _ _ (by decide), by decide +kernel,
    test_running_inv 2 .pass1 [8] Bus.answersAll _ 0 false false (.inr ⟨.inl ⟨rfl, rfl⟩, by decide, by decide⟩) (by decide),
    test_running_inv 3 .pass2 [8] Bus.answersAll _ 0 false false
      (.inr ⟨.inr (.inr ⟨rfl, rfl⟩), by decide, by decide⟩) (by decide),
    by decide, by decide, by decide, by decide, by decide +kernel, by decide +kernel⟩

/-- A pass of `running` with the last unit to do and a race remembered. -/
theorem test_raced_inv (op : BitVec 4) (ph : Phase) (raced : List Race)
    (h : op = 2 ∧ ph = .pass1 ∨ op = 3 ∧ ph = .pass2) : State.Inv { running op ph [8] with raced := raced } :=
  { test_running_inv op ph [8] Bus.answersAll [] 0 false false
      (.inr ⟨h.imp_right .inr, by decide, by decide⟩) (by decide) with
    running := by
      have hv := test_pass_valid false
      rcases h with ⟨rfl, rfl⟩ | ⟨rfl, rfl⟩
      · exact ⟨rfl, List.nodup_singleton 8, (by decide : ∀ u ∈ [8], u < 9), hv.2.1, .inl rfl⟩
      · exact ⟨rfl, List.nodup_singleton 8, (by decide : ∀ u ∈ [8], u < 9), rfl, hv.2.1, hv.2.2⟩
    in_reset := by simp [running, ready, State.reset] }

/-- OutputsOfRacedWordsAreOpen: the last output of an HPASS with a raced tap is free, or keeps the host's value where that
stays; the last of PASS2 of a BLUR is free because a PASS1 result it reads has a raced tap. -/
theorem test_meets_raced_outputs :
    State.Inv { running 2 .pass1 [8] with raced := [⟨0x1020, false⟩] } ∧
      State.Inv { running 2 .pass1 [8] with raced := [⟨0x2020, true⟩, ⟨0x1020, false⟩] } ∧
      State.Inv { running 3 .pass2 [8] with raced := [⟨0x1000, true⟩] } ∧
      (pass 3 3 false).outputs 8 = [{ upper := false, r := 2, c := 2 }] ∧
      (pass 3 3 false).tapAddr Params.default 2 2 3 = 0x1020 ∧ (pass 3 3 false).outAddr 2 2 = 0x2020 ∧
      (back false).tapAddr Params.default 2 2 1 = 0x2018 ∧ (pass 3 3 false).outAddr 0 2 = 0x2018 ∧
      (pass 3 3 false).tapAddr Params.default 0 2 1 = 0x1000 ∧
      ((tick { running 2 .pass1 [8] with raced := [⟨0x1020, false⟩] }).1.todo = [] ∧
        (tick { running 2 .pass1 [8] with raced := [⟨0x1020, false⟩] }).1.free = 1 ∧
        (tick { running 2 .pass1 [8] with raced := [⟨0x1020, false⟩] }).2 = .none ∧
        (tick { running 2 .pass1 [8] with raced := [⟨0x1020, false⟩] }).1.stalled = false) ∧
      (tick { running 2 .pass1 [8] with raced := [⟨0x2020, true⟩, ⟨0x1020, false⟩] }).1.mem = [(0x1000, 255)] ∧
      (tick { running 3 .pass2 [8] with raced := [⟨0x1000, true⟩] }).1.free = 1 :=
  ⟨test_raced_inv 2 .pass1 _ (.inl ⟨rfl, rfl⟩), test_raced_inv 2 .pass1 _ (.inl ⟨rfl, rfl⟩),
    test_raced_inv 3 .pass2 _ (.inr ⟨rfl, rfl⟩), by decide, by decide, by decide, by decide, by decide, by decide,
    by decide +kernel, by decide +kernel, by decide +kernel⟩

/-- RunningCommandKeepsItsContext: an HPASS with two units to do and one micro-step between two events, the event a command
word that is dropped, or none. -/
theorem test_meets_context :
    (running 2 .pass1 [7, 8]).busy = true ∧
      (ends (step (ask (.write 0x00C 3) { running 2 .pass1 [7, 8] with lead := 1 })) fun t =>
        t.busy ∧ t.ovr ∧ t.todo = [8] ∧ t.latch = (running 2 .pass1 [7, 8]).latch) ∧
      (ends (step (running 2 .pass1 [7, 8])) fun t => t.busy) := by decide +kernel

/-- InvariantKeptByStep: a command begins, a unit is done, a race is remembered. -/
theorem test_meets_invariant :
    State.Inv { ready 3 3 0 with bus := Bus.answersAll, inputs := [{ op := .write 0x00C 2, lead := 0 }] } ∧
      (ends (step (ask (.write 0x00C 2) (ready 3 3 0))) fun t => t.busy) ∧
      (ends (step (running 2 .pass1 [8])) fun t => t.todo = []) ∧
      (ends (step (ask (.store 0x1000 5) (running 2 .pass1 [8]))) fun t => t.raced = [{ word := 0x1000, kept := true }]) :=
  ⟨test_ready_inv 3 3 0 Bus.answersAll _, by decide, by decide +kernel, by decide +kernel⟩

end Sys2Proof.Tests
end

section
/-! SUPPORT. Rounding (R14, R16): `roundHalfEven` errs by at most half a unit, which word `rn32` answers, and
that no finite binary32 value is nearer. -/
namespace Sys2Proof.Machine

/-- Rounding to an integer errs by at most half a unit, and by exactly half only toward an even one (R14, R16). -/
theorem roundHalfEven_error (num : Nat) {den : Nat} (hd : 0 < den) :
    2 * |(roundHalfEven num den : Int) * den - num| ≤ den ∧
      (2 * |(roundHalfEven num den : Int) * den - num| = den → roundHalfEven num den % 2 = 0) := by
  have hr : num % den < den := Nat.mod_lt _ hd
  have down : |((num / den : Nat) : Int) * den - num| = (num % den : Nat) := by
    rw [abs_sub_comm, abs_of_nonneg] <;> grind [Nat.div_add_mod num den]
  have up : |((num / den + 1 : Nat) : Int) * den - num| = den - (num % den : Nat) := by
    rw [abs_of_nonneg] <;> grind [Nat.div_add_mod num den]
  unfold roundHalfEven
  dsimp only
  split_ifs
  · rw [down]; omega
  · rw [up]; omega
  · rw [down]; omega
  · rw [up]; omega

/-- No integer is nearer than the rounded one; where another is as near, the rounded one is even (R14, R16). -/
theorem roundHalfEven_nearest (num : Nat) {den : Nat} (hd : 0 < den) (a : Int) :
    |(roundHalfEven num den : Int) * den - num| ≤ |a * den - num| ∧
      (|(roundHalfEven num den : Int) * den - num| = |a * den - num| →
        a ≠ roundHalfEven num den → roundHalfEven num den % 2 = 0) := by
  obtain ⟨herr, htie⟩ := roundHalfEven_error num hd
  rcases eq_or_ne a (roundHalfEven num den) with rfl | ha
  · exact ⟨le_rfl, fun _ h => absurd rfl h⟩
  have hgap : (den : Int) ≤ |a * den - roundHalfEven num den * den| := by
    rw [← sub_mul, abs_mul, Nat.abs_cast]
    exact le_mul_of_one_le_left (by positivity) (Int.one_le_abs (sub_ne_zero.2 ha))
  have htri := abs_sub_le (a * den) (num : Int) (roundHalfEven num den * den)
  rw [abs_sub_comm (num : Int)] at htri
  exact ⟨by omega, fun heq _ => htie (by omega)⟩

/-- Rounding stays below a bound that the value is below by more than half a unit. -/
theorem roundHalfEven_lt {num den k : Nat} (hd : 0 < den) (h : 2 * num + den < 2 * (k * den)) :
    roundHalfEven num den < k := by
  have herr := (roundHalfEven_error num hd).1
  have habs := le_abs_self ((roundHalfEven num den : Int) * den - num)
  exact Nat.lt_of_mul_lt_mul_right (a := den) (by zify at h ⊢; omega)

/-- Rounding keeps an integer lower bound. -/
theorem le_roundHalfEven {num den k : Nat} (hd : 0 < den) (h : k * den ≤ num) : k ≤ roundHalfEven num den := by
  have herr := (roundHalfEven_error num hd).1
  have habs := neg_le_abs ((roundHalfEven num den : Int) * den - num)
  refine Nat.lt_succ_iff.1 (Nat.lt_of_mul_lt_mul_right (a := den) ?_)
  rw [Nat.succ_mul]; zify at h ⊢; omega

/-- A value is its magnitude, negated where bit 31 is set. -/
theorem F32.natAbs_units (w : Word) : (F32.units w).natAbs = F32.magnitude w := by
  unfold F32.units; split <;> simp

/-- A finite value is a whole number of the last places of a binade `e`, or lies below that binade (R14). -/
theorem F32.dvd_magnitude_or_lt (w : Word) (e : Nat) :
    2 ^ e ∣ F32.magnitude w ∨ 0 < e ∧ F32.magnitude w < 2 ^ 23 * 2 ^ e := by
  have hf : F32.fraction w < 2 ^ 23 := Nat.mod_lt _ (by decide)
  rcases e.eq_zero_or_pos with rfl | he
  · exact .inl (one_dvd _)
  unfold F32.magnitude
  split_ifs with h0
  · exact .inr ⟨he, hf.trans_le (Nat.le_mul_of_pos_right _ (by positivity))⟩
  rcases Nat.lt_or_ge (F32.expField w - 1) e with hlt | hge
  · refine .inr ⟨he, ?_⟩
    calc (2 ^ 23 + F32.fraction w) * 2 ^ (F32.expField w - 1)
        < 2 ^ 24 * 2 ^ (F32.expField w - 1) := Nat.mul_lt_mul_of_pos_right (by omega) (by positivity)
      _ ≤ 2 ^ 24 * 2 ^ (e - 1) := Nat.mul_le_mul_left _ (Nat.pow_le_pow_right (by decide) (by omega))
      _ = 2 ^ 23 * 2 ^ e := by rw [← pow_add, ← pow_add]; congr 1; omega
  · exact .inl (Dvd.dvd.mul_left (pow_dvd_pow 2 hge) _)

/-- The low 31 bits `e * 2^23 + q`, with `q` a full significand or `e` the exponent of the subnormals, stand for
`q * 2^e`: a carry out of the significand lands in the exponent (R14). -/
theorem F32.magnitude_of_encoding {w : Word} {e q : Nat} (hw : w.toNat % 2 ^ 31 = e * 2 ^ 23 + q) (hq : q ≤ 2 ^ 24)
    (hfull : e = 0 ∨ 2 ^ 23 ≤ q) :
    F32.magnitude w = q * 2 ^ e := by
  unfold F32.magnitude F32.expField F32.fraction
  rcases Nat.lt_or_ge q (2 ^ 23) with hsub | hnormal
  · obtain rfl : e = 0 := by omega
    rw [if_pos (by omega)]; omega
  rcases hq.lt_or_eq with hlt | rfl
  · obtain ⟨hexp, hfrac⟩ : w.toNat / 2 ^ 23 % 256 = e + 1 ∧ 2 ^ 23 + w.toNat % 2 ^ 23 = q := by omega
    rw [hexp, hfrac, if_neg e.succ_ne_zero, Nat.add_sub_cancel]
  · obtain ⟨hexp, hfrac⟩ : w.toNat / 2 ^ 23 % 256 = e + 2 ∧ w.toNat % 2 ^ 23 = 0 := by omega
    rw [hexp, hfrac, if_neg (by omega), show e + 2 - 1 = e + 1 from rfl, pow_succ]; omega

/-- The exponent of the last place in which `roundMagnitude` rounds `num / den`. -/
def F32.lastPlace (num den : Nat) : Nat := Nat.log2 (num / den) - 23

/-- The significand that `roundMagnitude` rounds `num / den` to, in units of the last place. -/
def F32.significand (num den : Nat) : Nat := roundHalfEven num (den * 2 ^ F32.lastPlace num den)

/-- `roundMagnitude` encodes the last place and the significand, up to the encoding of infinity. -/
theorem F32.roundMagnitude_eq (num den : Nat) :
    F32.roundMagnitude num den =
      min (F32.lastPlace num den * 2 ^ 23 + F32.significand num den) 0x7F800000 := rfl

/-- The value is at most a full significand of its last place. -/
theorem F32.lt_binade_top (num : Nat) {den : Nat} (hd : 0 < den) :
    num < 2 ^ 24 * (den * 2 ^ F32.lastPlace num den) := by
  have hlog : num / den < 2 ^ (F32.lastPlace num den + 24) :=
    Nat.lt_log2_self.trans_le (Nat.pow_le_pow_right (by decide) (by unfold F32.lastPlace; omega))
  calc num < 2 ^ (F32.lastPlace num den + 24) * den := (Nat.div_lt_iff_lt_mul hd).1 hlog
    _ = 2 ^ 24 * (den * 2 ^ F32.lastPlace num den) := by rw [pow_add]; ring

/-- Above the subnormals and the smallest binade, the value is at least the smallest full significand of its last
place. -/
theorem F32.binade_bottom_le {num den : Nat} (h : 0 < F32.lastPlace num den) :
    2 ^ 23 * (den * 2 ^ F32.lastPlace num den) ≤ num := by
  have hq : num / den ≠ 0 := by rintro h0; simp [F32.lastPlace, h0] at h
  have hlog : 2 ^ (F32.lastPlace num den + 23) ≤ num / den :=
    (Nat.pow_le_pow_right (by decide) (by unfold F32.lastPlace at h ⊢; omega)).trans (Nat.log2_self_le hq)
  calc 2 ^ 23 * (den * 2 ^ F32.lastPlace num den) = 2 ^ (F32.lastPlace num den + 23) * den := by rw [pow_add]; ring
    _ ≤ num / den * den := Nat.mul_le_mul_right _ hlog
    _ ≤ num := Nat.div_mul_le_self _ _

/-- A value below the top of a binade is rounded in a last place no higher than that binade's. -/
theorem F32.lastPlace_le_of_lt {num den k : Nat} (h : num < 2 ^ (k + 24) * den) : F32.lastPlace num den ≤ k := by
  by_contra! hgt
  refine h.not_ge ?_
  calc 2 ^ (k + 24) * den = 2 ^ 23 * (den * 2 ^ (k + 1)) := by ring
    _ ≤ 2 ^ 23 * (den * 2 ^ F32.lastPlace num den) := by gcongr <;> omega
    _ ≤ num := F32.binade_bottom_le (k.zero_le.trans_lt hgt)

/-- The significand has at most 24 bits, or is `2^24`, which the carry of the encoding stands for. -/
theorem F32.significand_le (num : Nat) {den : Nat} (hd : 0 < den) : F32.significand num den ≤ 2 ^ 24 := by
  have hlt := F32.lt_binade_top num hd
  have hpos : 0 < den * 2 ^ F32.lastPlace num den := by positivity
  exact Nat.lt_succ_iff.1 (roundHalfEven_lt hpos (by omega))

/-- The significand is full, but for the last place of the subnormals. -/
theorem F32.lastPlace_eq_zero_or_significand_full (num : Nat) {den : Nat} (hd : 0 < den) :
    F32.lastPlace num den = 0 ∨ 2 ^ 23 ≤ F32.significand num den :=
  (Nat.eq_zero_or_pos _).imp_right fun h => le_roundHalfEven (by positivity) (F32.binade_bottom_le h)

/-- Below the bound where rounding overflows, the encoding is below that of infinity (R14). -/
theorem F32.encoding_lt {num den : Nat} (hd : 0 < den) (h : 2 * num < (2 ^ 25 - 1) * 2 ^ 253 * den) :
    F32.lastPlace num den * 2 ^ 23 + F32.significand num den < 0x7F800000 := by
  have hle : F32.lastPlace num den ≤ 253 := F32.lastPlace_le_of_lt (by omega)
  rcases hle.lt_or_eq with hlt | heq
  · have hq := F32.significand_le num hd
    omega
  · have hq : F32.significand num den < 2 ^ 24 := by
      unfold F32.significand
      rw [heq]
      exact roundHalfEven_lt (by positivity) (by omega)
    omega

/-- Below the bound, the word that is rounded to holds the last place and the significand, and the sign of the value. -/
theorem F32.rn32_encoding {n : Int} {d : Nat} (hd : 0 < d) (h : 2 * n.natAbs < (2 ^ 25 - 1) * 2 ^ 253 * d) :
    (F32.rn32 n d).toNat % 2 ^ 31 = F32.lastPlace n.natAbs d * 2 ^ 23 + F32.significand n.natAbs d ∧
      (F32.rn32 n d).msb = decide (n < 0) := by
  have hlt := F32.encoding_lt hd h
  rw [BitVec.msb_eq_decide, F32.rn32, BitVec.toNat_ofNat, F32.roundMagnitude_eq, min_eq_left hlt.le, decide_eq_decide]
  split_ifs with hn <;> omega

/-- Below the bound, rounding gives the significand in units of the last place, with the sign of the value. -/
theorem F32.units_rn32 {n : Int} {d : Nat} (hd : 0 < d) (h : 2 * n.natAbs < (2 ^ 25 - 1) * 2 ^ 253 * d) :
    F32.units (F32.rn32 n d) =
      (if n < 0 then -1 else 1) * ((F32.significand n.natAbs d : Int) * 2 ^ F32.lastPlace n.natAbs d) := by
  obtain ⟨hbits, hsign⟩ := F32.rn32_encoding hd h
  rw [F32.units, hsign, F32.magnitude_of_encoding hbits (F32.significand_le _ hd)
    (F32.lastPlace_eq_zero_or_significand_full _ hd)]
  simp only [decide_eq_true_eq]
  split_ifs <;> push_cast <;> ring

/-- The lowest bit of a word rounded to is that of the significand. -/
theorem F32.fraction_rn32_mod_two {n : Int} {d : Nat} (hd : 0 < d)
    (h : 2 * n.natAbs < (2 ^ 25 - 1) * 2 ^ 253 * d) :
    F32.fraction (F32.rn32 n d) % 2 = F32.significand n.natAbs d % 2 := by
  have hbits := (F32.rn32_encoding hd h).1
  unfold F32.fraction
  omega

/-- A rounded value is finite below the bound (R14). -/
theorem F32.expField_rn32_lt {n : Int} {d : Nat} (hd : 0 < d) (h : 2 * n.natAbs < (2 ^ 25 - 1) * 2 ^ 253 * d) :
    F32.expField (F32.rn32 n d) < 255 := by
  have hbits := (F32.rn32_encoding hd h).1
  have hlt := F32.encoding_lt hd h
  unfold F32.expField
  omega

/-- The significand in units of the last place is the nearest of the values that are a whole number of last places or lie
below the binade, and even where another is as near. -/
theorem F32.significand_nearest (num : Nat) {den : Nat} (hd : 0 < den) {U : Int}
    (hU : 2 ^ F32.lastPlace num den ∣ U.natAbs ∨
      0 < F32.lastPlace num den ∧ U.natAbs < 2 ^ 23 * 2 ^ F32.lastPlace num den) :
    |(F32.significand num den : Int) * 2 ^ F32.lastPlace num den * den - num| ≤ |U * den - num| ∧
      (|(F32.significand num den : Int) * 2 ^ F32.lastPlace num den * den - num| = |U * den - num| →
        U ≠ (F32.significand num den : Int) * 2 ^ F32.lastPlace num den → F32.significand num den % 2 = 0) := by
  have hpos : 0 < den * 2 ^ F32.lastPlace num den := by positivity
  have place (a : Int) : a * 2 ^ F32.lastPlace num den * den = a * (den * 2 ^ F32.lastPlace num den : Nat) := by
    push_cast; ring
  rw [place]
  rcases hU with hdvd | ⟨he, hlt⟩
  · obtain ⟨a, rfl⟩ : (2 : Int) ^ F32.lastPlace num den ∣ U := by
      rw [← Int.natAbs_dvd_natAbs, Int.natAbs_pow]; exact hdvd
    rw [mul_comm _ a, place]
    obtain ⟨hle, htie⟩ := roundHalfEven_nearest num hpos a
    exact ⟨hle, fun heq hne => htie heq (by rintro rfl; exact hne rfl)⟩
  · -- The bottom of the binade lies between `U` and the value, and is one of the integers compared above.
    have hbottom := (roundHalfEven_nearest num hpos (2 ^ 23)).1
    have hnum := F32.binade_bottom_le he
    have hUlt : U * den < 2 ^ 23 * (den * 2 ^ F32.lastPlace num den : Nat) := by
      have : U < 2 ^ 23 * 2 ^ F32.lastPlace num den := by zify at hlt; exact (le_abs_self U).trans_lt hlt
      calc U * den < 2 ^ 23 * 2 ^ F32.lastPlace num den * den := by gcongr
        _ = _ := by push_cast; ring
    have hcloser :
        |(F32.significand num den : Int) * (den * 2 ^ F32.lastPlace num den : Nat) - num| < |U * den - num| := by
      refine hbottom.trans_lt ?_
      zify at hnum
      push_cast at hUlt ⊢
      rw [abs_of_nonpos (by omega), abs_of_neg (by omega)]
      omega
    exact ⟨hcloser.le, fun heq => absurd heq hcloser.ne⟩

/-- Below the bound, no finite value is nearer than the rounded one; where another is as near, the rounded one has an
even fraction (R14). -/
theorem F32.rn32_nearest {n : Int} {d : Nat} (hd : 0 < d) (h : 2 * n.natAbs < (2 ^ 25 - 1) * 2 ^ 253 * d) (v : Word) :
    |F32.units (F32.rn32 n d) * d - n| ≤ |F32.units v * d - n| ∧
      (|F32.units (F32.rn32 n d) * d - n| = |F32.units v * d - n| →
        F32.units v ≠ F32.units (F32.rn32 n d) → F32.fraction (F32.rn32 n d) % 2 = 0) := by
  rw [F32.fraction_rn32_mod_two hd h, F32.units_rn32 hd h]
  have hgrid := F32.dvd_magnitude_or_lt v (F32.lastPlace n.natAbs d)
  rw [← F32.natAbs_units] at hgrid
  generalize F32.units v = U at hgrid ⊢
  split_ifs with hn
  · have mirror (x : Int) : |-x * d - n| = |x * d - (n.natAbs : Int)| := by
      rw [Int.ofNat_natAbs_of_nonpos hn.le, ← abs_neg]; ring_nf
    obtain ⟨V, rfl⟩ : ∃ V, U = -V := ⟨-U, (neg_neg U).symm⟩
    rw [neg_one_mul, mirror, mirror, Ne, neg_inj]
    exact F32.significand_nearest n.natAbs hd (by rwa [Int.natAbs_neg] at hgrid)
  · have hnearest := F32.significand_nearest n.natAbs hd hgrid
    rwa [Int.natAbs_of_nonneg (not_lt.1 hn), ← one_mul (_ * (2 : Int) ^ _)] at hnearest

/-- A value that binary32 holds is rounded to itself. -/
theorem F32.units_rn32_of_dvd {n : Nat} (h : 2 * n < (2 ^ 25 - 1) * 2 ^ 253) (hdvd : 2 ^ F32.lastPlace n 1 ∣ n) :
    F32.units (F32.rn32 n 1) = n := by
  have hexact := (F32.significand_nearest n one_pos (U := n) (.inl hdvd)).1
  rw [F32.units_rn32 one_pos (by simpa using h), if_neg (by omega), one_mul]
  simpa [sub_eq_zero] using hexact

/-- `f32` is exact on what a byte holds: the last place is at most 2^0 (R15). -/
theorem units_f32 {n : Nat} (hn : n ≤ 255) : F32.units (f32 n) = (n : Int) * 2 ^ 149 := by
  have hplace : F32.lastPlace (n * 2 ^ 149) 1 ≤ 149 := F32.lastPlace_le_of_lt (by omega)
  have hexact := F32.units_rn32_of_dvd (n := n * 2 ^ 149) (by omega) (Dvd.dvd.mul_left (pow_dvd_pow 2 hplace) n)
  exact_mod_cast hexact

/-- Settles O41: below the bound the word holds the last place and the significand, and the significand is rounded
to nearest, ties to even; the finite values off the grid of the last place lie below the binade and are farther. -/
theorem roundingIsToNearestEven : Obligations.RoundingIsToNearestEven :=
  ⟨fun _ _ hd h => ⟨F32.expField_rn32_lt hd h, fun v _ => F32.rn32_nearest hd h v⟩, fun _ _ => rfl, fun _ _ => rfl,
    fun _ => units_f32⟩

/-- `rne` errs by at most half of 1, and by exactly half only toward an even integer (R16). -/
theorem rne_error (w : Word) :
    2 * |rne w * 2 ^ 149 - F32.units w| ≤ 2 ^ 149 ∧
      (2 * |rne w * 2 ^ 149 - F32.units w| = 2 ^ 149 → rne w % 2 = 0) := by
  have herr := roundHalfEven_error (F32.magnitude w) (den := 2 ^ 149) (by positivity)
  rw [Nat.cast_pow, Nat.cast_ofNat] at herr
  unfold rne F32.units
  split_ifs
  · rw [neg_mul, neg_sub_neg, abs_sub_comm]; omega
  · omega

/-- `truncToInt` is the quotient by 1, toward zero (R16). -/
theorem truncToInt_eq_tdiv (w : Word) : truncToInt w = (F32.units w).tdiv (2 ^ 149) := by
  unfold truncToInt F32.units
  split_ifs
  · rw [Int.neg_tdiv]; rfl
  · rfl

/-- `sat8` is the clamped integer, which a byte holds (R16). -/
theorem sat8_toNat (n : Int) : ((sat8 n).toNat : Int) = min (max n 0) 255 := by
  rw [sat8, BitVec.toNat_ofNat]; omega

/-- Settles O42, by the error of `roundHalfEven` under either sign. -/
theorem narrowingRoundsAndSaturates : Obligations.NarrowingRoundsAndSaturates :=
  ⟨rne_error, truncToInt_eq_tdiv, sat8_toNat⟩

end Sys2Proof.Machine
end

section
/-! SUPPORT. What a step of the machine can do, said once: the event of the host, then micro-steps of the sequencer (log 1). -/
namespace Sys2Proof.Machine

/-- What presenting a command word leaves before the sequencer runs on: nothing (a NOP, R116), an overrun (R119), a refusal
(R128), or a command that has begun (R118). -/
inductive Presented (s : State) : State → Prop where
  | nothing : Presented s s
  | overrun (hbusy : s.busy = true) : Presented s (overrun s)
  | refused (w : Word) (e : ErrCode) (hbusy : s.busy = false) (hv : validate w s = some e) :
      Presented s (refuseCommand e w s)
  | kernel (w : Word) (hbusy : s.busy = false) (hv : validate w s = none) (hop : opField w = 1 ∨ opField w = 3) :
      Presented s (beginKernel (latchOperands w s))
  | pass (w : Word) (hbusy : s.busy = false) (hv : validate w s = none) (hop : opField w = 2) :
      Presented s (beginPass .pass1 (latchOperands w s))

/-- What an event of the host leaves before the sequencer runs on. -/
inductive HostStep (s : State) : HostOp → State → Prop where
  /-- Reads, loads, waits, changes of the platform, writes to CTRL with bit 0 = 0, and accesses while `rst_n` is low. -/
  | quiet {op : HostOp} (rdata : Word) (bus : Bus) (picks : List Nat) (free : Nat) :
      HostStep s op { s with rdata := rdata, bus := bus, picks := picks, free := free }
  | command {off : Offset} {v : Word} {u : State} (hlow : s.rstLow = false) (h : Presented s u) :
      HostStep s (.write off v) u
  | register (off : Offset) (v : Word) (hlow : s.rstLow = false) : HostStep s (.write off v) (writeRegister off v s)
  | sameCycle (v : Word) (hlow : s.rstLow = false) : HostStep s (.statusSame v) (statusSameCycle v s)
  | resetWaits (v : Word) (hlow : s.rstLow = false) (hbit : v.getLsbD 0 = true) (hst : s.stalled = true) :
      HostStep s (.write ctrlOffset v) { s with srstWait := true }
  | softReset (v : Word) (hlow : s.rstLow = false) (hbit : v.getLsbD 0 = true) (hst : s.stalled = false) :
      HostStep s (.write ctrlOffset v) (resetNow s)
  | resetFalls : HostStep s (.rstN false) { resetNow s with rstLow := true }
  | resetRises : HostStep s (.rstN true) { s with rstLow := false }
  | store (a : Nat) (v : Word) (hin : a + 4 ≤ 2 ^ s.inst.addrW) :
      HostStep s (.store a v) { s with mem := Memory.write32 s.mem a v }
  | race (a : Nat) (v : Word) (hin : a + 4 ≤ 2 ^ s.inst.addrW) (hrace : ∃ l < 4, s.storeRaces (a + l) = true) :
      HostStep s (.store a v) (racingStore a v s)

/-- A command word presented is one of `Presented`, where the command it starts is (R118, R119, R128). -/
theorem present_presented {w : Word} {start : State → State} {s : State}
    (hstart : s.busy = false → validate w s = none → Presented s (start s)) :
    ∃ u, Presented s u ∧ present w start s = runLead u := by
  unfold present
  cases hb : s.busy with
  | true => exact ⟨_, .overrun hb, rfl⟩
  | false =>
    cases hv : validate w s with
    | none => exact ⟨_, hstart hb hv, rfl⟩
    | some e => exact ⟨_, .refused w e hb hv, rfl⟩

/-- Running any instruction but SRST presents a command word. -/
theorem exec_presented {i : Instr} (hi : ∀ ctrl, i ≠ .srst ctrl) (s : State) :
    ∃ u, Presented s u ∧ exec i s = .next (runLead u) := by
  have key : ∀ {w start}, exec i s = .next (present w start s) →
      (s.busy = false → validate w s = none → Presented s (start s)) →
      ∃ u, Presented s u ∧ exec i s = .next (runLead u) := fun hexec hstart => by
    obtain ⟨u, hu, hp⟩ := present_presented hstart
    exact ⟨u, hu, hexec.trans (congrArg _ hp)⟩
  cases i with
  | nop vw => exact key rfl fun _ _ => .nothing
  | kgen vw => exact key rfl fun hb hv => .kernel _ hb hv (.inl (by cases vw <;> decide))
  | hpassV128 => exact key rfl fun hb hv => .pass _ hb hv (by decide)
  | hpassV256 => exact key rfl fun hb hv => .pass _ hb hv (by decide)
  | blurV128 => exact key rfl fun hb hv => .kernel _ hb hv (.inr (by decide))
  | blurV256 => exact key rfl fun hb hv => .kernel _ hb hv (.inr (by decide))
  | srst ctrl => exact absurd rfl (hi ctrl)

/-- A word written to CMD is no SRST (R73). -/
theorem decodeCommand_ne_srst {w ctrl : Word} : decodeCommand w ≠ .ok (.srst ctrl) := by
  unfold decodeCommand
  split
  · split
    · nofun
    · nofun
    · split <;> nofun
    · split <;> nofun
    · nofun
  · nofun

/-- Only a word with bit 0 = 1 written to CTRL is an SRST (R24, R117). -/
theorem decodeWrite_srst {off : Offset} {w ctrl : Word} (h : decodeWrite off w = .ok (.srst ctrl)) :
    off = ctrlOffset ∧ w.getLsbD 0 = true := by
  unfold decodeWrite at h
  split at h
  · exact absurd h decodeCommand_ne_srst
  · split at h
    · rename_i hoff
      refine ⟨hoff, ?_⟩
      unfold decodeControl at h
      split at h
      · assumption
      · cases h
    · cases h

/-- An event that leaves `u` and answers: the sequencer has run on from `u`. -/
theorem HostStep.answered {s u t : State} {op : HostOp} (hu : HostStep s op u)
    (ht : (.next (runLead u) : Host.Outcome State Fault Refusal) = .next t) :
    ∃ u, HostStep s op u ∧ t = runLead u :=
  ⟨u, hu, (Host.Outcome.next.inj ht).symm⟩

/-- A register write that is answered (R24, R121, R146). -/
theorem portWrite_cases {off : Offset} {v : Word} {s t : State} (h : portWrite off v s = .next t) :
    ∃ u, HostStep s (.write off v) u ∧ t = runLead u := by
  have illegal : s.rstLow = false → illegalCommand v s = .next t →
      ∃ u, HostStep s (.write off v) u ∧ t = runLead u := fun hlow ht => by
    obtain ⟨u, hu, hp⟩ := present_presented (w := v) (start := id) (s := s) fun _ _ => .nothing
    exact (HostStep.command hlow hu).answered ((congrArg _ hp).symm.trans ht)
  unfold portWrite at h
  split at h
  · exact (HostStep.quiet s.rdata s.bus s.picks s.free).answered h
  · rename_i hlow
    rw [Bool.not_eq_true] at hlow
    split at h
    · cases h
    · split at h
      · rename_i i hdec
        by_cases hi : ∃ ctrl, i = .srst ctrl
        · obtain ⟨ctrl, rfl⟩ := hi
          obtain ⟨rfl, hbit⟩ := decodeWrite_srst hdec
          rw [exec, execSrst] at h
          split at h
          · exact (HostStep.resetWaits v hlow hbit ‹_›).answered h
          · exact (HostStep.softReset v hlow hbit (by simpa using ‹¬ s.stalled = true›)).answered h
        · obtain ⟨u, hu, hexec⟩ := exec_presented (fun ctrl hc => hi ⟨ctrl, hc⟩) s
          exact (HostStep.command hlow hu).answered (hexec.symm.trans h)
      · exact illegal hlow h
      · exact illegal hlow h
      · exact (HostStep.quiet s.rdata s.bus s.picks s.free).answered h
      · exact (HostStep.register off v hlow).answered h

/-- A host load that is answered changes what the host has read, and a racing one uses an open choice (R67, R123). -/
theorem hostLoad_cases {a : Nat} {s t : State} (h : hostLoad a s = .next t) :
    ∃ u, HostStep s (.load a) u ∧ t = runLead u := by
  unfold hostLoad at h
  split at h
  · cases h
  · split at h
    · exact (HostStep.quiet _ s.bus s.picks.tail s.free).answered h
    · exact (HostStep.quiet _ s.bus s.picks s.free).answered h

/-- A host store that is answered lies in the memory space, and races or not (R67, R123). -/
theorem hostStore_cases {a : Nat} {v : Word} {s t : State} (h : hostStore a v s = .next t) :
    ∃ u, HostStep s (.store a v) u ∧ t = runLead u := by
  unfold hostStore at h
  split at h
  · cases h
  · rename_i hin
    rw [not_lt] at hin
    split at h
    · rename_i hrace
      obtain ⟨l, hl, hr⟩ := List.any_eq_true.1 hrace
      exact (HostStep.race a v hin ⟨l, List.mem_range.1 hl, hr⟩).answered h
    · exact (HostStep.store a v hin).answered h

/-- An event that is answered is one of `HostStep`; then the sequencer runs on (log 1). -/
theorem hostEvent_cases {op : HostOp} {s t : State} (h : hostEvent op s = .next t) :
    ∃ u, HostStep s op u ∧ t = runLead u := by
  cases op with
  | write off v => exact portWrite_cases h
  | read off =>
    rw [hostEvent, portRead] at h
    split at h
    · exact (HostStep.quiet _ s.bus s.picks (s.free + 1)).answered h
    · split at h
      · cases h
      · exact (HostStep.quiet _ s.bus s.picks s.free).answered h
  | otherSize off =>
    rw [hostEvent, portOtherSize] at h
    split at h
    · exact (HostStep.quiet s.rdata s.bus s.picks s.free).answered h
    · cases h
  | statusSame v =>
    rw [hostEvent] at h
    split at h
    · exact (HostStep.quiet s.rdata s.bus s.picks s.free).answered h
    · exact (HostStep.sameCycle v (by simpa using ‹¬ s.rstLow = true›)).answered h
  | load a => exact hostLoad_cases h
  | store a v => exact hostStore_cases h
  | rstN level =>
    cases level with
    | false => exact HostStep.resetFalls.answered h
    | true => exact HostStep.resetRises.answered h
  | platform b => exact (HostStep.quiet s.rdata b s.picks s.free).answered h
  | wait => exact (HostStep.quiet s.rdata s.bus s.picks s.free).answered h

/-- A step is a micro-step of the sequencer, where the host has no event left, or an event and the micro-steps after it. -/
theorem step_cases {s t : State} (h : step s = .next t) :
    (s.inputs = [] ∧ t = (tick s).1) ∨
      ∃ op n rest u, s.inputs = { op := op, lead := n } :: rest ∧
        HostStep { s with inputs := rest, lead := n } op u ∧ t = runLead u := by
  unfold step nextEvent at h
  split at h
  · exact .inl ⟨by assumption, (Host.Outcome.next.inj h).symm⟩
  · rename_i x rest hin
    obtain ⟨u, hu, ht⟩ := hostEvent_cases h
    exact .inr ⟨x.op, x.lead, rest, u, hin, hu, ht⟩

end Sys2Proof.Machine
end

section
/-! SUPPORT. Which flags a step can clear, and what it keeps of a running command (R26, R39, R131, R133). -/
namespace Sys2Proof.Machine

/-- A STATUS write clears DONE, ERR with its registers, and OVR, each where its bit is 1, and nothing else (R122). -/
theorem acknowledge_frame (v : Word) (s : State) :
    acknowledge v s =
      { s with
        done := s.done && !v.getLsbD 1
        err := s.err && !v.getLsbD 2
        errCode := if v.getLsbD 2 then 0 else s.errCode
        errAddr := if v.getLsbD 2 then 0 else s.errAddr
        ovr := s.ovr && !v.getLsbD 3 } := by
  unfold acknowledge clearError
  cases v.getLsbD 1 <;> cases v.getLsbD 2 <;> cases v.getLsbD 3 <;> simp

/-- A STATUS write in the same cycle as a micro-step changes only flags and error registers of what the micro-step leaves:
it keeps the flag the micro-step sets, and clears the others as it would alone (R135 item 3). -/
theorem statusSameCycle_cases (v : Word) (s : State) :
    statusSameCycle v s = acknowledge v (tick s).1 ∨
      statusSameCycle v s = { acknowledge v (tick s).1 with done := true } ∨
      statusSameCycle v s =
        { acknowledge v (tick s).1 with
          err := (tick s).1.err, errCode := (tick s).1.errCode, errAddr := (tick s).1.errAddr } := by
  unfold statusSameCycle
  cases h : (tick s).2
  · exact .inl (by simp [h])
  · exact .inr (.inl (by simp [h]))
  · exact .inr (.inr (by simp [h]))

/-! The flags. -/

/-- Each flag that is 1 in `s` is 1 in `t` (R26). -/
structure FlagsKept (s t : State) : Prop where
  done : s.done = true → t.done = true
  err : s.err = true → t.err = true
  ovr : s.ovr = true → t.ovr = true
  kvalid : s.kvalid = true → t.kvalid = true

/-- Flags kept twice are kept. -/
theorem FlagsKept.trans {s t u : State} (h : FlagsKept s t) (h' : FlagsKept t u) : FlagsKept s u :=
  ⟨h'.done ∘ h.done, h'.err ∘ h.err, h'.ovr ∘ h.ovr, h'.kvalid ∘ h.kvalid⟩

/-- Completion sets DONE and clears no flag (R131). -/
theorem FlagsKept.complete (s : State) : FlagsKept s (completeCommand s) := ⟨fun _ => rfl, id, id, id⟩

/-- The error entry sets ERR or leaves every flag as it is (R130). -/
theorem FlagsKept.errorEntry (code : ErrCode) (op : BitVec 4) (vw : Bool) (addr : Nat) (s : State) :
    FlagsKept s (errorEntry code op vw addr s) := by
  unfold Machine.errorEntry
  split
  · exact ⟨id, id, id, id⟩
  · exact ⟨id, fun _ => rfl, id, id⟩

/-- The end of a phase clears no flag (R131). -/
theorem FlagsKept.endPhase (s : State) : FlagsKept s (endPhase s).1 := by
  unfold Machine.endPhase
  split
  · exact ⟨id, id, id, id⟩
  · split
    · exact ⟨id, id, id, id⟩
    · exact .complete s
  · split
    · exact ⟨id, id, id, id⟩
    · exact .complete s
  · exact .complete s

/-- Cutting a pass short clears no flag. -/
theorem FlagsKept.landUnits (p : Pass) (n : Nat) (units : List Nat) (s : State) :
    FlagsKept s (landUnits p n units s) := by
  rw [landUnits_frame]
  exact ⟨id, id, id, id⟩

/-- An abort clears no flag (R129, R130). -/
theorem FlagsKept.abort (code : ErrCode) (addr : Nat) (s : State) : FlagsKept s (abortCommand code addr s) := by
  rw [abortCommand_frame]
  exact ⟨id, fun _ => rfl, id, id⟩

/-- A micro-step of the sequencer clears no flag (R133, R135). -/
theorem FlagsKept.tick (s : State) : FlagsKept s (tick s).1 := by
  have drop : ∀ t : State, FlagsKept t t.dropPick := fun _ => ⟨id, id, id, id⟩
  have take : FlagsKept s (takeUnit s) := ⟨id, id, id, id⟩
  have taken := (take.trans (drop _)).trans (drop _)
  rcases tick_cases s with ⟨h, -⟩ | ⟨h, -⟩ | ⟨h, -⟩ | ⟨⟨u, -, ⟨-, h⟩ | ⟨q, -, n, t, rfl, ⟨-, h⟩ | ⟨-, h⟩⟩⟩, -⟩ <;> rw [h]
  · exact ⟨id, id, id, id⟩
  · exact ⟨id, id, id, fun _ => rfl⟩
  · exact .endPhase s
  · dsimp only
    rw [runOutputs_frame]
    exact ⟨id, id, id, id⟩
  · exact (taken.trans (.landUnits _ _ _ _)).trans ⟨id, id, id, id⟩
  · exact (taken.trans (.landUnits _ _ _ _)).trans (.abort _ _ _)

/-- Nor does any number of them. -/
theorem FlagsKept.runLead (s : State) : FlagsKept s (runLead s) :=
  advance_induction (P := FlagsKept s) (fun t h => h.trans (.tick t)) s.lead ⟨id, id, id, id⟩

/-- Presenting a command word clears no flag (R118, R119, R128). -/
theorem FlagsKept.presented {s u : State} (h : Presented s u) : FlagsKept s u := by
  cases h with
  | nothing => exact ⟨id, id, id, id⟩
  | overrun => exact ⟨id, id, fun _ => rfl, id⟩
  | refused w e => exact .errorEntry _ _ _ _ s
  | kernel => exact ⟨id, id, id, id⟩
  | pass => exact ⟨id, id, id, id⟩

/-- The event is a reset: a soft reset (R117) or the fall of `rst_n` (R146). -/
def HostOp.Resets (op : HostOp) : Prop :=
  (∃ w : Word, w.getLsbD 0 = true ∧ op = .write 0x008 w) ∨ op = .rstN false

/-- The event is a STATUS write with bit `b` set (R122, R135 item 3). -/
def HostOp.Clears (op : HostOp) (b : Nat) : Prop :=
  ∃ w : Word, w.getLsbD b = true ∧ (op = .write 0x010 w ∨ op = .statusSame w)

/-- Between `s` and `u`, with the event `op`, a flag falls only by a reset or, all but KVALID, by a STATUS write. -/
structure FlagsFall (s : State) (op : HostOp) (u : State) : Prop where
  done : s.done = true → u.done = true ∨ op.Resets ∨ op.Clears 1
  err : s.err = true → u.err = true ∨ op.Resets ∨ op.Clears 2
  ovr : s.ovr = true → u.ovr = true ∨ op.Resets ∨ op.Clears 3
  kvalid : s.kvalid = true → u.kvalid = true ∨ op.Resets

/-- Flags that are kept do not fall. -/
theorem FlagsKept.fall {s u : State} {op : HostOp} (h : FlagsKept s u) : FlagsFall s op u :=
  ⟨.inl ∘ h.done, .inl ∘ h.err, .inl ∘ h.ovr, .inl ∘ h.kvalid⟩

/-- A reset may clear every flag. -/
theorem HostOp.Resets.fall {s u : State} {op : HostOp} (h : op.Resets) : FlagsFall s op u :=
  ⟨fun _ => .inr (.inl h), fun _ => .inr (.inl h), fun _ => .inr (.inl h), fun _ => .inr h⟩

/-- Keeping the flags before the event does not matter. -/
theorem FlagsFall.before {s t u : State} {op : HostOp} (h : FlagsFall t op u) (hst : FlagsKept s t) : FlagsFall s op u :=
  ⟨h.done ∘ hst.done, h.err ∘ hst.err, h.ovr ∘ hst.ovr, h.kvalid ∘ hst.kvalid⟩

/-- Nor does keeping them after it. -/
theorem FlagsFall.after {s t u : State} {op : HostOp} (h : FlagsFall s op t) (htu : FlagsKept t u) : FlagsFall s op u :=
  ⟨fun hs => (h.done hs).imp_left htu.done, fun hs => (h.err hs).imp_left htu.err,
    fun hs => (h.ovr hs).imp_left htu.ovr, fun hs => (h.kvalid hs).imp_left htu.kvalid⟩

/-- A STATUS write clears a flag only where its bit is 1 (R122). -/
theorem FlagsFall.acknowledge {v : Word} {s : State} {op : HostOp} (hop : op = .write 0x010 v ∨ op = .statusSame v) :
    FlagsFall s op (acknowledge v s) := by
  have clears : ∀ {x : Bool} {b : Nat}, x = true → (x && !v.getLsbD b) = true ∨ op.Resets ∨ op.Clears b := by
    intro x b hx
    cases hb : v.getLsbD b with
    | false => exact .inl (by simp [hx])
    | true => exact .inr (.inr ⟨v, hb, hop⟩)
  rw [acknowledge_frame]
  exact ⟨clears, clears, clears, .inl⟩

/-- A write to another register than STATUS leaves every flag (R121). -/
theorem FlagsFall.writeRegister (off : Offset) (v : Word) (s : State) :
    FlagsFall s (.write off v) (writeRegister off v s) := by
  unfold Machine.writeRegister
  split
  · rename_i hoff
    exact .acknowledge (.inl (by rw [show off = 0x010 from BitVec.eq_of_toNat_eq hoff]))
  all_goals exact FlagsKept.fall ⟨id, id, id, id⟩

/-- In the same cycle as a micro-step a STATUS write clears no flag but those of its bits (R135 item 3). -/
theorem FlagsFall.sameCycle (v : Word) (s : State) : FlagsFall s (.statusSame v) (statusSameCycle v s) := by
  refine FlagsFall.before ?_ (.tick s)
  obtain ⟨hdone, herr, hovr, hkvalid⟩ :=
    FlagsFall.acknowledge (s := (tick s).1) (op := .statusSame v) (.inr rfl)
  rcases statusSameCycle_cases v s with h | h | h <;> rw [h]
  · exact ⟨hdone, herr, hovr, hkvalid⟩
  · exact ⟨fun _ => .inl rfl, herr, hovr, hkvalid⟩
  · exact ⟨hdone, .inl, hovr, hkvalid⟩

/-- Of the host's events only a reset and a STATUS write clear flags. -/
theorem HostStep.flagsFall {s u : State} {op : HostOp} (h : HostStep s op u) : FlagsFall s op u := by
  have kept : ∀ {u}, FlagsKept s u → FlagsFall s op u := fun h => h.fall
  cases h with
  | command hlow h => exact kept (.presented h)
  | register off v => exact .writeRegister off v s
  | sameCycle v => exact .sameCycle v s
  | softReset v hlow hbit => exact HostOp.Resets.fall (.inl ⟨v, hbit, rfl⟩)
  | resetFalls => exact HostOp.Resets.fall (.inr rfl)
  | race a v => exact kept (by rw [racingStore_frame]; exact ⟨id, id, id, id⟩)
  | _ => exact kept ⟨id, id, id, id⟩

/-- Settles O53, from what the event clears and that no micro-step clears a flag. -/
theorem flagsFallOnlyWhenCleared : Obligations.FlagsFallOnlyWhenCleared := by
  unfold Obligations.FlagsFallOnlyWhenCleared
  intro s t hstep resets clears
  rcases step_cases hstep with ⟨-, rfl⟩ | ⟨op, n, rest, u, hin, hu, rfl⟩
  · obtain ⟨hdone, herr, hovr, hkvalid⟩ := FlagsKept.tick s
    exact ⟨.inl ∘ hdone, .inl ∘ herr, .inl ∘ hovr, .inl ∘ hkvalid⟩
  · obtain ⟨hdone, herr, hovr, hkvalid⟩ := hu.flagsFall.after (.runLead u)
    have hreset : op.Resets → resets := by
      rintro (⟨w, hbit, rfl⟩ | rfl)
      · exact ⟨n, rest, .inl ⟨w, hbit, hin⟩⟩
      · exact ⟨n, rest, .inr hin⟩
    have hclear : ∀ {b}, op.Clears b → clears b := by
      rintro b ⟨w, hbit, rfl | rfl⟩
      · exact ⟨n, rest, w, hbit, .inl hin⟩
      · exact ⟨n, rest, w, hbit, .inr hin⟩
    exact ⟨fun h => (hdone h).imp_right (Or.imp hreset hclear), fun h => (herr h).imp_right (Or.imp hreset hclear),
      fun h => (hovr h).imp_right (Or.imp hreset hclear), fun h => (hkvalid h).imp_right hreset⟩

/-! The running command. -/

/-- If `t` is still busy, so was `s`, with the same latched context and copy of memory (R39, R67). -/
structure ContextKept (s t : State) : Prop where
  busy : t.phase ≠ .idle → s.phase ≠ .idle
  latch : t.phase ≠ .idle → t.latch = s.latch
  before : t.phase ≠ .idle → t.before = s.before

/-- Nothing of the command has changed. -/
theorem ContextKept.same {s t : State} (hp : t.phase = s.phase) (hl : t.latch = s.latch) (hb : t.before = s.before) :
    ContextKept s t :=
  ⟨fun h => hp ▸ h, fun _ => hl, fun _ => hb⟩

/-- A context kept twice is kept. -/
theorem ContextKept.trans {s t u : State} (h : ContextKept s t) (h' : ContextKept t u) : ContextKept s u :=
  ⟨fun hu => h.busy (h'.busy hu), fun hu => (h'.latch hu).trans (h.latch (h'.busy hu)),
    fun hu => (h'.before hu).trans (h.before (h'.busy hu))⟩

/-- Once idle there is no context to keep. -/
theorem ContextKept.of_idle {s t : State} (h : t.phase = .idle) : ContextKept s t :=
  ⟨fun hn => absurd h hn, fun hn => absurd h hn, fun hn => absurd h hn⟩

/-- Cutting a pass short keeps the copy of memory at acceptance (R67). -/
@[simp] theorem landUnits_before (p : Pass) (n : Nat) (units : List Nat) (s : State) :
    (landUnits p n units s).before = s.before := by rw [landUnits_frame]

/-- A micro-step ends the command or keeps its context (R39, R114). -/
theorem ContextKept.tick (s : State) : ContextKept s (tick s).1 := by
  rcases tick_cases s with ⟨h, -⟩ | ⟨h, -⟩ | ⟨h, -, hph, -⟩ | ⟨⟨u, -, ⟨-, h⟩ | ⟨q, -, n, t, rfl, ⟨-, h⟩ | ⟨-, h⟩⟩⟩, -⟩ <;>
    rw [h]
  · exact .same rfl rfl rfl
  · exact .same rfl rfl rfl
  · have next : ∀ ph, ContextKept s (beginPass ph s) := fun ph => ⟨fun _ => hph, fun _ => rfl, fun _ => rfl⟩
    unfold endPhase
    split
    · exact .same rfl rfl rfl
    · split
      · exact next _
      · exact .of_idle rfl
    · split
      · exact next _
      · exact .of_idle rfl
    · exact .of_idle rfl
  · dsimp only
    rw [runOutputs_frame]
    exact .same rfl rfl rfl
  · exact .same (by simp) (by simp) (by simp)
  · exact .of_idle rfl

/-- So does any number of micro-steps. -/
theorem ContextKept.runLead (s : State) : ContextKept s (runLead s) :=
  advance_induction (P := ContextKept s) (fun t h => h.trans (.tick t)) s.lead (.same rfl rfl rfl)

/-- A register write reaches no latched context (R39). -/
theorem ContextKept.writeRegister (off : Offset) (v : Word) (s : State) :
    ContextKept s (writeRegister off v s) := by
  unfold Machine.writeRegister
  split
  · rw [acknowledge_frame]
    exact .same rfl rfl rfl
  all_goals exact .same rfl rfl rfl

/-- A STATUS write in the same cycle as a micro-step keeps what the micro-step keeps. -/
theorem ContextKept.sameCycle (v : Word) (s : State) : ContextKept s (statusSameCycle v s) := by
  refine (ContextKept.tick s).trans ?_
  rcases statusSameCycle_cases v s with h | h | h <;> rw [h, acknowledge_frame] <;> exact .same rfl rfl rfl

/-- A command word presented while a command runs leaves its context (R119). -/
theorem ContextKept.presented {s u : State} (h : Presented s u) (hbusy : s.busy = true) : ContextKept s u := by
  cases h with
  | nothing => exact .same rfl rfl rfl
  | overrun => exact .same rfl rfl rfl
  | refused w e =>
    unfold refuseCommand errorEntry
    split <;> exact .same rfl rfl rfl
  | kernel w hidle => rw [hidle] at hbusy; cases hbusy
  | pass w hidle => rw [hidle] at hbusy; cases hbusy

/-- An event of the host ends the running command, by a reset (R146, R147), or keeps its context (R39, R119). -/
theorem HostStep.contextKept {s u : State} {op : HostOp} (h : HostStep s op u) (hbusy : s.busy = true) :
    ContextKept s u := by
  cases h with
  | command hlow h => exact .presented h hbusy
  | register off v => exact .writeRegister off v s
  | sameCycle v => exact .sameCycle v s
  | softReset => exact .of_idle rfl
  | resetFalls => exact .of_idle rfl
  | race a v => rw [racingStore_frame]; exact .same rfl rfl rfl
  | _ => exact .same rfl rfl rfl

/-- BUSY is 1 exactly when the phase is not IDLE (R26). -/
theorem State.busy_iff (s : State) : s.busy = true ↔ s.phase ≠ .idle := decide_eq_true_iff

/-- Settles O56: no event changes the context of a command that it leaves running, nor does a micro-step. -/
theorem runningCommandKeepsItsContext : Obligations.RunningCommandKeepsItsContext := by
  unfold Obligations.RunningCommandKeepsItsContext
  intro s t hstep hs ht
  rw [State.busy_iff] at ht
  rcases step_cases hstep with ⟨-, rfl⟩ | ⟨op, n, rest, u, -, hu, rfl⟩
  · exact ⟨(ContextKept.tick s).latch ht, (ContextKept.tick s).before ht⟩
  · have kept := (hu.contextKept hs).trans (.runLead u)
    exact ⟨kept.latch ht, kept.before ht⟩

end Sys2Proof.Machine
end

section
/-! SUPPORT. The invariant of the machine, kept by every event of the host and every micro-step (R27, R28, R31, R32, R35, R40,
R51, R146). -/
namespace Sys2Proof.Machine

/-! What the invariant says of a running command. -/

/-- Idle, nothing is left of a command. -/
theorem State.Inv.idle {s : State} (h : s.Inv) (hph : s.phase = .idle) :
    s.todo = [] ∧ s.raced = [] ∧ s.before = [] ∧ s.stalled = false := by
  simpa only [RunningOk, hph] using h.running

/-- A command runs only with `rst_n` high (R146). -/
theorem State.Inv.rst_high {s : State} (h : s.Inv) (hph : s.phase ≠ .idle) : s.rstLow = false := by
  by_contra hlow
  rw [Bool.not_eq_false] at hlow
  exact hph (by rw [← h.in_reset hlow, resetBlock_phase])

/-- The pass that runs passed the checks, and its units to do are units of it, each once (R90, R91, R113). -/
theorem State.Inv.pass {s : State} (h : s.Inv) (hph : s.phase = .pass1 ∨ s.phase = .pass2) :
    (currentPass s).Valid s.inst ∧ s.todo.Nodup ∧ ∀ u ∈ s.todo, u < (currentPass s).units := by
  have hr := h.running
  rcases hph with hph | hph <;> simp only [RunningOk, currentPass, hph] at hr ⊢
  · obtain ⟨-, hnodup, hunits, hvalid, -⟩ := hr
    exact ⟨hvalid, hnodup, hunits⟩
  · obtain ⟨-, hnodup, hunits, -, -, hvalid⟩ := hr
    exact ⟨hvalid, hnodup, hunits⟩

/-! Updates that keep it. -/

/-- What the host has read, its events to come, the platform, the choices and the free values are not its concern. -/
theorem State.Inv.quiet {s : State} (h : s.Inv) (bus : Bus) (rdata : Word) (inputs : List Input) (lead : Nat)
    (picks : List Nat) (free : Nat) :
    State.Inv { s with
      bus := bus, rdata := rdata, inputs := inputs, lead := lead, picks := picks, free := free } :=
  { h with
    in_reset := fun hlow => congrArg (fun t : State => { t with
      bus := bus, rdata := rdata, inputs := inputs, lead := lead, picks := picks, free := free }) (h.in_reset hlow) }

/-- Using up an open choice keeps the invariant (log 3). -/
theorem State.Inv.dropPick {s : State} (h : s.Inv) : s.dropPick.Inv :=
  h.quiet s.bus s.rdata s.inputs s.lead s.picks.tail s.free

/-- Memory may change while it stays canonical and in the memory space (R51). -/
theorem State.Inv.memory {s : State} (h : s.Inv) {m : Memory} (hm : Memory.wf m)
    (hin : ∀ c ∈ m, c.1 < 2 ^ s.inst.addrW) : State.Inv { s with mem := m } :=
  { h with
    memory_canonical := hm
    memory_in_space := hin
    in_reset := fun hlow => congrArg (fun t : State => { t with mem := m }) (h.in_reset hlow) }

/-- With `rst_n` high, the engine's halves are not its concern. -/
theorem State.Inv.halves {s : State} (h : s.Inv) (hlow : s.rstLow = false) (lo hi : Half) :
    State.Inv { s with lo := lo, hi := hi } :=
  { h with in_reset := fun h => by cases hlow.symm.trans h }

/-- Nor are DONE, OVR and the registers without reserved bits that the host writes (R26, R29, R30, R33, R34). -/
theorem State.Inv.plain {s : State} (h : s.Inv) (hlow : s.rstLow = false) (done ovr : Bool) (irqEn : BitVec 3)
    (sigma : Word) (width height : BitVec 16) :
    State.Inv { s with
      done := done, ovr := ovr, irqEn := irqEn, sigma := sigma, width := width, height := height } :=
  { h with in_reset := fun h => by cases hlow.symm.trans h }

/-- The address registers keep to the memory space (R31, R32). -/
theorem State.Inv.addresses {s : State} (h : s.Inv) (hlow : s.rstLow = false) {src dst : Word}
    (hsrc : src.toNat < 2 ^ s.inst.addrW) (hdst : dst.toNat < 2 ^ s.inst.addrW) :
    State.Inv { s with srcAddr := src, dstAddr := dst } :=
  { h with
    source_address := hsrc
    destination_address := hdst
    in_reset := fun h => by cases hlow.symm.trans h }

/-- The error registers change together with ERR (R27, R28). -/
theorem State.Inv.errors {s : State} (h : s.Inv) (hlow : s.rstLow = false) {err : Bool} {code addr : Word}
    (hclear : err = false → code = 0 ∧ addr = 0) (hcode : code.toNat < 2 ^ 13)
    (haddr : addr.toNat < 2 ^ s.inst.addrW) :
    State.Inv { s with err := err, errCode := code, errAddr := addr } :=
  { h with
    error_cleared := hclear
    error_code_reserved := hcode
    error_address := haddr
    in_reset := fun h => by cases hlow.symm.trans h }

/-- Bit vectors side by side, as a sum. -/
theorem toNat_append_add {m n : Nat} (x : BitVec m) (y : BitVec n) : (x ++ y).toNat = x.toNat * 2 ^ n + y.toNat := by
  rw [BitVec.toNat_append, ← Nat.shiftLeft_add_eq_or_of_lt y.isLt, Nat.shiftLeft_eq]

/-- A recorded error code has its reserved bits 0 (R27). -/
theorem errCodeWord_lt (code : ErrCode) (op : BitVec 4) (vw : Bool) : (errCodeWord code op vw).toNat < 2 ^ 13 := by
  simp only [errCodeWord, toNat_append_add, BitVec.toNat_ofNat]
  have hvw := (BitVec.ofBool vw).isLt
  have hop := op.isLt
  have hcode := code.number.isLt
  omega

/-- An error entry with a byte address keeps the invariant (R130). -/
theorem State.Inv.errorEntry {s : State} (h : s.Inv) (hlow : s.rstLow = false) (code : ErrCode) (op : BitVec 4) (vw : Bool)
    {addr : Nat} (haddr : addr < 2 ^ s.inst.addrW) : (errorEntry code op vw addr s).Inv := by
  unfold Machine.errorEntry
  split
  · exact h
  · refine h.errors hlow (by simp) (errCodeWord_lt code op vw) ?_
    unfold errAddrWord
    split
    · exact lt_of_le_of_lt (by rw [BitVec.toNat_ofNat]; exact Nat.mod_le _ _) haddr
    · simp

/-- A STATUS write keeps the invariant (R122). -/
theorem State.Inv.acknowledge {s : State} (h : s.Inv) (hlow : s.rstLow = false) (v : Word) : (acknowledge v s).Inv := by
  rw [acknowledge_frame]
  refine (h.errors hlow (err := s.err && !v.getLsbD 2) (code := if v.getLsbD 2 then 0 else s.errCode)
    (addr := if v.getLsbD 2 then 0 else s.errAddr) ?_ ?_ ?_).plain hlow _ _ s.irqEn s.sigma s.width s.height
  · cases v.getLsbD 2 with
    | false => simpa using h.error_cleared
    | true => simp
  · split
    · simp
    · exact h.error_code_reserved
  · split
    · simp
    · exact h.error_address

/-- The writable bits of an address register are an address (R31, R32). -/
theorem addressBits_lt (inst : Params) (v : Word) : (addressBits inst v).toNat < 2 ^ inst.addrW := by
  rw [addressBits, BitVec.toNat_ofNat]
  exact lt_of_le_of_lt (Nat.mod_le _ _) (Nat.mod_lt _ (by positivity))

/-- A register write keeps the invariant (R121). -/
theorem State.Inv.writeRegister {s : State} (h : s.Inv) (hlow : s.rstLow = false) (off : Offset) (v : Word) :
    (writeRegister off v s).Inv := by
  unfold Machine.writeRegister
  split
  · exact h.acknowledge hlow v
  · exact h.plain hlow s.done s.ovr _ s.sigma s.width s.height
  · exact h.plain hlow s.done s.ovr s.irqEn _ s.width s.height
  · exact h.addresses hlow (addressBits_lt _ _) h.destination_address
  · exact h.addresses hlow h.source_address (addressBits_lt _ _)
  · exact h.plain hlow s.done s.ovr s.irqEn s.sigma _ s.height
  · exact h.plain hlow s.done s.ovr s.irqEn s.sigma s.width _
  · exact h

/-! The engine. -/

/-- Running some outputs of a pass whose words lie in the memory space keeps the invariant (R105). -/
theorem State.Inv.runOutputs {s : State} (h : s.Inv) (hlow : s.rstLow = false) {p : Pass} {outs : List Output}
    (hin : ∀ o ∈ outs, p.outAddr o.r o.c + 4 ≤ 2 ^ s.inst.addrW) : (runOutputs p outs s).Inv := by
  have hm := runOutputs_mem_induction (p := p) (outs := outs) Memory.wf h.memory_canonical
    fun _ _ _ _ hm => Memory.wf_write32 hm _ _
  have hs := runOutputs_mem_induction (p := p) (outs := outs) (fun m => ∀ c ∈ m, c.1 < 2 ^ s.inst.addrW)
    h.memory_in_space fun o ho _ v hm => Memory.write32_in_space v hm (hin o ho)
  rw [runOutputs_frame]
  exact ((h.memory hm hs).halves hlow _ _).quiet s.bus s.rdata s.inputs s.lead s.picks _

/-- Cutting such a pass short keeps the invariant (R129, R147). -/
theorem State.Inv.landUnits {s : State} (h : s.Inv) (hlow : s.rstLow = false) {p : Pass} {units : List Nat} {n : Nat}
    (hin : ∀ u ∈ units, ∀ o ∈ p.outputs u, p.outAddr o.r o.c + 4 ≤ 2 ^ s.inst.addrW) :
    (landUnits p n units s).Inv := by
  have hm := landUnits_mem_induction (p := p) (n := n) (units := units) Memory.wf h.memory_canonical
    fun _ _ _ _ _ _ hm => Memory.wf_write32 hm _ _
  have hs := landUnits_mem_induction (p := p) (n := n) (units := units) (fun m => ∀ c ∈ m, c.1 < 2 ^ s.inst.addrW)
    h.memory_in_space fun u hu o ho _ v hm => Memory.write32_in_space v hm (hin u hu o ho)
  rw [landUnits_frame]
  exact ((h.memory hm hs).halves hlow _ _).quiet s.bus s.rdata s.inputs s.lead s.picks _

/-- An output's word of a unit of a valid pass lies in the memory space (R51, R63). -/
theorem Pass.Valid.outAddr_le {inst : Params} {p : Pass} (h : p.Valid inst) {u : Nat} (hu : u < p.units) {o : Output}
    (ho : o ∈ p.outputs u) : p.outAddr o.r o.c + 4 ≤ 2 ^ inst.addrW := by
  obtain ⟨hr, hc⟩ := p.outputs_in_range hu ho
  exact (p.outAddr_bounds hr hc).2.trans h.dstInRange

/-! The micro-steps. -/

/-- While a pass runs its units to do may be any of those left; where outputs of them have landed, the command has stalled
(R40, R91, R160). -/
theorem State.Inv.units {s : State} (h : s.Inv) (hph : s.phase = .pass1 ∨ s.phase = .pass2) {todo : List Nat}
    {landed : List (Nat × Nat)} {stalled : Bool} (hnodup : todo.Nodup) (hsub : ∀ u ∈ todo, u < (currentPass s).units)
    (hst : s.stalled = true → stalled = true) (hland : stalled = false → landed = [])
    (hpend : ∀ x ∈ landed, ∃ u ∈ todo, ∃ o ∈ (currentPass s).outputs u, x = (o.r, o.c)) :
    State.Inv { s with todo := todo, landed := landed, stalled := stalled } :=
  { h with
    running := by
      have hr := h.running
      rcases hph with hph | hph <;> simp only [RunningOk, currentPass, hph] at hr hsub ⊢
      · obtain ⟨hkvalid, -, -, hrest⟩ := hr
        exact ⟨hkvalid, hnodup, hsub, hrest⟩
      · obtain ⟨hkvalid, -, -, hrest⟩ := hr
        exact ⟨hkvalid, hnodup, hsub, hrest⟩
    reset_waits := fun hw => hst (h.reset_waits hw)
    landed_stalled := hland
    landed_pending := hpend
    in_reset := fun hlow => by
      have := h.rst_high (by rcases hph with hph | hph <;> simp [hph])
      cases this.symm.trans hlow }

/-- Taking a unit keeps the invariant (R91). -/
theorem State.Inv.takeUnit {s : State} (h : s.Inv) (hph : s.phase = .pass1 ∨ s.phase = .pass2)
    (hst : s.stalled = false) : (takeUnit s).Inv := by
  obtain ⟨-, hnodup, hunits⟩ := h.pass hph
  have hsub := List.eraseIdx_sublist s.todo s.nextUnit
  exact (h.units hph (hnodup.sublist hsub) (fun v hv => hunits v (hsub.subset hv)) id h.landed_stalled
    (by simp [h.landed_stalled hst])).dropPick

/-- A command that has not stalled may end (R129, R131). -/
theorem State.Inv.ended {s : State} (h : s.Inv) (hlow : s.rstLow = false) (hst : s.stalled = false) :
    State.Inv { s with phase := .idle, todo := [], raced := [], before := [] } :=
  { h with
    running := ⟨rfl, rfl, rfl, hst⟩
    landed_pending := by simp [h.landed_stalled hst]
    in_reset := fun h => by cases hlow.symm.trans h }

/-- Successful completion keeps the invariant (R131). -/
theorem State.Inv.complete {s : State} (h : s.Inv) (hlow : s.rstLow = false) (hst : s.stalled = false) :
    (completeCommand s).Inv :=
  (h.ended hlow hst).plain hlow true s.ovr s.irqEn s.sigma s.width s.height

/-- An abort is an error entry, after the command has ended (R129, R130). -/
theorem abortCommand_eq_errorEntry (code : ErrCode) (addr : Nat) (s : State) :
    abortCommand code addr s =
      errorEntry code s.latch.op s.latch.vw addr { s with phase := .idle, todo := [], raced := [], before := [] } := by
  rw [abortCommand_frame, errorEntry]
  cases s.err <;> rfl

/-- An abort at a byte address keeps the invariant (R129). -/
theorem State.Inv.abort {s : State} (h : s.Inv) (hlow : s.rstLow = false) (hst : s.stalled = false) (code : ErrCode)
    {addr : Nat} (haddr : addr < 2 ^ s.inst.addrW) : (abortCommand code addr s).Inv := by
  rw [abortCommand_eq_errorEntry]
  exact (h.ended hlow hst).errorEntry hlow code _ _ haddr

/-- Every weight is at most 1.0 (R86 item 2). -/
theorem Weight.bits_le (u d : Nat) : Weight.bits u d ≤ 0x3F800000 := by
  unfold Weight.bits
  split
  · split
    · exact le_rfl
    · exact Nat.zero_le _
  · split
    · exact Nat.min_le_left _ _
    · exact Nat.min_le_left _ _

/-- A kernel that was made is in [0, 1] (R86 item 2). -/
theorem kernelOf_in_unit (sigma : Word) : KernelInUnit (kernelOf sigma) := by
  have weight : ∀ d, (Weight.atDistance sigma d).toNat ≤ 0x3F800000 := fun d => by
    rw [Weight.atDistance, BitVec.toNat_ofNat]
    exact (Nat.mod_le _ _).trans (Weight.bits_le _ _)
  intro k
  fin_cases k <;> exact weight _

/-- The kernel write keeps the invariant (R85). -/
theorem State.Inv.writeKernel {s : State} (h : s.Inv) (hph : s.phase = .kgen) : (writeKernel s).Inv :=
  have hr : RunningOk s := h.running
  { h with
    kernel_in_unit := kernelOf_in_unit s.latch.sigma
    kernel_absent := nofun
    running := by
      simp only [RunningOk, hph, writeKernel_phase, writeKernel_todo] at hr ⊢
      obtain ⟨hsigma, -, -, hrest⟩ := hr
      exact ⟨hsigma, .inl trivial, fun _ => rfl, hrest⟩
    landed_pending := by
      simp only [RunningOk, hph] at hr
      obtain ⟨-, -, -, hst, -⟩ := hr
      simp [h.landed_stalled hst]
    in_reset := fun hlow => by cases (h.rst_high (by simp [hph])).symm.trans hlow }

/-- The end of a phase keeps the invariant (R114, R131). -/
theorem State.Inv.endPhase {s : State} (h : s.Inv) (hph : s.phase ≠ .idle) (hst : s.stalled = false)
    (ht : s.todo = []) : (endPhase s).1.Inv := by
  have hlow := h.rst_high hph
  have hr := h.running
  have next : ∀ ph, RunningOk (beginPass ph s) → (beginPass ph s).Inv := fun ph hrun =>
    { h with
      running := hrun
      landed_pending := by simp [h.landed_stalled hst]
      in_reset := fun h => by cases hlow.symm.trans h }
  have units : ∀ n, (List.range n).Nodup ∧ ∀ u ∈ List.range n, u < n := fun n =>
    ⟨List.nodup_range, fun _ => List.mem_range.1⟩
  unfold Machine.endPhase
  split
  · exact h
  · rename_i hk
    simp only [RunningOk, hk] at hr
    obtain ⟨-, -, hkvalid, -, hop⟩ := hr
    split
    · rename_i hblur
      rw [State.runsBlur, decide_eq_true_eq] at hblur
      obtain ⟨-, hvalid⟩ := hop.resolve_left fun h => by rw [hblur] at h; exact absurd h.1 (by decide)
      exact next .pass1 ⟨hkvalid ht, (units _).1, (units _).2, hvalid.1, .inr ⟨hblur, hvalid.2⟩⟩
    · exact h.complete hlow hst
  · rename_i hp
    simp only [RunningOk, hp] at hr
    obtain ⟨hkvalid, -, -, hfirst, hop⟩ := hr
    split
    · rename_i hblur
      rw [State.runsBlur, decide_eq_true_eq] at hblur
      obtain ⟨-, hsecond⟩ := hop.resolve_left fun h => by rw [hblur] at h; exact absurd h (by decide)
      exact next .pass2 ⟨hkvalid, (units _).1, (units _).2, hblur, hfirst, hsecond⟩
    · exact h.complete hlow hst
  · exact h.complete hlow hst

/-- A request of an output of a valid pass is to an address of the memory space (R51, R53). -/
theorem Pass.Valid.request_lt {inst : Params} {p : Pass} (h : p.Valid inst) {b : Bus} {u : Nat} (hu : u < p.units)
    {q : Request} (hq : q ∈ (p.outputs u).flatMap (p.badRequests inst b)) : q.addr < 2 ^ inst.addrW := by
  obtain ⟨o, ho, hq⟩ := List.mem_flatMap.1 hq
  unfold Pass.badRequests at hq
  dsimp only at hq
  split at hq
  · have hq := List.mem_of_mem_filter hq
    rw [List.mem_singleton] at hq
    subst hq
    have := h.outAddr_le hu ho
    simp only [Pass.write, Request.addr]
    omega
  · obtain ⟨k, -, rfl⟩ := List.mem_map.1 (List.mem_of_mem_filter hq)
    exact Nat.mod_lt _ (by positivity)

/-- A work unit keeps the invariant, also one that stalls or aborts the command (R105, R129, R160). -/
theorem State.Inv.unit {s : State} {x : State × Event} (h : s.Inv) (hx : UnitStep s x)
    (hph : s.phase = .pass1 ∨ s.phase = .pass2) (hst : s.stalled = false) (ht : s.todo ≠ []) : x.1.Inv := by
  obtain ⟨hvalid, hnodup, hunits⟩ := h.pass hph
  have hlow := h.rst_high (by rcases hph with hph | hph <;> simp [hph])
  obtain ⟨u, hu, hx⟩ := hx
  have hmem : u ∈ s.todo := hu ▸ nextUnit_mem ht
  have htake := h.takeUnit hph hst
  rcases hx with ⟨-, rfl⟩ | ⟨q, hq, n, t, ht', hx⟩
  · exact htake.runOutputs hlow fun o ho => hvalid.outAddr_le (hunits u hmem) ho
  · have hrest : ∀ v, v ∈ (Machine.takeUnit s).todo ↔ v ∈ s.todo ∧ v ≠ u := by
      rw [hu]; exact mem_eraseIdx_iff ht hnodup
    have hleft : ∀ v ∈ u :: (Machine.takeUnit s).todo, v < (currentPass s).units := fun v hv => by
      rcases List.mem_cons.1 hv with rfl | hv
      · exact hunits _ hmem
      · exact hunits v ((hrest v).1 hv).1
    have hland : t.Inv := ht' ▸ htake.dropPick.dropPick.landUnits (by simpa using hlow)
      fun v hv o ho => hvalid.outAddr_le (hleft v hv) ho
    have hpass : currentPass t = currentPass s := by simp [ht', currentPass]
    rcases hx with ⟨-, rfl⟩ | ⟨-, rfl⟩
    · refine hland.units (by simpa [ht'] using hph) ?_ (by rw [hpass]; exact hleft) (fun _ => rfl) nofun fun x hx => ?_
      · exact List.nodup_cons.2
          ⟨fun hin => ((hrest u).1 hin).2 rfl, hnodup.sublist (List.eraseIdx_sublist _ _)⟩
      · obtain ⟨o, ho, rfl⟩ := List.mem_map.1 hx
        obtain ⟨v, hv, ho⟩ := State.mem_landings ho
        exact ⟨v, hv, o, by rw [hpass]; exact ho, rfl⟩
    · exact hland.abort (by simpa [ht'] using hlow) (by simpa [ht'] using hst) _
        (by simpa [ht'] using hvalid.request_lt (hunits u hmem) hq)

/-- A micro-step of the sequencer keeps the invariant. -/
theorem State.Inv.tick {s : State} (h : s.Inv) : (tick s).1.Inv := by
  rcases tick_cases s with ⟨ht, -⟩ | ⟨ht, -, hph, -⟩ | ⟨ht, hst, hph, hdone⟩ | ⟨hunit, hst, hph, hne⟩
  · rw [ht]; exact h
  · rw [ht]; exact h.writeKernel hph
  · rw [ht]; exact h.endPhase hph hst hdone
  · exact h.unit hunit hph hst hne

/-- So does any number of them. -/
theorem State.Inv.runLead {s : State} (h : s.Inv) : (runLead s).Inv :=
  advance_induction (fun _ h => h.tick) s.lead h

/-! The host's events. -/

/-- A check is passed when its condition is false and so are those after it (R127). -/
theorem check_passed {c : Prop} [Decidable c] {e : ErrCode} {rest : Option ErrCode} :
    (if c then some e else rest) = none ↔ ¬ c ∧ rest = none := by
  split <;> simp [*]

/-- WMIN is 3 or 6 (R9). -/
theorem wmin_pos (inst : Params) : 1 ≤ wmin inst := by
  unfold wmin
  split <;> decide

/-- The second pass of a BLUR has the buffers of the first, exchanged: it is valid where its rows are wide enough (R113). -/
theorem Pass.Valid.second {inst : Params} {l : Latch} (h : (firstPass l).Valid inst) (hwide : wmin inst ≤ l.h.toNat) :
    (secondPass l).Valid inst := by
  have hbytes : (secondPass l).bytes = (firstPass l).bytes := congrArg (4 * ·) (Nat.mul_comm _ _)
  exact ⟨hwide, (wmin_pos inst).trans h.width, h.dstAligned, h.srcAligned, hbytes ▸ h.dstInRange, hbytes ▸ h.srcInRange,
    by rw [hbytes]; exact h.apart.symm⟩

/-- What an accepted command word but NOP has passed (R82, R90, R113, R127): its sigma is legal where it makes a kernel, a
kernel is valid where it uses one as it is, and its passes are valid. -/
theorem accepted_checks {w : Word} {s : State} (hv : validate w s = none) (hop : opField w ≠ 0) :
    (opField w = 1 ∨ opField w = 3 → legalSigma s.sigma = true) ∧
      (opField w = 2 → s.kvalid = true) ∧
      (opField w ≠ 1 → (firstPass (latchOperands w s).latch).Valid s.inst ∧
        (opField w = 3 → (secondPass (latchOperands w s).latch).Valid s.inst)) := by
  unfold validate at hv
  dsimp only at hv
  rw [check_passed, if_neg hop, check_passed, check_passed, check_passed] at hv
  obtain ⟨-, -, hsigma, hkernel, hv⟩ := hv
  refine ⟨by simpa using hsigma, by simpa using hkernel, fun h1 => ?_⟩
  rw [if_neg h1, check_passed, check_passed, check_passed, check_passed] at hv
  obtain ⟨hdim, halign, hrange, hover, -⟩ := hv
  rw [not_or, not_lt, not_lt] at hdim hrange
  rw [not_or, not_not, not_not] at halign
  rw [not_and_or, not_lt, not_lt] at hover
  have hheight : 1 ≤ s.height.toNat := le_trans (by split; exacts [wmin_pos _, le_rfl]) hdim.2
  have hfirst : (firstPass (latchOperands w s).latch).Valid s.inst :=
    ⟨hdim.1, hheight, halign.1, halign.2, hrange.1, hrange.2, hover.symm⟩
  exact ⟨hfirst, fun h3 => hfirst.second (by rw [if_pos h3] at hdim; exact hdim.2)⟩

/-- Presenting a command word keeps the invariant: what it starts has passed the checks (R118, R127). -/
theorem State.Inv.presented {s u : State} (h : s.Inv) (hlow : s.rstLow = false) (hu : Presented s u) : u.Inv := by
  cases hu with
  | nothing => exact h
  | overrun => exact h.plain hlow s.done true s.irqEn s.sigma s.width s.height
  | refused w e hbusy hv => exact h.errorEntry hlow e _ _ (by positivity)
  | kernel w hbusy hv hop =>
    obtain ⟨-, hraced, -, hst⟩ := h.idle (by simpa [State.busy] using hbusy)
    obtain ⟨hsigma, -, hpass⟩ := accepted_checks hv (by rcases hop with hop | hop <;> simp [hop])
    exact { h with
      running := by
        refine ⟨hsigma hop, .inr rfl, nofun, hst, hop.imp (⟨·, hraced⟩) fun h3 => ?_⟩
        obtain ⟨hfirst, hsecond⟩ := hpass (by simp [h3])
        exact ⟨h3, hfirst, hsecond h3⟩
      landed_pending := by simp [h.landed_stalled hst]
      in_reset := fun h => by cases hlow.symm.trans h }
  | pass w hbusy hv hop =>
    obtain ⟨-, -, -, hst⟩ := h.idle (by simpa [State.busy] using hbusy)
    obtain ⟨-, hkvalid, hpass⟩ := accepted_checks hv (by simp [hop])
    exact { h with
      running := ⟨hkvalid hop, List.nodup_range, fun _ => List.mem_range.1, (hpass (by simp [hop])).1, .inl hop⟩
      landed_pending := by simp [h.landed_stalled hst]
      in_reset := fun h => by cases hlow.symm.trans h }

/-- A STATUS write in the same cycle as a micro-step keeps the invariant (R135 item 3). -/
theorem State.Inv.sameCycle {s : State} (h : s.Inv) (hlow : s.rstLow = false) (v : Word) :
    (statusSameCycle v s).Inv := by
  have hcases := statusSameCycle_cases v s
  have ht := h.tick
  have hlow : (Machine.tick s).1.rstLow = false := by rw [tick_frame]; exact hlow
  generalize (Machine.tick s).1 = t at *
  have hack := ht.acknowledge hlow v
  have hlow : (Machine.acknowledge v t).rstLow = false := by rw [acknowledge_frame]; exact hlow
  have hinst : (Machine.acknowledge v t).inst = t.inst := by rw [acknowledge_frame]
  rcases hcases with hs | hs | hs <;> rw [hs]
  · exact hack
  · exact hack.plain hlow true _ _ _ _ _
  · exact hack.errors hlow ht.error_cleared ht.error_code_reserved (hinst ▸ ht.error_address)

/-- Abandoning a pass keeps the invariant (R147). -/
theorem State.Inv.abandonPass {s : State} (h : s.Inv) : (abandonPass s).Inv := by
  have cut : s.phase = .pass1 ∨ s.phase = .pass2 →
      (Machine.landUnits (currentPass s) s.nextPick s.todo s.dropPick).Inv := fun hph => by
    obtain ⟨hvalid, -, hunits⟩ := h.pass hph
    have hlow := h.rst_high (by rcases hph with hph | hph <;> simp [hph])
    exact h.dropPick.landUnits hlow
      fun u hu o ho => hvalid.outAddr_le (hunits u hu) ho
  unfold Machine.abandonPass
  split
  · exact h
  · exact h
  · exact cut (.inl (by assumption))
  · exact cut (.inr (by assumption))

/-- The reset values meet the invariant, over any legal parameters and any memory, whatever level `rst_n` then has (R46,
R146). -/
theorem resetBlock_inv {s : State} (hinst : s.inst.wf = true) (hm : Memory.wf s.mem)
    (hin : ∀ c ∈ s.mem, c.1 < 2 ^ s.inst.addrW) (level : Bool) : State.Inv { resetBlock s with rstLow := level } where
  instance_legal := hinst
  memory_canonical := hm
  memory_in_space := hin
  error_cleared _ := ⟨rfl, rfl⟩
  error_code_reserved := by simp
  error_address := by simp
  source_address := by simp
  destination_address := by simp
  kernel_in_unit k := by simp
  kernel_absent _ := rfl
  running := ⟨rfl, rfl, rfl, rfl⟩
  reset_waits := nofun
  landed_stalled _ := rfl
  landed_pending := nofun
  in_reset _ := rfl

/-- A reset keeps the invariant (R146, R147). -/
theorem State.Inv.resetNow {s : State} (h : s.Inv) (level : Bool) : State.Inv { resetNow s with rstLow := level } :=
  have habandon := h.abandonPass
  resetBlock_inv habandon.instance_legal habandon.memory_canonical habandon.memory_in_space level

/-- Settles O59: the state after reset holds the reset values, with nothing in memory. -/
theorem invariantHoldsAtReset : Obligations.InvariantHoldsAtReset :=
  resetBlock_inv (s := State.reset) rfl ⟨.nil, nofun⟩ nofun false

/-- A racing store keeps memory canonical and in the memory space: it stores a word there, and frees words of buffers of the
running command (R51, R67). -/
theorem State.Inv.race_memory {s : State} (h : s.Inv) {a : Nat} (v : Word) (hin : a + 4 ≤ 2 ^ s.inst.addrW) :
    Memory.wf (racingStore a v s).mem ∧ ∀ c ∈ (racingStore a v s).mem, c.1 < 2 ^ s.inst.addrW := by
  have hfree : ∀ words, ∀ x ∈ s.dependents words, x + 4 ≤ 2 ^ s.inst.addrW := fun words x hx => by
    have hr := h.running
    rcases State.dependents_bounds hx with ⟨hph | hph, -, hle⟩ | ⟨hph, -, hle⟩ <;> simp only [RunningOk, hph] at hr
    · obtain ⟨-, -, -, hvalid, -⟩ := hr
      exact hle.trans hvalid.dstInRange
    · obtain ⟨-, -, -, -, hvalid, -⟩ := hr
      exact hle.trans hvalid.dstInRange
    · obtain ⟨-, -, -, -, -, hvalid⟩ := hr
      exact hle.trans hvalid.dstInRange
  constructor
  · exact storeBytes_wf _ _ _ (freeWords_mem_induction Memory.wf h.memory_canonical
      fun _ _ _ _ hm => Memory.wf_write32 hm _ _)
  · exact storeBytes_in_space v (freeWords_mem_induction (fun m => ∀ c ∈ m, c.1 < 2 ^ s.inst.addrW) h.memory_in_space
      fun x hx _ _ hm => Memory.write32_in_space _ hm (hfree _ x hx)) hin

/-- A racing store keeps the invariant: an HPASS or a BLUR runs, which may have races (R67). -/
theorem State.Inv.race {s : State} (h : s.Inv) {a : Nat} (v : Word) (hin : a + 4 ≤ 2 ^ s.inst.addrW)
    (hrace : ∃ l < 4, s.storeRaces (a + l) = true) : (racingStore a v s).Inv := by
  obtain ⟨l, -, hrace⟩ := hrace
  obtain ⟨hbusy, hop, -⟩ := (State.storeRaces_iff s _).1 hrace
  rw [State.busy_iff] at hbusy
  have hraced : RunningOk { s with raced := (racingStore a v s).raced } := by
    have hr := h.running
    cases hph : s.phase <;> simp only [RunningOk, hph] at hr ⊢
    · exact absurd hph hbusy
    · obtain ⟨hsigma, htodo, hkvalid, hst, hk⟩ := hr
      refine ⟨hsigma, htodo, hkvalid, hst, .inr (hk.resolve_left fun hk => ?_)⟩
      rcases hop with hop | hop <;> rw [hop] at hk <;> exact absurd hk.1 (by decide)
    · exact hr
    · exact hr
  obtain ⟨hwf, hspace⟩ := h.race_memory v hin
  have hnew : State.Inv { s with raced := (racingStore a v s).raced } :=
    { h with running := hraced, in_reset := fun hlow => by cases (h.rst_high hbusy).symm.trans hlow }
  rw [racingStore_frame]
  exact (hnew.memory hwf hspace).quiet s.bus s.rdata s.inputs s.lead _ _

/-- Every event of the host keeps the invariant. -/
theorem State.Inv.hostStep {s u : State} {op : HostOp} (h : s.Inv) (hu : HostStep s op u) : u.Inv := by
  cases hu with
  | quiet rdata bus picks free => exact h.quiet bus rdata s.inputs s.lead picks free
  | command hlow hu => exact h.presented hlow hu
  | register off v hlow => exact h.writeRegister hlow off v
  | sameCycle v hlow => exact h.sameCycle hlow v
  | resetWaits v hlow hbit hst =>
    exact { h with reset_waits := fun _ => hst, in_reset := fun h => by cases hlow.symm.trans h }
  | softReset v hlow => exact h.resetNow (Machine.resetNow s).rstLow
  | resetFalls => exact h.resetNow true
  | resetRises => exact { h with in_reset := nofun }
  | store a v hin =>
    exact h.memory (Memory.wf_write32 h.memory_canonical a v) (Memory.write32_in_space v h.memory_in_space hin)
  | race a v hin hrace => exact h.race v hin hrace

/-- Settles O60: the event of the host keeps the invariant, and so does each micro-step. -/
theorem invariantKeptByStep : Obligations.InvariantKeptByStep := by
  unfold Obligations.InvariantKeptByStep
  intro s t h hstep
  rcases step_cases hstep with ⟨-, rfl⟩ | ⟨op, n, rest, u, -, hu, rfl⟩
  · exact h.tick
  · exact ((h.quiet s.bus s.rdata rest n s.picks s.free).hostStep hu).runLead

end Sys2Proof.Machine
end

section
/-! SUPPORT. Acceptance, and that a running command does not see the operand registers (R39, R118, R154). -/
namespace Sys2Proof.Machine

/-- A command word that is presented with BUSY = 0 and passes every check is started (R118). -/
theorem present_accepted {w : Word} {s : State} (start : State → State) (hidle : s.busy = false)
    (hv : validate w s = none) : present w start s = runLead (start s) := by
  rw [present, hidle, hv]
  rfl

/-- Settles O12: what each command's start leaves, by its word's OP and VW. -/
theorem acceptanceLatchesOperands : Obligations.AcceptanceLatchesOperands := by
  unfold Obligations.AcceptanceLatchesOperands
  intro s i op vw first hi hidle hv
  rcases hi with ⟨rfl, rfl, rfl⟩ | ⟨rfl, rfl, ⟨rfl, rfl⟩ | ⟨rfl, rfl⟩⟩ | ⟨rfl, rfl, ⟨rfl, rfl⟩ | ⟨rfl, rfl⟩⟩ <;>
    refine ⟨_, congrArg _ (present_accepted _ hidle hv), rfl, ?_⟩
  · cases vw <;> rfl
  all_goals rfl

/-! The operand registers. -/

/-- The values of SIGMA, SRC_ADDR, DST_ADDR, WIDTH and HEIGHT (R30 to R34). -/
structure OperandRegisters where
  sigma : Word
  src : Word
  dst : Word
  width : BitVec 16
  height : BitVec 16

/-- The state with other values in the operand registers. -/
def OperandRegisters.put (x : OperandRegisters) (s : State) : State :=
  { s with sigma := x.sigma, srcAddr := x.src, dstAddr := x.dst, width := x.width, height := x.height }

/-- Running some outputs of a pass does not see the operand registers (R154). -/
theorem runOutputs_put (x : OperandRegisters) (p : Pass) (outs : List Output) (s : State) :
    runOutputs p outs (x.put s) = x.put (runOutputs p outs s) := by
  have load : ∀ (s : State) (o : Output), loadOutput p o (x.put s) = x.put (loadOutput p o s) := fun s o => by
    unfold loadOutput
    dsimp only
    split <;> rfl
  have store : ∀ (s : State) (o : Output), storeOutput p o (x.put s) = x.put (storeOutput p o s) := fun s o => by
    have hkeeps : (x.put s).keepsHostWord (p.outAddr o.r o.c) = s.keepsHostWord (p.outAddr o.r o.c) := rfl
    have hopen : (x.put s).outputIsOpen p o = s.outputIsOpen p o := rfl
    unfold storeOutput
    rw [hkeeps, hopen]
    split
    · rfl
    · split <;> rfl
  unfold runOutputs
  rw [List.foldl_hom x.put load, List.foldl_hom x.put store]

/-- Nor does cutting a pass short. -/
theorem landUnits_put (x : OperandRegisters) (p : Pass) (n : Nat) (units : List Nat) (s : State) :
    landUnits p n units (x.put s) = x.put (landUnits p n units s) := by
  induction units generalizing n s with
  | nil => rfl
  | cons u us ih =>
    have houts : (x.put s).pending p u = s.pending p u := rfl
    rw [landUnits, landUnits, houts, ← ih, ← runOutputs_put]
    rfl

/-- Nor does the end of a phase. -/
theorem endPhase_put (x : OperandRegisters) (s : State) :
    endPhase (x.put s) = (x.put (endPhase s).1, (endPhase s).2) := by
  have hphase : (x.put s).phase = s.phase := rfl
  have hblur : (x.put s).runsBlur = s.runsBlur := rfl
  unfold endPhase
  rw [hphase, hblur]
  cases s.phase <;> cases s.runsBlur <;> rfl

/-- Nor does an abort. -/
theorem abortCommand_put (x : OperandRegisters) (code : ErrCode) (addr : Nat) (s : State) :
    abortCommand code addr (x.put s) = x.put (abortCommand code addr s) := by
  rw [abortCommand_frame, abortCommand_frame]
  rfl

/-- Nor does a unit with a request that gets a bad answer. -/
theorem troubledUnit_put (x : OperandRegisters) (p : Pass) (units : List Nat) (bad : List Request) (s : State) :
    troubledUnit p units bad (x.put s) = (x.put (troubledUnit p units bad s).1, (troubledUnit p units bad s).2) := by
  have hpick : (x.put s).nextPick = s.nextPick := rfl
  have hbus : (x.put s).bus = s.bus := rfl
  have hdrop : (x.put s).dropPick = x.put s.dropPick := rfl
  have hpick' : (x.put s.dropPick).nextPick = s.dropPick.nextPick := rfl
  have hdrop' : (x.put s.dropPick).dropPick = x.put s.dropPick.dropPick := rfl
  unfold troubledUnit
  dsimp only
  rw [hpick, hbus, hdrop, hpick', hdrop', landUnits_put, abortCommand_put,
    State.landings_congr (s := s.dropPick.dropPick) (t := x.put s.dropPick.dropPick) p _ units rfl rfl rfl]
  split <;> rfl

/-- Nor does a work unit. -/
theorem runUnit_put (x : OperandRegisters) (s : State) :
    runUnit (x.put s) = (x.put (runUnit s).1, (runUnit s).2) := by
  have htake : takeUnit (x.put s) = x.put (takeUnit s) := rfl
  have hpass : currentPass (x.put s) = currentPass s := rfl
  have hunit : (x.put s).todo.getD (x.put s).nextUnit 0 = s.todo.getD s.nextUnit 0 := rfl
  have hinst : (x.put s).inst = s.inst := rfl
  have hbus : (x.put s).bus = s.bus := rfl
  have hleft : (x.put (takeUnit s)).todo = (takeUnit s).todo := rfl
  unfold runUnit
  dsimp only
  rw [hpass, hunit, hinst, hbus, htake, hleft, runOutputs_put, troubledUnit_put]
  split <;> rfl

/-- A micro-step does the same whatever the operand registers hold (R39, R154). -/
theorem tick_put (x : OperandRegisters) (s : State) : tick (x.put s) = (x.put (tick s).1, (tick s).2) := by
  have hst : (x.put s).stalled = s.stalled := rfl
  have hphase : (x.put s).phase = s.phase := rfl
  have htodo : (x.put s).todo = s.todo := rfl
  unfold tick
  rw [hst, hphase, htodo, endPhase_put, runUnit_put]
  cases s.stalled <;> cases s.phase <;> cases s.todo.isEmpty <;> rfl

/-- Nor does any number of micro-steps. -/
theorem advance_put (x : OperandRegisters) (n : Nat) (s : State) : advance n (x.put s) = x.put (advance n s) := by
  induction n generalizing s with
  | zero => rfl
  | succ n ih => rw [advance, tick_put, ih, advance]

/-- Settles O13: every micro-step commutes with putting other values in the operand registers. -/
theorem registerWritesDoNotReachRunningCommand : Obligations.RegisterWritesDoNotReachRunningCommand := by
  unfold Obligations.RegisterWritesDoNotReachRunningCommand
  intro s n sg a d w h
  exact advance_put ⟨sg, a, d, w, h⟩ n s

/-! R40's set, and a pass cut short. -/

/-- The end of a phase leads to the next one or to the end of the command (R114). -/
theorem endPhase_phase (s : State) :
    (endPhase s).1.phase = .idle ∨ (s.phase = .kgen ∧ (endPhase s).1.phase = .pass1) ∨
      (s.phase = .pass1 ∧ (endPhase s).1.phase = .pass2) := by
  unfold endPhase
  cases hph : s.phase <;> cases s.runsBlur <;> simp [completeCommand, hph]

/-- A micro-step leaves the phase, or ends it or the command (R114). -/
theorem tick_phase (s : State) :
    (tick s).1.phase = s.phase ∨ (tick s).1.phase = .idle ∨ (s.phase = .kgen ∧ (tick s).1.phase = .pass1) ∨
      (s.phase = .pass1 ∧ (tick s).1.phase = .pass2) := by
  rcases tick_cases s with ⟨h, -⟩ | ⟨h, -⟩ | ⟨h, -⟩ | ⟨⟨u, -, ⟨-, h⟩ | ⟨q, -, n, t, rfl, ⟨-, h⟩ | ⟨-, h⟩⟩⟩, -⟩ <;> rw [h]
  · exact .inl rfl
  · exact .inl rfl
  · exact .inr (endPhase_phase s)
  · exact .inl (by rw [runOutputs_frame]; rfl)
  · exact .inl (by simp)
  · exact .inr (.inl rfl)

/-- A pass that is over is not taken up again (R114). -/
theorem phase_after_endPhase (n : Nat) {s : State} (h : s.phase = .pass1 ∨ s.phase = .pass2) :
    (advance n (endPhase s).1).phase ≠ s.phase := by
  have hend : (endPhase s).1.phase = .idle ∨ s.phase = .pass1 ∧ (endPhase s).1.phase = .pass2 := by
    rcases endPhase_phase s with hi | ⟨hk, -⟩ | hp
    · exact .inl hi
    · rcases h with h | h <;> cases hk.symm.trans h
    · exact .inr hp
  rcases hend with hi | ⟨hp, hp'⟩
  · rw [advance_idle n hi, hi]
    rcases h with h | h <;> simp [h]
  · have hlast : (advance n (endPhase s).1).phase = .pass2 ∨ (advance n (endPhase s).1).phase = .idle := by
      refine advance_induction (P := fun t => t.phase = .pass2 ∨ t.phase = .idle) (fun t ht => ?_) n (.inl hp')
      rcases tick_phase t with h | h | ⟨hk, -⟩ | ⟨hk, -⟩
      · rwa [h]
      · exact .inr h
      · rcases ht with ht | ht <;> cases hk.symm.trans ht
      · rcases ht with ht | ht <;> cases hk.symm.trans ht
    rcases hlast with h | h <;> simp [h, hp]

/-- Settles O29: the set is exact at each moment of the pass, and a pass that is over, aborted or completed, has left its
phase. -/
theorem writtenSetIsExact : Obligations.WrittenSetIsExact := by
  unfold Obligations.WrittenSetIsExact
  intro s n hinv hph hst hraced htodo p t
  have hland := hinv.landed_stalled hst
  have hrun : PassRun p s s := .start hinv.memory_canonical htodo
  have hmoment := hrun.moments hraced rfl hph hst n
  refine ⟨?_, fun hphase => ?_⟩
  · rw [List.eq_nil_iff_forall_not_mem]
    intro o ho
    obtain ⟨u, hu, -, hdone | hlanded⟩ := State.mem_written.1 ho
    · exact hdone (htodo ▸ List.mem_range.2 hu)
    · simp [hland] at hlanded
  · change PassMoment p s n t at hmoment
    generalize t = t at *
    cases hmoment with
    | running h => exact h.exact rfl hland
    | stalled units outs h hf hx => exact hx
    | aborted c a h hf => exact absurd hphase (by rcases hph with hph | hph <;> simp [hph, abortCommand])
    | ended h ht hmn =>
      have hsame := h.same.1
      exact absurd (hphase.trans hsame.symm) (phase_after_endPhase _ (hsame ▸ hph))

end Sys2Proof.Machine
end

section
/-! SUPPORT. The register map (R21 to R38): what each offset reads, and what a write to it changes. -/
namespace Sys2Proof.Machine

/-- Settles O5: the port faults before it looks at the offset's register. -/
theorem unalignedAccessIsHostFault : Obligations.UnalignedAccessIsHostFault := by
  unfold Obligations.UnalignedAccessIsHostFault
  intro s off v n rest hlow haccess
  rcases haccess with hin | ⟨hoff, hin | hin⟩ <;> rw [step, nextEvent, hin]
  · simp [hostEvent, portOtherSize, hlow]
  · simp [hostEvent, portWrite, hlow, aligned, hoff]
  · simp [hostEvent, portRead, hlow, aligned, hoff]

/-! Reserved offsets. -/

/-- The offsets of the register map (R21). -/
def mappedOffsets : List Nat :=
  [0x000, 0x004, 0x008, 0x00C, 0x010, 0x014, 0x018, 0x01C, 0x020, 0x024, 0x028, 0x02C, 0x030, 0x040, 0x044, 0x048, 0x04C,
    0x050, 0x054, 0x058]

/-- Those of the registers that a read answers from: all but CTRL and CMD. -/
def readableOffsets : List Nat :=
  [0x000, 0x004, 0x010, 0x014, 0x018, 0x01C, 0x020, 0x024, 0x028, 0x02C, 0x030, 0x040, 0x044, 0x048, 0x04C, 0x050, 0x054,
    0x058]

/-- Those of the registers that `writeRegister` writes. -/
def writableOffsets : List Nat := [0x010, 0x01C, 0x020, 0x024, 0x028, 0x02C, 0x030]

/-- An offset without a register reads 0 (R36). -/
theorem readRegister_reserved {off : Offset} (s : State) (h : off.toNat ∉ readableOffsets) : readRegister off s = 0 := by
  unfold readRegister
  split
  case h_19 => rfl
  all_goals exact absurd (by simp [readableOffsets, *]) h

/-- A write to an offset without a writable register has no effect (R36, R38). -/
theorem writeRegister_reserved {off : Offset} (v : Word) (s : State) (h : off.toNat ∉ writableOffsets) :
    writeRegister off v s = s := by
  unfold writeRegister
  split
  case h_8 => rfl
  all_goals exact absurd (by simp [writableOffsets, *]) h

/-- Settles O47: a reserved offset has no register to read or write, and a write there runs nothing. -/
theorem reservedOffsetsReadZero : Obligations.ReservedOffsetsReadZero := by
  unfold Obligations.ReservedOffsetsReadZero
  intro off v s n rest hoff hal hlow
  change off.toNat ∉ mappedOffsets at hoff
  have hread := readRegister_reserved (off := off) (h := fun h => hoff ((show readableOffsets ⊆ mappedOffsets by decide) h))
  have hwrite := writeRegister_reserved (off := off) v (h := fun h => hoff ((show writableOffsets ⊆ mappedOffsets by decide) h))
  have hdecode : decodeWrite off v = .error .otherRegister := by
    unfold decodeWrite
    rw [if_neg, if_neg] <;> rintro rfl <;> exact hoff (by decide)
  constructor <;> intro hin <;> rw [step, nextEvent, hin]
  · simp [hostEvent, portRead, hlow, aligned, hal, hread, runLead]
  · simp [hostEvent, portWrite, hlow, aligned, hal, hdecode, hwrite, runLead]

/-! Read-back. -/

/-- A write to a register other than STATUS changes what no other offset reads (R121). -/
theorem readRegister_writeRegister_other {off off' : Offset} (v : Word) (s : State) (hne : off ≠ off') (hst : off ≠ 0x010) :
    readRegister off' (writeRegister off v s) = readRegister off' s := by
  have hne : off'.toNat ≠ off.toNat := fun h => hne (BitVec.eq_of_toNat_eq h.symm)
  have hst : off.toNat ≠ 0x010 := fun h => hst (BitVec.eq_of_toNat_eq h)
  unfold writeRegister
  split
  · contradiction
  all_goals
    unfold readRegister
    split <;> simp_all [statusWord, State.busy]

/-- Settles O48: each writable register holds the bits written, and a write reaches no other offset. -/
theorem registersReadBack : Obligations.RegistersReadBack := by
  unfold Obligations.RegistersReadBack
  intro v s hinst
  refine ⟨?_, rfl, rfl, rfl, ?_, ?_, fun off h => writeRegister_reserved v s h,
    fun off off' hne hst => readRegister_writeRegister_other v s hne hst⟩
  · exact BitVec.eq_of_toNat_eq (by simp [readRegister, writeRegister])
  · exact BitVec.eq_of_toNat_eq (by simp [readRegister, writeRegister])
  · exact BitVec.eq_of_toNat_eq (by simp [readRegister, writeRegister])

/-! The fields. -/

/-- STATUS as a number, each field by its weight (R26). -/
theorem statusWord_toNat (s : State) :
    (statusWord s).toNat =
      s.busy.toNat + 2 * s.done.toNat + 4 * s.err.toNat + 8 * s.ovr.toNat + 16 * s.kvalid.toNat +
        32 * (phaseField s.phase).toNat := by
  simp only [statusWord, toNat_append_add, BitVec.toNat_ofBool, BitVec.toNat_ofNat]
  omega

/-- CAP as a number, each field by its weight (R23). -/
theorem capWord_toNat {inst : Params} (h : inst.wf = true) :
    (capWord inst).toNat =
      1 + 2 * inst.hasV256.toNat + 4 * inst.rbLegacy.toNat + 8 * (decide (inst.mirrorAxis = .center)).toNat +
        16 * (decide (inst.narrowRound = .trunc)).toNat + 3 * 2 ^ 8 + 7 * 2 ^ 12 + inst.addrW * 2 ^ 16 + 2 ^ 24 := by
  simp only [Params.wf, decide_eq_true_eq] at h
  simp only [capWord, toNat_append_add, BitVec.toNat_ofBool, BitVec.toNat_ofNat]
  omega

/-- A narrower register reads as it is (R29, R33, R34). -/
theorem toNat_setWidth_word {n : Nat} (x : BitVec n) (hn : n ≤ 32) : (x.setWidth 32).toNat = x.toNat := by
  rw [BitVec.toNat_setWidth, Nat.mod_eq_of_lt (x.isLt.trans_le (Nat.pow_le_pow_right two_pos hn))]

/-- Settles O49: STATUS and CAP field by field, and every other register as it is held. -/
theorem statusAndCapFields : Obligations.StatusAndCapFields := by
  unfold Obligations.StatusAndCapFields
  intro s hinst
  have hstatus : readRegister 0x010 s = statusWord s := rfl
  have hcap : readRegister 0x004 s = capWord s.inst := rfl
  rw [hstatus, hcap, statusWord_toNat, capWord_toNat hinst]
  refine ⟨?_, ?_, ?_, rfl, rfl, rfl, rfl, rfl, ?_, rfl, rfl, rfl, ?_, ?_, fun k => ?_⟩
  · cases s.phase <;> rfl
  · have hphase : s.busy = false ↔ (phaseField s.phase).toNat = 0 := by
      unfold State.busy
      cases s.phase <;> decide
    have hbusy := s.busy.toNat_le
    have hdone := s.done.toNat_le
    have herr := s.err.toNat_le
    have hovr := s.ovr.toNat_le
    have hkvalid := s.kvalid.toNat_le
    rw [hphase]
    omega
  · cases s.inst.mirrorAxis <;> cases s.inst.narrowRound <;> rfl
  · exact toNat_setWidth_word s.irqEn (by decide)
  · exact toNat_setWidth_word s.width (by decide)
  · exact toNat_setWidth_word s.height (by decide)
  · fin_cases k <;> rfl

/-! After reset. -/

/-- What every offset reads while the registers hold their reset values (R46). -/
theorem readRegister_resetBlock (off : Offset) (s : State) :
    readRegister off (resetBlock s) = if off = 0x000 then 0x47424C37 else if off = 0x004 then capWord s.inst else 0 := by
  by_cases hid : off = 0x000
  · subst hid; rfl
  by_cases hcap : off = 0x004
  · subst hcap; rfl
  rw [if_neg hid, if_neg hcap]
  unfold readRegister
  split
  · exact absurd (BitVec.eq_of_toNat_eq ‹_›) hid
  · exact absurd (BitVec.eq_of_toNat_eq ‹_›) hcap
  all_goals simp [statusWord, State.busy, phaseField]

/-- Settles O46: the state after reset holds the reset values, and each command runs to its refusal. -/
theorem stateAfterReset : Obligations.StateAfterReset := by
  unfold Obligations.StateAfterReset
  exact ⟨fun off => readRegister_resetBlock off State.reset, rfl, rfl, rfl, rfl, rfl, rfl, rfl, rfl⟩

end Sys2Proof.Machine
end

section
/-! SUPPORT. The soft reset (R117, R147, R148). -/
namespace Sys2Proof.Machine

/-- A reset keeps the parameters, the platform and what the host sees, and gives every register its reset value (R46, R147,
R148). -/
theorem resetNow_frame (s : State) :
    resetNow s =
      { resetBlock s with
        lo := (resetNow s).lo
        hi := (resetNow s).hi
        mem := (abandonPass s).mem
        picks := (resetNow s).picks
        free := (resetNow s).free } := by
  unfold resetNow
  rw [abandonPass_frame]
  rfl

/-- A reset outside a pass leaves memory (R148). -/
theorem abandonPass_mem {s : State} (h : s.phase = .idle ∨ s.phase = .kgen) : (abandonPass s).mem = s.mem := by
  unfold abandonPass
  rcases h with h | h <;> rw [h]

/-- A reset cuts the running pass short (R147). -/
theorem abandonPass_cut {s : State} (h : s.phase = .pass1 ∨ s.phase = .pass2) :
    abandonPass s = landUnits (currentPass s) s.nextPick s.todo s.dropPick := by
  unfold abandonPass
  rcases h with h | h <;> rw [h]

/-- Settles O43: a soft reset with every request answered is `resetNow`; idle, the sequencer then does nothing; and a pass
that was running is cut short. -/
theorem softResetClearsEveryRegister : Obligations.SoftResetClearsEveryRegister := by
  unfold Obligations.SoftResetClearsEveryRegister
  intro s ctrl hst
  have hexec : exec (.srst ctrl) s = .next (resetNow s) := by
    rw [exec, execSrst, hst]
    exact congrArg _ (advance_idle _ rfl)
  refine ⟨_, hexec, ?_, fun off => ?_, abandonPass_mem, fun hinv hph => ?_⟩
  · rw [resetNow_frame]
    rfl
  · rw [resetNow, readRegister_resetBlock, abandonPass_frame]
  · obtain ⟨-, -, hunits⟩ := hinv.pass hph
    have hmem : (resetNow s).mem = (landUnits (currentPass s) s.nextPick s.todo s.dropPick).mem := by
      rw [← abandonPass_cut hph]
      rfl
    rw [hmem]
    exact ⟨fun a ha => landUnits_outside (s := s.dropPick) hunits ha, fun hraced r hr c _ hcalm =>
      landUnits_old_or_new (s := s.dropPick) hraced hinv.memory_canonical hunits hr hcalm⟩

end Sys2Proof.Machine
end

section
/-! SUPPORT. The host's own loads, and its stores that do not race (R67, R123, R152). -/
namespace Sys2Proof.Machine

/-- Of the four bytes of a word, one meets a condition. -/
theorem any_four_iff {f : Nat → Bool} : (List.range 4).any f = true ↔ ∃ l < 4, f l = true := by
  simp only [List.any_eq_true, List.mem_range]

/-- A host load in the memory space is answered, as a racing one when one of its bytes races (R67, R123). -/
theorem step_load {s : State} {a n : Nat} {rest : List Input} (hin : a + 4 ≤ 2 ^ s.inst.addrW)
    (hop : s.inputs = { op := .load a, lead := n } :: rest) :
    step s =
      if (List.range 4).any fun l => s.loadRaces (a + l) then
        .next (runLead (racingLoad a { s with inputs := rest, lead := n }))
      else .next (runLead { s with inputs := rest, lead := n, rdata := Memory.read32 s.mem a }) := by
  rw [step, nextEvent, hop]
  exact if_neg (not_lt.2 hin)

/-- A host store in the memory space is answered, as a racing one when one of its bytes races (R67, R123). -/
theorem step_store {s : State} {a n : Nat} {v : Word} {rest : List Input} (hin : a + 4 ≤ 2 ^ s.inst.addrW)
    (hop : s.inputs = { op := .store a v, lead := n } :: rest) :
    step s =
      if (List.range 4).any fun l => s.storeRaces (a + l) then
        .next (runLead (racingStore a v { s with inputs := rest, lead := n }))
      else .next (runLead { s with inputs := rest, lead := n, mem := Memory.write32 s.mem a v }) := by
  rw [step, nextEvent, hop]
  exact if_neg (not_lt.2 hin)

/-- Settles O54: which bytes race is what the statement writes out, and without one the access is a plain one. -/
theorem hostAccessesWithoutRace : Obligations.HostAccessesWithoutRace := by
  unfold Obligations.HostAccessesWithoutRace
  intro s a n v rest hin written used
  constructor
  · intro hop hquiet
    refine (step_load hin hop).trans (if_neg fun hrace => ?_)
    obtain ⟨l, hl, hrace⟩ := any_four_iff.1 hrace
    exact hquiet l hl ((s.loadRaces_iff _).1 hrace)
  · intro hop hquiet
    refine (step_store hin hop).trans (if_neg fun hrace => ?_)
    obtain ⟨l, hl, hrace⟩ := any_four_iff.1 hrace
    exact hquiet l hl ((s.storeRaces_iff _).1 hrace)

/-! Racing loads. -/

/-- Byte `l` of a word put together from four bytes. -/
theorem extractLsb'_four_bytes (b : Nat → Byte) {l : Nat} (hl : l < 4) :
    (b 3 ++ b 2 ++ b 1 ++ b 0).extractLsb' (8 * l) 8 = b l := by
  interval_cases l
  · exact BitVec.extractLsb'_append_eq_right
  · rw [BitVec.extractLsb'_append_eq_of_le (by omega)]
    exact BitVec.extractLsb'_append_eq_right
  · rw [BitVec.extractLsb'_append_eq_of_le (by omega), BitVec.extractLsb'_append_eq_of_le (by omega)]
    exact BitVec.extractLsb'_append_eq_right
  · rw [BitVec.extractLsb'_append_eq_of_le (by omega), BitVec.extractLsb'_append_eq_of_le (by omega)]
    exact BitVec.extractLsb'_append_eq_left

/-- A byte that does not race reads as it is in memory (R123). -/
theorem State.loadByte_quiet {s : State} {a l : Nat} (h : ¬ s.loadRaces (a + l) = true) :
    s.loadByte a l = Memory.get s.mem (a + l) := by
  simp [State.loadByte, h]

/-- A byte that races reads as it was before the command or as it is in memory, as the choice for its pixel word says
(R67). -/
theorem State.loadByte_racing {s : State} {a l : Nat} (h : s.loadRaces (a + l) = true) :
    s.loadByte a l =
      if s.nextPick.testBit (pixelOf a l) then Memory.get s.before (a + l) else Memory.get s.mem (a + l) := by
  simp [State.loadByte, h]

/-- Settles O55: the open choice has one bit for each pixel word of the load. -/
theorem racingLoadIsOldOrNew : Obligations.RacingLoadIsOldOrNew := by
  unfold Obligations.RacingLoadIsOldOrNew
  intro s a n rest hin hop written hrace
  have hraces : ∀ b, s.loadRaces b = true ↔ written b := s.loadRaces_iff
  have hrace : ∃ l < 4, s.loadRaces (a + l) = true := by simpa only [hraces] using hrace
  refine ⟨_, (step_load hin hop).trans (if_pos (any_four_iff.2 hrace)), fun l hl hquiet => ?_, fun word => ?_⟩
  · rw [extractLsb'_four_bytes (State.loadByte _ a) hl]
    exact State.loadByte_quiet fun h => hquiet ((hraces _).1 h)
  · have hbyte : ∀ l < 4, (a + l) / 4 = word → written (a + l) → s.loadByte a l =
        if s.nextPick.testBit (word - a / 4) then Memory.get s.before (a + l) else Memory.get s.mem (a + l) := by
      rintro l - rfl hw
      exact State.loadByte_racing ((hraces _).2 hw)
    by_cases hpick : s.nextPick.testBit (word - a / 4)
    · refine .inr fun l hl hword hw => ?_
      rw [extractLsb'_four_bytes (State.loadByte _ a) hl]
      exact (hbyte l hl hword hw).trans (if_pos hpick)
    · refine .inl fun l hl hword hw => ?_
      rw [extractLsb'_four_bytes (State.loadByte _ a) hl]
      exact (hbyte l hl hword hw).trans (if_neg hpick)

end Sys2Proof.Machine
end

section
/-! SUPPORT. The outputs that a race of the host leaves open (R67): those with a raced word among their taps and, in PASS2,
those with a PASS1 result that has one. -/
namespace Sys2Proof.Machine

/-- An output with one of the words as a tap depends on them. -/
theorem Pass.dependsOn_of_tap {inst : Params} {p : Pass} {words : List Nat} {r c k : Nat} (hk : k < 7)
    (h : p.tapAddr inst r c k ∈ words) : p.dependsOn inst words r c = true :=
  List.any_eq_true.2 ⟨k, List.mem_range.2 hk, List.any_eq_true.2 ⟨_, h, by simp [wordsOverlap]⟩⟩

/-- Every row and column of a pass is an output of it (R91). -/
theorem Pass.exists_output (p : Pass) {r c : Nat} (hr : r < p.h) (hc : c < p.w) :
    ∃ o ∈ p.allOutputs, o.r = r ∧ o.c = c := by
  obtain ⟨u, hu, o, ho, hrc⟩ := p.unit_of hr hc
  exact ⟨o, Pass.mem_allOutputs.2 ⟨u, hu, ho⟩, hrc⟩

/-- The words that are open among all outputs of a pass. -/
theorem Pass.mem_openWords_all {inst : Params} {p : Pass} {words : List Nat} {a : Nat} :
    a ∈ p.openWords inst p.allOutputs words ↔
      ∃ r c, (r < p.h ∧ c < p.w ∧ p.dependsOn inst words r c = true) ∧ p.outAddr r c = a := by
  rw [Pass.mem_openWords]
  constructor
  · rintro ⟨o, ho, hdep, hout⟩
    obtain ⟨u, hu, ho⟩ := Pass.mem_allOutputs.1 ho
    obtain ⟨hr, hc⟩ := p.outputs_in_range hu ho
    exact ⟨o.r, o.c, ⟨hr, hc, hdep⟩, hout⟩
  · rintro ⟨r, c, ⟨hr, hc, hdep⟩, hout⟩
    obtain ⟨o, ho, rfl, rfl⟩ := p.exists_output hr hc
    exact ⟨o, ho, hdep, hout⟩

/-- In PASS2 the tainted words are the raced ones and the PASS1 results that depend on one. -/
theorem State.mem_taint_pass2 {s : State} (hph : s.phase = .pass2) {words : List Nat} {a : Nat} :
    a ∈ s.taint words ↔
      a ∈ words ∨ ∃ r c, (r < (firstPass s.latch).h ∧ c < (firstPass s.latch).w ∧
        (firstPass s.latch).dependsOn s.inst words r c = true) ∧ (firstPass s.latch).outAddr r c = a := by
  rw [State.taint, hph]
  exact List.mem_append.trans (or_congr_right Pass.mem_openWords_all)

/-- A raced word is tainted. -/
theorem State.mem_taint_of_mem {s : State} {words : List Nat} {a : Nat} (h : a ∈ words) : a ∈ s.taint words := by
  unfold State.taint
  split
  · exact h
  · exact h
  · exact h
  · exact List.mem_append_left _ h

/-! A unit that is done. -/

/-- A micro-step after which a unit of the pass is done, without an event or a stall, has run its outputs (R105). -/
theorem tick_unit_done {s : State} {u : Nat} (hnodup : s.todo.Nodup) (hph : s.phase = .pass1 ∨ s.phase = .pass2)
    (hu : u ∈ s.todo) (hdone : u ∉ (tick s).1.todo) (hevent : (tick s).2 = .none)
    (hstalled : (tick s).1.stalled = false) :
    (tick s).1 = runOutputs (currentPass s) ((currentPass s).outputs u) (takeUnit s) := by
  rcases tick_cases s with ⟨h, -⟩ | ⟨-, -, hkgen, -⟩ | ⟨-, -, -, hend⟩ |
    ⟨⟨v, hv, ⟨-, h⟩ | ⟨q, -, n, t, -, ⟨-, h⟩ | ⟨-, h⟩⟩⟩, -, -, hne⟩
  · rw [h] at hdone
    exact absurd hu hdone
  · rcases hph with hph | hph <;> rw [hph] at hkgen <;> cases hkgen
  · rw [hend] at hu
    cases hu
  · rw [h, runOutputs_frame, takeUnit_todo, mem_eraseIdx_iff hne hnodup, ← hv] at hdone
    have huv : u = v := by
      by_contra huv
      exact hdone ⟨hu, huv⟩
    rw [h, huv]
  · rw [h] at hstalled
    cases hstalled
  · rw [h] at hevent
    cases hevent

/-- Settles O58: the outputs the statement names are open, and a unit that is done leaves each open output free or, by a race
kept, as it was. -/
theorem outputsOfRacedWordsAreOpen : Obligations.OutputsOfRacedWordsAreOpen := by
  unfold Obligations.OutputsOfRacedWordsAreOpen
  intro s u o hinv hph hu hdone hevent hstalled ho p tap word hraced
  obtain ⟨-, hnodup, hunits⟩ := hinv.pass hph
  have hwords : ∀ {race : Race} {a : Nat}, race ∈ s.raced → a = race.word → a ∈ s.raced.map (·.word) :=
    fun hrace ha => ha ▸ List.mem_map_of_mem hrace
  have hopen : s.outputIsOpen (currentPass s) o = true := by
    rw [State.outputIsOpen, Bool.or_eq_true]
    right
    rcases hraced with ⟨k, hk, race, hrace, htap⟩ | ⟨hph2, k, hk, r, hr, c, hc, htap, k', hk', race, hrace, htap'⟩
    · exact Pass.dependsOn_of_tap hk (State.mem_taint_of_mem (hwords hrace htap))
    · exact Pass.dependsOn_of_tap hk ((State.mem_taint_pass2 hph2).2
        (.inr ⟨r, c, ⟨hr, hc, Pass.dependsOn_of_tap hk' (hwords hrace htap')⟩, htap.symm⟩))
  rw [tick_unit_done hnodup hph hu hdone hevent hstalled]
  rcases runOutputs_open (s := takeUnit s) hinv.memory_canonical ((currentPass s).outputs_apart (hunits u hu)) ho hopen with
    ⟨hkept, hold⟩ | hfree
  · obtain ⟨race, hrace, hkept⟩ := List.any_eq_true.1 hkept
    rw [Bool.and_eq_true, wordsOverlap, decide_eq_true_iff] at hkept
    exact .inr ⟨⟨race, hrace, hkept⟩, hold⟩
  · exact .inl hfree

end Sys2Proof.Machine
end

section
/-! SUPPORT. A racing store of the host (R67): which outputs it opens at once, in the words of the statement, and what it
leaves in memory. -/
namespace Sys2Proof.Machine

/-! Pixel words lie at multiples of 4 (R17, R90). -/

/-- Pixel words that share a byte are the same. -/
theorem wordsOverlap_iff_of_aligned {a b : Nat} (ha : a % 4 = 0) (hb : b % 4 = 0) : wordsOverlap a b = true ↔ a = b := by
  rw [wordsOverlap, decide_eq_true_iff]
  omega

/-- A valid pass reads pixel words (R99). -/
theorem Pass.Valid.tapAddr_aligned {inst : Params} {p : Pass} (h : p.Valid inst) (hinst : inst.wf = true) (r c k : Nat) :
    p.tapAddr inst r c k % 4 = 0 := by
  have haddrW : 16 ≤ inst.addrW := (of_decide_eq_true hinst).1
  have hspace : 4 ∣ 2 ^ inst.addrW := pow_dvd_pow 2 (by omega : 2 ≤ inst.addrW)
  have := h.srcAligned
  rw [Pass.tapAddr, Nat.mod_mod_of_dvd _ hspace]
  omega

/-- A valid pass writes pixel words (R104). -/
theorem Pass.Valid.outAddr_aligned {inst : Params} {p : Pass} (h : p.Valid inst) (r c : Nat) : p.outAddr r c % 4 = 0 := by
  have := h.dstAligned
  unfold Pass.outAddr
  omega

/-- An output of a valid pass depends on pixel words when one of them is a tap of it. -/
theorem Pass.Valid.dependsOn_iff {inst : Params} {p : Pass} (h : p.Valid inst) (hinst : inst.wf = true) {words : List Nat}
    (hwords : ∀ a ∈ words, a % 4 = 0) {r c : Nat} :
    p.dependsOn inst words r c = true ↔ ∃ k < 7, p.tapAddr inst r c k ∈ words := by
  refine ⟨fun hdep => ?_, fun ⟨k, hk, htap⟩ => Pass.dependsOn_of_tap hk htap⟩
  obtain ⟨k, hk, hdep⟩ := List.any_eq_true.1 hdep
  obtain ⟨a, ha, hover⟩ := List.any_eq_true.1 hdep
  rw [wordsOverlap_iff_of_aligned (hwords a ha) (h.tapAddr_aligned hinst r c k)] at hover
  exact ⟨k, List.mem_range.1 hk, hover ▸ ha⟩

/-- While a pass runs, the first pass of its command is valid (R90, R113). -/
theorem State.Inv.first_valid {s : State} (h : s.Inv) (hph : s.phase = .pass1 ∨ s.phase = .pass2) :
    (firstPass s.latch).Valid s.inst := by
  have hr := h.running
  rcases hph with hph | hph <;> simp only [RunningOk, hph] at hr
  · obtain ⟨-, -, -, hvalid, -⟩ := hr
    exact hvalid
  · obtain ⟨-, -, -, -, hvalid, -⟩ := hr
    exact hvalid

/-- In PASS2 the second pass of its command is valid too (R113). -/
theorem State.Inv.second_valid {s : State} (h : s.Inv) (hph : s.phase = .pass2) : (secondPass s.latch).Valid s.inst := by
  obtain ⟨hvalid, -⟩ := h.pass (.inr hph)
  rwa [currentPass, hph] at hvalid

/-! What the statement says of a store at `a`. -/

/-- A store races on the byte at `b`. -/
def State.RacesAt (s : State) (b : Nat) : Prop :=
  s.busy = true ∧ (s.latch.op = 2 ∨ s.latch.op = 3) ∧ ((firstPass s.latch).InDest b ∨ (secondPass s.latch).InDest b)

/-- The store races for the pixel word of the byte at `x`. -/
def State.RacesFor (s : State) (a x : Nat) : Prop := ∃ l < 4, s.RacesAt (a + l) ∧ (a + l) / 4 = x / 4

/-- The output of the first pass has a raced word among its taps. -/
def State.FirstReader (s : State) (a r c : Nat) : Prop :=
  r < (firstPass s.latch).h ∧ c < (firstPass s.latch).w ∧ (s.phase = .pass1 ∨ s.phase = .pass2) ∧
    ∃ k < 7, s.RacesFor a ((firstPass s.latch).tapAddr s.inst r c k)

/-- The output of the second pass has a raced word, or the word of a `FirstReader`, among its taps. -/
def State.SecondReader (s : State) (a r c : Nat) : Prop :=
  r < (secondPass s.latch).h ∧ c < (secondPass s.latch).w ∧ s.phase = .pass2 ∧
    ∃ k < 7, s.RacesFor a ((secondPass s.latch).tapAddr s.inst r c k) ∨
      ∃ r' c', s.FirstReader a r' c' ∧ (secondPass s.latch).tapAddr s.inst r c k = (firstPass s.latch).outAddr r' c'

/-- The output of the running pass has been written (R40). -/
def State.Stored (s : State) (r c : Nat) : Prop :=
  (r, c) ∈ s.landed ∨ ∀ u ∈ s.todo, ∀ o ∈ (currentPass s).outputs u, ¬ (o.r = r ∧ o.c = c)

/-- The byte at `b` is of the word of an output that the store opens at once. -/
def State.Opened (s : State) (a b : Nat) : Prop :=
  (∃ r c, s.FirstReader a r c ∧ (s.phase = .pass2 ∨ s.Stored r c) ∧ b / 4 = (firstPass s.latch).outAddr r c / 4) ∨
    ∃ r c, s.SecondReader a r c ∧ s.Stored r c ∧ b / 4 = (secondPass s.latch).outAddr r c / 4

/-- The pixel words a store races for. -/
def State.racedWords (s : State) (a : Nat) : List Nat := (s.newRaces a).map (·.word)

/-- The raced words are the pixel words with a racing byte of the store. -/
theorem State.mem_racedWords {s : State} {a x : Nat} : x ∈ s.racedWords a ↔ x % 4 = 0 ∧ s.RacesFor a x := by
  have hpixel : ∀ j, s.pixelRaces a j = true ↔ ∃ l < 4, pixelOf a l = j ∧ s.RacesAt (a + l) := fun j => by
    rw [State.pixelRaces, any_four_iff]
    simp only [Bool.and_eq_true, decide_eq_true_eq, State.storeRaces_iff, State.RacesAt]
  simp only [State.racedWords, State.newRaces, List.map_map, List.mem_map, List.mem_filter, hpixel, Function.comp_apply,
    pixelOf]
  constructor
  · rintro ⟨j, ⟨-, l, hl, rfl, hrace⟩, rfl⟩
    exact ⟨by omega, l, hl, hrace, by omega⟩
  · rintro ⟨hx, l, hl, hrace, hword⟩
    refine ⟨(a + l) / 4 - a / 4, ⟨?_, l, hl, rfl, hrace⟩, by omega⟩
    simp only [List.mem_cons, List.not_mem_nil, or_false]
    omega

/-- Raced words lie at multiples of 4. -/
theorem State.racedWords_aligned {s : State} {a x : Nat} (h : x ∈ s.racedWords a) : x % 4 = 0 :=
  (State.mem_racedWords.1 h).1

/-- The readers in the first pass are its outputs that depend on a raced word. -/
theorem State.Inv.firstReader_iff {s : State} (h : s.Inv) (hph : s.phase = .pass1 ∨ s.phase = .pass2) {a r c : Nat} :
    s.FirstReader a r c ↔
      r < (firstPass s.latch).h ∧ c < (firstPass s.latch).w ∧
        (firstPass s.latch).dependsOn s.inst (s.racedWords a) r c = true := by
  have hvalid := h.first_valid hph
  rw [hvalid.dependsOn_iff h.instance_legal fun _ => State.racedWords_aligned]
  simp only [State.FirstReader, State.mem_racedWords, hvalid.tapAddr_aligned h.instance_legal, hph, true_and]

/-- The readers in the second pass are its outputs that depend on a tainted word. -/
theorem State.Inv.secondReader_iff {s : State} (h : s.Inv) (hph : s.phase = .pass2) {a r c : Nat} :
    s.SecondReader a r c ↔
      r < (secondPass s.latch).h ∧ c < (secondPass s.latch).w ∧
        (secondPass s.latch).dependsOn s.inst (s.taint (s.racedWords a)) r c = true := by
  have hvalid := h.second_valid hph
  have htaint : ∀ x, x ∈ s.taint (s.racedWords a) ↔
      (x % 4 = 0 ∧ s.RacesFor a x) ∨ ∃ r c, s.FirstReader a r c ∧ x = (firstPass s.latch).outAddr r c := fun x => by
    rw [State.mem_taint_pass2 hph, State.mem_racedWords]
    simp only [h.firstReader_iff (.inr hph), eq_comm (a := x)]
  rw [hvalid.dependsOn_iff h.instance_legal fun x hx => by
    rcases (htaint x).1 hx with ⟨hx, -⟩ | ⟨r, c, -, rfl⟩
    · exact hx
    · exact (h.first_valid (.inr hph)).outAddr_aligned r c]
  simp only [State.SecondReader, htaint, hvalid.tapAddr_aligned h.instance_legal, hph, true_and]

/-- An output of the running pass is one of R40's set exactly when it is stored. -/
theorem State.stored_iff {s : State} {r c : Nat} (hr : r < (currentPass s).h) (hc : c < (currentPass s).w) :
    s.Stored r c ↔ ∃ o ∈ s.written, o.r = r ∧ o.c = c := by
  simp only [State.mem_written, State.Stored]
  constructor
  · intro hst
    obtain ⟨u, hu, o, ho, rfl, rfl⟩ := (currentPass s).unit_of hr hc
    refine ⟨o, ⟨u, hu, ho, ?_⟩, rfl, rfl⟩
    exact hst.symm.imp_left fun hout hin => hout u hin o ho ⟨rfl, rfl⟩
  · rintro ⟨o, ⟨u, -, ho, hst⟩, rfl, rfl⟩
    refine hst.symm.imp_right fun hu v hv o' ho' hrc => hu ?_
    rwa [(currentPass s).unit_unique ho ho' hrc.1.symm hrc.2.symm]

/-- The words that are open among the outputs written. -/
theorem State.mem_openWords_written {s : State} {words : List Nat} {x : Nat} :
    x ∈ (currentPass s).openWords s.inst s.written words ↔
      ∃ r c, (r < (currentPass s).h ∧ c < (currentPass s).w ∧ (currentPass s).dependsOn s.inst words r c = true) ∧
        s.Stored r c ∧ (currentPass s).outAddr r c = x := by
  rw [Pass.mem_openWords]
  constructor
  · rintro ⟨o, ho, hdep, hout⟩
    obtain ⟨u, hu, hou, -⟩ := State.mem_written.1 ho
    obtain ⟨hr, hc⟩ := (currentPass s).outputs_in_range hu hou
    exact ⟨o.r, o.c, ⟨hr, hc, hdep⟩, (State.stored_iff hr hc).2 ⟨o, ho, rfl, rfl⟩, hout⟩
  · rintro ⟨r, c, ⟨hr, hc, hdep⟩, hst, hout⟩
    obtain ⟨o, ho, rfl, rfl⟩ := (State.stored_iff hr hc).1 hst
    exact ⟨o, ho, hdep, hout⟩

/-- The words the store frees are those of the readers already stored (in PASS2, of every reader in the first pass). -/
theorem State.Inv.mem_dependents {s : State} (h : s.Inv) {a x : Nat} :
    x ∈ s.dependents (s.racedWords a) ↔
      (∃ r c, s.FirstReader a r c ∧ (s.phase = .pass2 ∨ s.Stored r c) ∧ (firstPass s.latch).outAddr r c = x) ∨
        ∃ r c, s.SecondReader a r c ∧ s.Stored r c ∧ (secondPass s.latch).outAddr r c = x := by
  have hwritten := @State.mem_openWords_written s
  unfold State.dependents
  cases hph : s.phase with
  | idle => simp [State.FirstReader, State.SecondReader, hph]
  | kgen => simp [State.FirstReader, State.SecondReader, hph]
  | pass1 =>
    have hpass : currentPass s = firstPass s.latch := by rw [currentPass, hph]
    rw [hpass] at hwritten
    have hsecond : ∀ r c, ¬ s.SecondReader a r c := fun r c ⟨_, _, hph2, _⟩ => by cases hph.symm.trans hph2
    simp only [hwritten, h.firstReader_iff (.inl hph), hsecond, reduceCtorEq, false_or, false_and, exists_false, or_false]
  | pass2 =>
    have hpass : currentPass s = secondPass s.latch := by rw [currentPass, hph]
    rw [hpass] at hwritten
    simp only [List.mem_append, Pass.mem_openWords_all, hwritten, h.firstReader_iff (.inr hph), h.secondReader_iff hph,
      true_or, true_and]

/-- Freed words lie at multiples of 4. -/
theorem State.Inv.dependents_aligned {s : State} (h : s.Inv) {a x : Nat} (hx : x ∈ s.dependents (s.racedWords a)) :
    x % 4 = 0 := by
  rcases h.mem_dependents.1 hx with ⟨r, c, ⟨-, -, hph, -⟩, -, rfl⟩ | ⟨r, c, ⟨-, -, hph, -⟩, -, rfl⟩
  · exact (h.first_valid hph).outAddr_aligned r c
  · exact (h.second_valid hph).outAddr_aligned r c

/-! What the store leaves in memory. -/

/-- Memory with the words freed that the store opens, before its own bytes. -/
def State.freedMemory (s : State) (a : Nat) : Memory := (freeWords (s.dependents (s.racedWords a)) s.dropPick).mem

/-- A racing store frees words and then stores those of its bytes that land. -/
theorem racingStore_mem (a : Nat) (v : Word) (s : State) :
    (racingStore a v s).mem = storeBytes (s.storeLands a) a v (s.freedMemory a) := rfl

/-- Freeing words keeps the canonical form. -/
theorem State.Inv.freedMemory_wf {s : State} (h : s.Inv) (a : Nat) : Memory.wf (s.freedMemory a) :=
  freeWords_mem_induction Memory.wf h.memory_canonical fun _ _ _ _ hm => Memory.wf_write32 hm _ _

/-- A byte that is not of an opened word is as it was. -/
theorem State.Inv.freedMemory_get {s : State} (h : s.Inv) (a b : Nat) :
    Memory.get (s.freedMemory a) b = Memory.get s.mem b ∨ s.Opened a b := by
  by_cases hb : ∃ x ∈ s.dependents (s.racedWords a), b / 4 = x / 4
  · obtain ⟨x, hx, hb⟩ := hb
    right
    rcases h.mem_dependents.1 hx with ⟨r, c, hr, hst, rfl⟩ | ⟨r, c, hr, hst, rfl⟩
    · exact .inl ⟨r, c, hr, hst, hb⟩
    · exact .inr ⟨r, c, hr, hst, hb⟩
  · refine .inl (freeWords_get_other fun x hx => ?_)
    have := h.dependents_aligned hx
    have : b / 4 ≠ x / 4 := fun hbx => hb ⟨x, hx, hbx⟩
    omega

/-- Beside the bytes stored, a freed word holds a free value. -/
theorem State.Inv.racingStore_read {s : State} (h : s.Inv) {a : Nat} (v : Word) {x : Nat}
    (hx : x ∈ s.dependents (s.racedWords a)) (hap : a + 4 ≤ x ∨ x + 4 ≤ a) :
    ∃ k, s.free ≤ k ∧ Memory.read32 (racingStore a v s).mem x = Config.freeWord k := by
  obtain ⟨k, hk, hread⟩ := freeWords_read (s := s.dropPick) h.memory_canonical hx fun y hy => by
    have := h.dependents_aligned hx
    have := h.dependents_aligned hy
    omega
  refine ⟨k, hk, Eq.trans ?_ hread⟩
  rw [racingStore_mem]
  exact Memory.read32_congr fun l hl => storeBytes_get_other _ _ _ (by omega)

/-- Byte `l` of the store: stored if it races with nothing or its pixel word lands, else what freeing has left there. -/
theorem State.Inv.racingStore_byte {s : State} (h : s.Inv) (a : Nat) (v : Word) {l : Nat} (hl : l < 4) :
    Memory.get (racingStore a v s).mem (a + l) =
      if s.storeLands a l then v.extractLsb' (8 * l) 8 else Memory.get (s.freedMemory a) (a + l) :=
  storeBytes_get _ a v (h.freedMemory_wf a) hl

/-- A byte of the store that races with nothing is stored. -/
theorem State.Inv.racingStore_byte_quiet {s : State} (h : s.Inv) (a : Nat) (v : Word) {l : Nat} (hl : l < 4)
    (hquiet : ¬ s.RacesAt (a + l)) : Memory.get (racingStore a v s).mem (a + l) = v.extractLsb' (8 * l) 8 := by
  have hrace : ¬ s.storeRaces (a + l) = true := fun hrace => hquiet ((s.storeRaces_iff _).1 hrace)
  rw [h.racingStore_byte a v hl, if_pos (by simp [State.storeLands, hrace])]

/-- The open choice has a bit for each pixel word: its bytes are all stored, or those that race are as freeing has left
them. -/
theorem State.Inv.racingStore_word {s : State} (h : s.Inv) (a : Nat) (v : Word) (word : Nat) :
    (∀ l < 4, (a + l) / 4 = word → Memory.get (racingStore a v s).mem (a + l) = v.extractLsb' (8 * l) 8) ∨
      ∀ l < 4, (a + l) / 4 = word → s.RacesAt (a + l) →
        Memory.get (racingStore a v s).mem (a + l) = Memory.get (s.freedMemory a) (a + l) := by
  by_cases hpick : s.nextPick.testBit (2 * (word - a / 4))
  · refine .inr ?_
    rintro l hl rfl hrace
    have hrace : s.storeRaces (a + l) = true := (s.storeRaces_iff _).2 hrace
    rw [h.racingStore_byte a v hl, if_neg (by simp [State.storeLands, hrace, pixelOf, hpick])]
  · refine .inl ?_
    rintro l hl rfl
    rw [h.racingStore_byte a v hl, if_pos (by simp [State.storeLands, pixelOf, hpick])]

/-- A byte beside the store is as freeing has left it. -/
theorem racingStore_other (a : Nat) (v : Word) (s : State) {b : Nat} (hb : b < a ∨ a + 4 ≤ b) :
    Memory.get (racingStore a v s).mem b = Memory.get (s.freedMemory a) b :=
  storeBytes_get_other _ v _ hb

/-- Each pixel word raced for is remembered. -/
theorem racingStore_remembers {s : State} {a x : Nat} (v : Word) (hx : s.RacesFor a x) :
    ∃ race ∈ (racingStore a v s).raced, race.word / 4 = x / 4 := by
  obtain ⟨l, hl, hrace, hword⟩ := hx
  have hmem : 4 * (x / 4) ∈ s.racedWords a := State.mem_racedWords.2 ⟨by omega, l, hl, hrace, by omega⟩
  obtain ⟨race, hrace, heq⟩ := List.mem_map.1 hmem
  exact ⟨race, List.mem_append_left _ hrace, by omega⟩

/-- After a racing store the sequencer runs on with the memory, the races, the choices and the free values it leaves. -/
theorem runLead_racingStore (a : Nat) (v : Word) (s : State) :
    runLead (racingStore a v s) =
      advance s.lead
        { s with
          mem := (racingStore a v s).mem
          raced := (racingStore a v s).raced
          picks := s.picks.tail
          free := (racingStore a v s).free } :=
  congrArg runLead (racingStore_frame a v s)

/-- Settles O57: the words freed are those of the readers stored, and the open choice has a bit for each pixel word of the
store. -/
theorem racingStoreOpensItsReaders : Obligations.RacingStoreOpensItsReaders := by
  unfold Obligations.RacingStoreOpensItsReaders
  intro s a n v rest hinv hin hop p q races raced first second stored opened hrace
  have h := hinv.quiet s.bus s.rdata rest n s.picks s.free
  have hrace : ∃ l < 4, s.storeRaces (a + l) = true := by simpa only [State.storeRaces_iff] using hrace
  refine ⟨_, _, _, (step_store hin hop).trans ((if_pos (any_four_iff.2 hrace)).trans
    (congrArg _ (runLead_racingStore a v _))), ?_, fun word => ?_, fun b hb => ?_, ?_, ?_, ?_⟩
  · exact fun l hl => h.racingStore_byte_quiet a v hl
  · refine (h.racingStore_word a v word).imp_right fun hword l hl hl' hr => ?_
    rw [hword l hl hl' hr]
    exact h.freedMemory_get a (a + l)
  · rw [racingStore_other a v _ hb]
    exact h.freedMemory_get a b
  · exact fun x hx => racingStore_remembers v hx
  · exact fun r c hr hst => h.racingStore_read v (h.mem_dependents.2 (.inl ⟨r, c, hr, hst, rfl⟩))
  · exact fun r c hr hst => h.racingStore_read v (h.mem_dependents.2 (.inr ⟨r, c, hr, hst, rfl⟩))

end Sys2Proof.Machine
end

section
/-! SUPPORT. The decoder and the encoder (R24, R72 to R78, R117): the fields of a command word, and what each of the two
answers of the other's result. -/
namespace Sys2Proof.Machine

/-! The fields of a command word. -/

/-- OP is bits 3..0 (R72). -/
theorem opField_toNat (w : Word) : (opField w).toNat = w.toNat % 16 := by
  simp [opField, BitVec.extractLsb'_toNat]

/-- VW is bit 4 (R72). -/
theorem vwField_toNat (w : Word) : (vwField w).toNat = w.toNat / 16 % 2 := by
  simp [vwField, BitVec.getLsbD, Nat.toNat_testBit]

/-- RSV is bits 31..5 (R72). -/
theorem rsvField_toNat (w : Word) : (rsvField w).toNat = w.toNat / 32 := by
  have hw := w.isLt
  rw [rsvField, BitVec.extractLsb'_toNat, Nat.shiftRight_eq_div_pow]
  omega

/-- No RSV bit is set exactly when the word is below 2^5. -/
theorem rsvField_eq_zero_iff {w : Word} : rsvField w = 0 ↔ w.toNat / 32 = 0 := by
  rw [BitVec.toNat_eq, rsvField_toNat]
  rfl

/-- A command word as a number. -/
theorem commandWord_toNat (op : BitVec 4) (vw : Bool) : (commandWord op vw).toNat = op.toNat + 16 * vw.toNat := by
  simp only [commandWord, toNat_append_add, BitVec.toNat_ofBool, BitVec.toNat_ofNat]
  omega

/-- A word without RSV bits is the command word of its own OP and VW. -/
theorem commandWord_of_fields {w : Word} (h : rsvField w = 0) : commandWord (opField w) (vwField w) = w := by
  rw [rsvField_eq_zero_iff] at h
  apply BitVec.eq_of_toNat_eq
  rw [commandWord_toNat, opField_toNat, vwField_toNat]
  omega

/-! Decoding and encoding. -/

/-- A command word that decodes is its instruction's (R73, R75). -/
theorem encode_of_decodeCommand {w : Word} {i : Instr} (h : decodeCommand w = .ok i) :
    i.wf = true ∧ encode i = (cmdOffset, w) := by
  unfold decodeCommand at h
  split at h
  · rename_i hrsv
    have hw := commandWord_of_fields hrsv
    have hop : ∀ {op : BitVec 4}, (opField w).toNat = op.toNat → commandWord op (vwField w) = w :=
      fun hn => BitVec.eq_of_toNat_eq hn ▸ hw
    split at h <;> rename_i hn <;> cases h
    · exact ⟨rfl, congrArg _ (hop (op := 0) hn)⟩
    · exact ⟨rfl, congrArg _ (hop (op := 1) hn)⟩
    · rw [← hop (op := 2) hn]
      cases vwField w <;> exact ⟨rfl, rfl⟩
    · rw [← hop (op := 3) hn]
      cases vwField w <;> exact ⟨rfl, rfl⟩
  · cases h

/-- A register write that decodes is its instruction's, and the instruction is well-formed (R24, R73, R117). -/
theorem encode_of_decodeWrite {off : Offset} {w : Word} {i : Instr} (h : decodeWrite off w = .ok i) :
    i.wf = true ∧ encode i = (off, w) := by
  unfold decodeWrite at h
  split at h
  · rename_i hcmd
    exact hcmd ▸ encode_of_decodeCommand h
  · split at h
    · rename_i hctrl
      unfold decodeControl at h
      split at h <;> cases h
      exact ⟨by assumption, congrArg (·, w) hctrl.symm⟩
    · cases h

/-- The register write of a well-formed instruction decodes to it. -/
theorem decodeWrite_encode {i : Instr} (h : i.wf = true) : decodeWrite (encode i).1 (encode i).2 = .ok i := by
  cases i with
  | nop vw => cases vw <;> rfl
  | kgen vw => cases vw <;> rfl
  | hpassV128 => rfl
  | hpassV256 => rfl
  | blurV128 => rfl
  | blurV256 => rfl
  | srst ctrl => exact if_pos h

/-- The decoder drops only the reason where a write is no instruction. -/
theorem decode_eq_some_iff {off : Offset} {w : Word} {i : Instr} : decode off w = some i ↔ decodeWrite off w = .ok i := by
  unfold decode
  cases decodeWrite off w <;> simp [Except.toOption]

/-- Settles O2: what a write decodes to is encoded as that write, and the encoding of a well-formed instruction decodes. -/
theorem decodeInvertsEncode : Obligations.DecodeInvertsEncode := by
  unfold Obligations.DecodeInvertsEncode
  intro off w i
  rw [decode_eq_some_iff]
  refine ⟨encode_of_decodeWrite, fun ⟨hwf, henc⟩ => ?_⟩
  simpa only [henc] using decodeWrite_encode hwf

/-- A word written to CTRL (R24, R117). -/
theorem decode_ctrl (w : Word) : decode ctrlOffset w = if w.getLsbD 0 then some (.srst w) else none := by
  change (decodeControl w).toOption = _
  unfold decodeControl
  split <;> rfl

/-- Settles O1: the listed words by running the decoder, every word written to CTRL by its bit 0. -/
theorem wordsOfTheTableDecode : Obligations.WordsOfTheTableDecode :=
  ⟨rfl, rfl, rfl, rfl, rfl, rfl, rfl, rfl, rfl, rfl, decode_ctrl⟩

/-- A command word decodes, or it has an RSV bit set or a reserved OP and is refused for one of the two (R73, R75, R77). -/
theorem decodeCommand_cases (w : Word) :
    (¬ (rsvField w ≠ 0 ∨ 4 ≤ (opField w).toNat) ∧ ∃ i, decodeCommand w = .ok i) ∨
      (rsvField w ≠ 0 ∨ 4 ≤ (opField w).toNat) ∧
        (decodeCommand w = .error .reservedBits ∨ decodeCommand w = .error .reservedOp) := by
  unfold decodeCommand
  split
  · rename_i hrsv
    split
    case h_5 h0 h1 h2 h3 =>
      have hop : 4 ≤ (opField w).toNat := by
        rw [imp_false] at h0 h1 h2 h3
        omega
      exact .inr ⟨.inr hop, .inr rfl⟩
    all_goals exact .inl ⟨by simp [*], _, rfl⟩
  · exact .inr ⟨.inl ‹_›, .inl rfl⟩

/-- A word written to CMD is no instruction exactly when an RSV bit is set or OP is reserved (R73, R75). -/
theorem decode_cmd_eq_none_iff {w : Word} :
    decode cmdOffset w = none ↔ rsvField w ≠ 0 ∨ 4 ≤ (opField w).toNat := by
  change (decodeCommand w).toOption = none ↔ _
  rcases decodeCommand_cases w with ⟨hlegal, i, hdec⟩ | ⟨hillegal, hdec | hdec⟩
  · simp only [hdec, Except.toOption, reduceCtorEq, hlegal]
  · simp only [hdec, Except.toOption, hillegal]
  · simp only [hdec, Except.toOption, hillegal]

/-- The reserved words by their numbers: a bit of 31..5 set, or bits 3..0 at 4 or more. -/
theorem reserved_fields_iff {w : Word} :
    (rsvField w ≠ 0 ∨ 4 ≤ (opField w).toNat) ↔ w.toNat / 32 ≠ 0 ∨ 4 ≤ w.toNat % 16 := by
  rw [Ne, rsvField_eq_zero_iff, opField_toNat]

end Sys2Proof.Machine
end

section
/-! SUPPORT. The register write at the step (R77, R78, R118): what an instruction runs, and the refusal of a word that is
none (R128, R130). -/
namespace Sys2Proof.Machine

/-- The host's next event is a register write: the port answers it. -/
theorem step_write {s : State} {off : Offset} {w : Word} {n : Nat} {rest : List Input}
    (hin : s.inputs = { op := .write off w, lead := n } :: rest) :
    step s = portWrite off w { s with inputs := rest, lead := n } := by
  rw [step, nextEvent, hin]
  rfl

/-- A register write that decodes is to an aligned offset: CMD or CTRL (R21). -/
theorem aligned_of_decodeWrite {off : Offset} {w : Word} {i : Instr} (h : decodeWrite off w = .ok i) :
    aligned off = true := by
  obtain ⟨-, henc⟩ := encode_of_decodeWrite h
  rw [show off = (encode i).1 from congrArg Prod.fst henc.symm]
  cases i with
  | srst ctrl => exact (by decide : aligned ctrlOffset = true)
  | _ => exact (by decide : aligned cmdOffset = true)

/-- A register write that decodes runs its instruction (R78, R121). -/
theorem portWrite_instr {off : Offset} {w : Word} {i : Instr} {s : State} (hlow : s.rstLow = false)
    (h : decodeWrite off w = .ok i) : portWrite off w s = exec i s := by
  simp [portWrite, hlow, aligned_of_decodeWrite h, h]

/-- A word written to CMD with an RSV bit or a reserved OP is presented as an illegal command (R77). -/
theorem portWrite_illegal {w : Word} {s : State} (hlow : s.rstLow = false)
    (h : rsvField w ≠ 0 ∨ 4 ≤ (opField w).toNat) : portWrite cmdOffset w s = illegalCommand w s := by
  have hal : aligned cmdOffset = true := by decide
  have hcmd : decodeWrite cmdOffset w = decodeCommand w := rfl
  rcases decodeCommand_cases w with ⟨hlegal, -⟩ | ⟨-, hdec | hdec⟩
  · exact absurd h hlegal
  · simp [portWrite, hlow, hal, hcmd, hdec]
  · simp [portWrite, hlow, hal, hcmd, hdec]

/-- Settles O4: the port answers the write, and an instruction it decodes to is run as it is. -/
theorem stepRunsDecodedInstruction : Obligations.StepRunsDecodedInstruction := by
  unfold Obligations.StepRunsDecodedInstruction
  intro s off w n rest i hin hlow hdec
  exact (step_write hin).trans (portWrite_instr hlow (decode_eq_some_iff.1 hdec))

/-- A refusal leaves the phase (R128). -/
@[simp] theorem refuseCommand_phase (e : ErrCode) (w : Word) (s : State) : (refuseCommand e w s).phase = s.phase := by
  unfold refuseCommand errorEntry
  split <;> rfl

/-- A command word that is presented with BUSY = 0 and fails a check records its error, and the sequencer stays idle
(R128). -/
theorem present_refused {w : Word} {s : State} {e : ErrCode} (start : State → State) (hidle : s.busy = false)
    (hv : validate w s = some e) : present w start s = refuseCommand e w s := by
  rw [present, hidle, hv]
  exact advance_idle _ (by simpa [State.busy] using hidle)

/-- ERR_CODE as a number, each field by its weight (R27). -/
theorem errCodeWord_toNat (e : ErrCode) (op : BitVec 4) (vw : Bool) :
    (errCodeWord e op vw).toNat = e.number.toNat + 256 * op.toNat + 4096 * vw.toNat := by
  simp only [errCodeWord, toNat_append_add, BitVec.toNat_ofBool, BitVec.toNat_ofNat]
  omega

/-- ERR_CODE as a refusal records it: the code and the word's own OP and VW (R128, R130). -/
theorem errCodeWord_of_word (e : ErrCode) (w : Word) :
    errCodeWord e (opField w) (vwField w) =
      BitVec.ofNat 32 (e.number.toNat + 256 * (w.toNat % 16) + 4096 * (w.toNat / 16 % 2)) := by
  rw [← opField_toNat, ← vwField_toNat, ← errCodeWord_toNat, BitVec.ofNat_toNat, BitVec.setWidth_eq]

/-- With BUSY = 0, a word written to CMD with an RSV bit or a reserved OP fails the first check and is refused (R77, R127,
R128). -/
theorem portWrite_refused {w : Word} {s : State} (hlow : s.rstLow = false) (hidle : s.busy = false)
    (h : rsvField w ≠ 0 ∨ 4 ≤ (opField w).toNat) :
    portWrite cmdOffset w s = .next (refuseCommand .illegalCmd w s) := by
  rw [portWrite_illegal hlow h, illegalCommand, present_refused id hidle (if_pos h)]

/-- Settles O3: the words that do not decode are those with reserved fields, and a refusal is the error entry with the word's
own fields. -/
theorem illegalWordsAreRefused : Obligations.IllegalWordsAreRefused := by
  unfold Obligations.IllegalWordsAreRefused
  intro w
  refine ⟨decode_cmd_eq_none_iff.trans reserved_fields_iff, fun s n rest hin hlow hidle hword => ?_⟩
  have hport := portWrite_refused (s := { s with inputs := rest, lead := n }) hlow hidle (reserved_fields_iff.2 hword)
  rw [refuseCommand, errorEntry, errCodeWord_of_word] at hport
  exact (step_write hin).trans hport

end Sys2Proof.Machine
end

section
/-! SUPPORT. KGEN as a command (R81, R82, R85): the legal sigmas, the refusal of every other, and the two micro-steps of
an accepted one. -/
namespace Sys2Proof.Machine

/-- The legal sigmas are the bit patterns of the positive finite values (R82). -/
theorem legalSigma_iff {w : Word} : legalSigma w = true ↔ 1 ≤ w.toNat ∧ w.toNat ≤ 0x7F7FFFFF := by
  have hsign : w.getLsbD 31 = decide (2 ^ 31 ≤ w.toNat) := BitVec.msb_eq_decide w
  have hexp : w.extractLsb' 23 8 = 0xFF ↔ w.toNat / 2 ^ 23 % 2 ^ 8 = 255 := by
    rw [← BitVec.toNat_inj, BitVec.extractLsb'_toNat, Nat.shiftRight_eq_div_pow]; rfl
  have hzero : w = 0 ↔ w.toNat = 0 := BitVec.toNat_inj.symm
  have hlt := w.isLt
  simp only [legalSigma, hsign, Ne, hexp, hzero, Bool.and_eq_true, Bool.not_eq_true', decide_eq_true_eq,
    decide_eq_false_iff_not]
  omega

/-- A KGEN or BLUR word whose datapath exists fails first at its sigma, where that is not legal (R127). -/
theorem validate_badSigma {w : Word} {s : State} (hrsv : rsvField w = 0) (hop : opField w = 1 ∨ opField w = 3)
    (hvw : vwField w = true → opField w = 3 → s.inst.hasV256 = true) (hsigma : legalSigma s.sigma = false) :
    validate w s = some .badSigma := by
  rcases hop with hop | hop
  · simp [validate, hrsv, hop, hsigma]
  · have hpath : ¬ (vwField w = true ∧ s.inst.hasV256 = false) := fun h => by simp [hvw h.1 hop] at h
    simp [validate, hrsv, hop, hsigma, hpath]

/-- The fields of KGEN's word (R72, R75). -/
theorem kgen_fields (vw : Bool) :
    rsvField (encode (.kgen vw)).2 = 0 ∧ opField (encode (.kgen vw)).2 = 1 ∧ vwField (encode (.kgen vw)).2 = vw := by
  cases vw <;> decide

/-- KGEN is accepted with a legal sigma (R82, R127). -/
theorem validate_kgen {s : State} (vw : Bool) (hsigma : legalSigma s.sigma = true) :
    validate (encode (.kgen vw)).2 s = none := by
  obtain ⟨hrsv, hop, -⟩ := kgen_fields vw
  simp [validate, hrsv, hop, hsigma]

/-- Settles O11: the interval of `legalSigma_iff`; every other sigma fails its check, and the refusal is the error entry. -/
theorem sigmaMustBePositiveAndFinite : Obligations.SigmaMustBePositiveAndFinite := by
  refine ⟨fun _ => legalSigma_iff, fun s hidle hsigma => ?_⟩
  have hbad : legalSigma s.sigma = false := by rw [Bool.eq_false_iff, Ne, legalSigma_iff]; omega
  have refusal {w : Word} (start : State → State) (hrsv : rsvField w = 0) (hop : opField w = 1 ∨ opField w = 3)
      (hvw : vwField w = true → opField w = 3 → s.inst.hasV256 = true) :
      present w start s = refuseCommand .badSigma w s :=
    present_refused start hidle (validate_badSigma hrsv hop hvw hbad)
  refine ⟨fun vw => ?_, ?_, fun hpath => ?_⟩
  · cases vw
    · exact congrArg _ (refusal _ rfl (.inl rfl) fun h => absurd h (by decide))
    · exact congrArg _ (refusal _ rfl (.inl rfl) fun _ h => absurd h (by decide))
  · exact congrArg _ (refusal _ rfl (.inr rfl) fun h => absurd h (by decide))
  · exact congrArg _ (refusal _ rfl (.inr rfl) fun _ _ => hpath)

/-- The kernel phase of a command that is no BLUR is the kernel write and then completion (R81, R131); the sequencer then
stays idle. -/
theorem advance_beginKernel {s : State} {n : Nat} (hn : 2 ≤ n) (hst : s.stalled = false) (hop : s.latch.op ≠ 3) :
    advance n (beginKernel s) = completeCommand (writeKernel (beginKernel s)) := by
  have hblur : (writeKernel (beginKernel s)).runsBlur = false := decide_eq_false hop
  have hwrite : (tick (beginKernel s)).1 = writeKernel (beginKernel s) := by simp [tick, hst]
  have hend : (tick (writeKernel (beginKernel s))).1 = completeCommand (writeKernel (beginKernel s)) := by
    simp [tick, endPhase, hst, hblur]
  obtain ⟨k, rfl⟩ := Nat.exists_eq_add_of_le hn
  rw [advance_add, advance, advance, advance, hwrite, hend]
  exact advance_idle k rfl

/-- Settles O16: the word is accepted, and the kernel phase is the kernel write and completion; with BUSY = 0 the invariant
leaves nothing of an earlier command that these would clear. -/
theorem kgenWritesKernel : Obligations.KgenWritesKernel := by
  intro s vw hinv hbusy hsigma hlead
  have hidle : s.phase = .idle := by simpa [State.busy] using hbusy
  obtain ⟨htodo, hraced, hbefore, hst⟩ := hinv.idle hidle
  obtain ⟨-, hop, hvw⟩ := kgen_fields vw
  have hrun : present (encode (.kgen vw)).2 _ s = _ :=
    (present_accepted (fun s => beginKernel (latchOperands (encode (.kgen vw)).2 s)) hbusy (validate_kgen vw hsigma)).trans
      (advance_beginKernel (s := latchOperands (encode (.kgen vw)).2 s) hlead hst (by simp [latchOperands, hop]))
  refine (congrArg Host.Outcome.next hrun).trans (congrArg _ ?_)
  cases s
  subst hidle htodo hraced hbefore
  simp [completeCommand, endRaces, writeKernel, beginKernel, latchOperands, hop, hvw]

end Sys2Proof.Machine
end

section
/-! SUPPORT. The kernel as a vector (R83, R86): the weight at each place, its symmetry, and the identity kernels of the
small sigmas (R87). -/
namespace Sys2Proof.Machine

/-- Weight `i` of a kernel is the weight at distance `|3 - i|` (R83). -/
theorem kernelOf_get (sigma : Word) (i : Fin 7) :
    (kernelOf sigma)[i] = Weight.atDistance sigma (3 - (i.val : Int)).natAbs := by
  fin_cases i <;> rfl

/-- Settles O17: places `i` and `6 - i` have the same distance, and no weight exceeds 1.0. -/
theorem kernelIsSymmetricInUnit : Obligations.KernelIsSymmetricInUnit := by
  refine fun sigma => ⟨kernelOf_in_unit sigma, fun i j hij => ?_⟩
  rw [kernelOf_get, kernelOf_get, show (3 - (j.val : Int)).natAbs = (3 - (i.val : Int)).natAbs by omega]

/-- The kernel of a tiny sigma is the identity (R87). -/
theorem kernelOf_tiny {sigma : Word} (h : Weight.tiny (F32.magnitude sigma) = true) :
    kernelOf sigma = #v[0, 0, 0, 0x3F800000, 0, 0, 0] := by
  simp [kernelOf, Weight.atDistance, Weight.bits, h, Weight.one]

/-- A word up to the first of the binade of the last place 2^k has at most that one's magnitude (R14). -/
theorem F32.magnitude_le_of_le {w : Word} {k : Nat} (h : w.toNat % 2 ^ 31 ≤ (k + 1) * 2 ^ 23) :
    F32.magnitude w ≤ 2 ^ 23 * 2 ^ k := by
  have hf : F32.fraction w < 2 ^ 23 := Nat.mod_lt _ (by decide)
  unfold F32.magnitude
  split_ifs with h0
  · exact hf.le.trans (Nat.le_mul_of_pos_right _ (by positivity))
  have hcases : F32.expField w = k + 1 ∧ F32.fraction w = 0 ∨ F32.expField w ≤ k := by
    unfold F32.expField F32.fraction; omega
  rcases hcases with ⟨hexp, hfrac⟩ | hexp
  · rw [hexp, hfrac]; rfl
  · calc (2 ^ 23 + F32.fraction w) * 2 ^ (F32.expField w - 1)
        ≤ 2 ^ 24 * 2 ^ (k - 1) := Nat.mul_le_mul (by omega) (Nat.pow_le_pow_right (by decide) (by omega))
      _ = 2 ^ 23 * 2 ^ k := by rw [← pow_add, ← pow_add]; congr 1; omega

/-- Settles O20: up to 0x3D800000, which is 123 * 2^23, sigma is at most 2^145 units, which is 1/16. -/
theorem smallSigmaKernelIsIdentity : Obligations.SmallSigmaKernelIsIdentity :=
  fun sigma _ h =>
  kernelOf_tiny (decide_eq_true (F32.magnitude_le_of_le (w := sigma) (k := 122) (by omega)))

/-- A legal sigma is at least one unit of 2^-149 (R14, R82). -/
theorem magnitude_ne_zero {sigma : Word} (h : legalSigma sigma = true) : F32.magnitude sigma ≠ 0 := by
  obtain ⟨hpos, hfin⟩ := legalSigma_iff.1 h
  unfold F32.magnitude F32.expField F32.fraction
  split_ifs with h0
  · omega
  · positivity

end Sys2Proof.Machine
end

section
/-! SUPPORT. The integer enclosure of a weight (R83, log 5): the Taylor sums and the squarings bound `E = exp(1 / (2 s^2))`
from both sides, and a weight is `numerator / denominator` at `E`. -/
namespace Sys2Proof.Machine

/-- The scale `2^prec` as a real number, opaque to the arithmetic of the proofs below. -/
@[irreducible] noncomputable def Weight.scale : ℝ := 2 ^ Weight.prec

/-- The scale of the model's integers is this one. -/
theorem Weight.cast_scale : ((2 ^ Weight.prec : Nat) : ℝ) = Weight.scale := by rw [Weight.scale]; push_cast; rfl

/-- The scale is positive. -/
theorem Weight.scale_pos : 0 < Weight.scale := by rw [Weight.scale]; exact pow_pos two_pos _

/-- Term `j` of the exponential series at `x`, scaled. -/
noncomputable def Weight.term (x : ℝ) (j : Nat) : ℝ := Weight.scale * (x ^ j / j.factorial)

/-- Each term from the one before it, as the model computes it. -/
theorem Weight.term_succ (x : ℝ) (j : Nat) :
    Weight.term x (j + 1) = Weight.term x j * (Weight.scale * x) / ((j + 1) * Weight.scale) := by
  have hscale := Weight.scale_pos.ne'
  rw [Weight.term, Weight.term, Nat.factorial_succ, pow_succ]
  push_cast
  field_simp

/-- A partial sum of the series is below the exponential. -/
theorem Weight.sum_term_le {x : ℝ} (hx : 0 ≤ x) (j : Nat) :
    ∑ k ∈ Finset.range j, Weight.term x k ≤ Weight.scale * Real.exp x := by
  simp only [Weight.term, ← Finset.mul_sum]
  exact mul_le_mul_of_nonneg_left (Real.sum_le_exp_of_nonneg hx j) Weight.scale_pos.le

/-- Up to 1, the rest of the series is at most twice its first term. -/
theorem Weight.le_sum_term {x : ℝ} (hx0 : 0 ≤ x) (hx1 : x ≤ 1) {j : Nat} (hj : 0 < j) :
    Weight.scale * Real.exp x ≤ ∑ k ∈ Finset.range j, Weight.term x k + 2 * Weight.term x j := by
  have hj' : (1 : ℝ) ≤ j := by exact_mod_cast hj
  have hrest : x ^ j * (j + 1) / (j.factorial * j) ≤ 2 * (x ^ j / j.factorial) := by
    rw [mul_div_mul_comm, mul_comm 2]
    refine mul_le_mul_of_nonneg_left ?_ (by positivity)
    rw [div_le_iff₀ (by positivity)]
    linarith
  have hexp := (Real.exp_bound' hx0 hx1 hj).trans (add_le_add_right hrest _)
  simp only [Weight.term, ← Finset.mul_sum]
  linarith [mul_le_mul_of_nonneg_left hexp Weight.scale_pos.le]

/-- A quotient is below the next integer after the rounded one. -/
theorem cast_div_le_succ (a b : Nat) : (a : ℝ) / b ≤ ((a / b + 1 : Nat) : ℝ) := by
  rw [← Nat.floor_div_eq_div (K := ℝ), Nat.cast_add_one]
  exact (Nat.lt_floor_add_one _).le

/-- From term `j` on, where `t` is at most that term, the lower sum and the terms before it stay below the exponential. -/
theorem Weight.taylorLower_le {z n j t : Nat} {x : ℝ} (hx0 : 0 ≤ x) (hx : z ≤ Weight.scale * x)
    (ht : t ≤ Weight.term x j) :
    ∑ k ∈ Finset.range j, Weight.term x k + Weight.taylorLower z n j t ≤ Weight.scale * Real.exp x := by
  have hscale := Weight.scale_pos
  induction n generalizing j t with
  | zero => simpa [Weight.taylorLower] using Weight.sum_term_le hx0 j
  | succ n ih =>
    have hnext : ((t * z / ((j + 1) * 2 ^ Weight.prec) : Nat) : ℝ) ≤ Weight.term x (j + 1) := by
      refine Nat.cast_div_le.trans ?_
      rw [Weight.term_succ, Nat.cast_mul, Nat.cast_mul, Weight.cast_scale, Nat.cast_add_one]
      gcongr
      exact t.cast_nonneg.trans ht
    have hrest := ih hnext
    rw [Finset.sum_range_succ] at hrest
    rw [Weight.taylorLower, Nat.cast_add]
    linarith

/-- From term `j` on, where `t` is at least that term, the upper sum and the terms before it stay above the exponential. -/
theorem Weight.le_taylorUpper {z n j t : Nat} {x : ℝ} (hx0 : 0 ≤ x) (hx1 : x ≤ 1) (hx : Weight.scale * x ≤ z)
    (hn : 0 < j + n) (ht : Weight.term x j ≤ t) :
    Weight.scale * Real.exp x ≤ ∑ k ∈ Finset.range j, Weight.term x k + Weight.taylorUpper z n j t := by
  have hscale := Weight.scale_pos
  induction n generalizing j t with
  | zero =>
    rw [Weight.taylorUpper, Nat.cast_mul, Nat.cast_two]
    have hsum := Weight.le_sum_term hx0 hx1 (j := j) hn
    linarith
  | succ n ih =>
    have hnext : Weight.term x (j + 1) ≤ ((t * z / ((j + 1) * 2 ^ Weight.prec) + 1 : Nat) : ℝ) := by
      refine le_trans ?_ (cast_div_le_succ _ _)
      rw [Weight.term_succ, Nat.cast_mul, Nat.cast_mul, Weight.cast_scale, Nat.cast_add_one]
      gcongr
    have hrest := ih (by omega) hnext
    rw [Finset.sum_range_succ] at hrest
    rw [Weight.taylorUpper, Nat.cast_add]
    linarith

/-- Squaring rounded down keeps a lower bound. -/
theorem Weight.squareLower_le {n a : Nat} {y : ℝ} (h : a ≤ Weight.scale * y) :
    Weight.squareLower n a ≤ Weight.scale * y ^ 2 ^ n := by
  have hscale := Weight.scale_pos
  induction n generalizing a y with
  | zero => simpa [Weight.squareLower] using h
  | succ n ih =>
    rw [Weight.squareLower, pow_succ', pow_mul]
    refine ih (Nat.cast_div_le.trans ?_)
    rw [Nat.cast_mul, Weight.cast_scale, div_le_iff₀ hscale]
    linarith [mul_self_le_mul_self a.cast_nonneg h]

/-- Squaring rounded up keeps an upper bound. -/
theorem Weight.le_squareUpper {n a : Nat} {y : ℝ} (hy : 0 ≤ y) (h : Weight.scale * y ≤ a) :
    Weight.scale * y ^ 2 ^ n ≤ Weight.squareUpper n a := by
  have hscale := Weight.scale_pos
  induction n generalizing a y with
  | zero => simpa [Weight.squareUpper] using h
  | succ n ih =>
    rw [Weight.squareUpper, pow_succ', pow_mul]
    refine ih (by positivity) (le_trans ?_ (cast_div_le_succ _ _))
    rw [Nat.cast_mul, Weight.cast_scale, le_div_iff₀ hscale]
    linarith [mul_self_le_mul_self (mul_nonneg hscale.le hy) h]

/-- `z`, the argument of the exponential after the halvings. -/
noncomputable def Weight.halved (u : Nat) : ℝ := ((Weight.exponent u : ℚ) : ℝ) / 2 ^ Weight.halvings

/-- `z` is not negative. -/
theorem Weight.halved_nonneg (u : Nat) : 0 ≤ Weight.halved u :=
  div_nonneg (by exact_mod_cast Weight.exponent_nonneg u) (by positivity)

/-- The exponential at `z`, squared for each halving, is `E = 1 / G(1)`. -/
theorem Weight.exp_halved_pow (u : Nat) : Real.exp (Weight.halved u) ^ 2 ^ Weight.halvings = (Weight.gauss u)⁻¹ := by
  rw [← Real.exp_nat_mul, Weight.gauss, ← Real.exp_neg, neg_neg, Weight.halved]
  congr 1
  push_cast
  field_simp

/-- The argument of the lower sum is a lower bound of `z`, and the one of the upper sum an upper bound. -/
theorem Weight.argument_bounds (u : Nat) :
    Weight.argument u ≤ Weight.scale * Weight.halved u ∧
      Weight.scale * Weight.halved u ≤ ((Weight.argument u + 1 : Nat) : ℝ) := by
  have hhalve : (2 : ℝ) ^ (297 - Weight.halvings) * 2 ^ Weight.halvings = 2 ^ 297 := pow_sub_mul_pow 2 (by decide)
  have hquot : Weight.scale * Weight.halved u =
      ((2 ^ (297 - Weight.halvings + Weight.prec) : Nat) : ℝ) / ((u * u : Nat) : ℝ) := by
    rw [pow_add, Nat.cast_mul, Weight.cast_scale, Weight.halved, Weight.exponent]
    push_cast
    rw [← hhalve]
    field_simp
  rw [hquot]
  exact ⟨Nat.cast_div_le, cast_div_le_succ _ _⟩

/-- The first term is the scale. -/
theorem Weight.term_zero (x : ℝ) : Weight.term x 0 = ((2 ^ Weight.prec : Nat) : ℝ) := by
  rw [Weight.cast_scale, Weight.term]; simp

/-- `expLower` is a lower bound of `E`. -/
theorem Weight.expLower_le (u : Nat) : Weight.expLower u ≤ Weight.scale * (Weight.gauss u)⁻¹ := by
  have htaylor := Weight.taylorLower_le (n := Weight.terms) (j := 0) (Weight.halved_nonneg u)
    (Weight.argument_bounds u).1 (Weight.term_zero _).ge
  rw [Finset.sum_range_zero, zero_add] at htaylor
  rw [← Weight.exp_halved_pow]
  exact Weight.squareLower_le htaylor

/-- `expUpper` is an upper bound of `E` for a sigma that is not tiny: then `z` is at most 1. -/
theorem Weight.le_expUpper {u : Nat} (h : Weight.tiny u = false) :
    Weight.scale * (Weight.gauss u)⁻¹ ≤ Weight.expUpper u := by
  have hu : (2 : ℝ) ^ 145 ≤ u := by exact_mod_cast (not_le.1 (of_decide_eq_false h)).le
  have hhalved : Weight.halved u ≤ 1 := by
    rw [Weight.halved, div_le_one (by positivity), Weight.exponent]
    push_cast
    rw [div_le_iff₀ (by positivity)]
    calc (2 : ℝ) ^ 297 = 2 ^ 7 * (2 ^ 145) ^ 2 := by rw [← pow_mul, ← pow_add]
      _ ≤ 2 ^ Weight.halvings * (u : ℝ) ^ 2 := by gcongr <;> norm_num [Weight.halvings]
  have htaylor := Weight.le_taylorUpper (n := Weight.terms) (j := 0) (Weight.halved_nonneg u) hhalved
    (Weight.argument_bounds u).2 (by decide) (Weight.term_zero _).le
  rw [Finset.sum_range_zero, zero_add] at htaylor
  rw [← Weight.exp_halved_pow]
  exact Weight.le_squareUpper (Real.exp_pos _).le htaylor

/-- `numerator` at a real bound of `E`. -/
noncomputable def Weight.realNumerator (e : ℝ) (d : Nat) : ℝ := e ^ (9 - d * d) * Weight.scale ^ (d * d)

/-- `denominator` at a real bound of `E`. -/
noncomputable def Weight.realDenominator (e : ℝ) : ℝ :=
  Weight.realNumerator e 0 +
    2 * (Weight.realNumerator e 1 + Weight.realNumerator e 2 + Weight.realNumerator e 3)

/-- The real numerator is the model's at an integer. -/
theorem Weight.cast_numerator (e d : Nat) : (Weight.numerator e d : ℝ) = Weight.realNumerator e d := by
  rw [Weight.numerator, Weight.realNumerator, pow_mul, Nat.cast_mul, Nat.cast_pow, Nat.cast_pow, Weight.cast_scale]

/-- The real denominator is the model's at an integer. -/
theorem Weight.cast_denominator (e : Nat) : (Weight.denominator e : ℝ) = Weight.realDenominator e := by
  rw [Weight.denominator, Weight.realDenominator]
  push_cast
  simp only [Weight.cast_numerator]

/-- The numerator grows with the bound of `E`. -/
theorem Weight.realNumerator_mono {e e' : ℝ} (he : 0 ≤ e) (hle : e ≤ e') (d : Nat) :
    Weight.realNumerator e d ≤ Weight.realNumerator e' d :=
  mul_le_mul_of_nonneg_right (pow_le_pow_left₀ he hle _) (pow_nonneg Weight.scale_pos.le _)

/-- The denominator grows with the bound of `E`. -/
theorem Weight.realDenominator_mono {e e' : ℝ} (he : 0 ≤ e) (hle : e ≤ e') :
    Weight.realDenominator e ≤ Weight.realDenominator e' := by
  have hmono := Weight.realNumerator_mono he hle
  unfold Weight.realDenominator
  linarith [hmono 0, hmono 1, hmono 2, hmono 3]

/-- No numerator is negative. -/
theorem Weight.realNumerator_nonneg {e : ℝ} (he : 0 ≤ e) (d : Nat) : 0 ≤ Weight.realNumerator e d :=
  mul_nonneg (pow_nonneg he _) (pow_nonneg Weight.scale_pos.le _)

/-- A denominator is positive: its summand at distance 3 has no factor `e`. -/
theorem Weight.realDenominator_pos {e : ℝ} (he : 0 ≤ e) : 0 < Weight.realDenominator e := by
  have hnonneg := Weight.realNumerator_nonneg he
  have hthree : 0 < Weight.realNumerator e 3 := by
    rw [Weight.realNumerator, pow_zero, one_mul]
    exact pow_pos Weight.scale_pos _
  unfold Weight.realDenominator
  linarith [hnonneg 0, hnonneg 1, hnonneg 2]

/-- A weight grows with the numerator's bound of `E` and falls with the denominator's. -/
theorem Weight.quotient_mono {a b e f : ℝ} (ha : 0 ≤ a) (hab : a ≤ b) (he : 0 ≤ e) (hef : e ≤ f) (d : Nat) :
    Weight.realNumerator a d / Weight.realDenominator f ≤ Weight.realNumerator b d / Weight.realDenominator e :=
  div_le_div₀ (Weight.realNumerator_nonneg (ha.trans hab) d) (Weight.realNumerator_mono ha hab d)
    (Weight.realDenominator_pos he) (Weight.realDenominator_mono he hef)

/-- At `E` itself the numerator is `E^9 G(d)`, up to the scale. -/
theorem Weight.realNumerator_exp (u : Nat) {d : Nat} (hd : d ≤ 3) :
    Weight.realNumerator (Weight.scale * (Weight.gauss u)⁻¹) d =
      (Weight.scale * (Weight.gauss u)⁻¹) ^ 9 * Weight.gauss u ^ (d * d) := by
  have hgauss := (Weight.gauss_pos u).ne'
  have hsq : d * d ≤ 9 := Nat.mul_le_mul hd hd
  rw [Weight.realNumerator, ← pow_sub_mul_pow _ hsq, mul_assoc, ← mul_pow, mul_assoc, inv_mul_cancel₀ hgauss, mul_one]

/-- At `E` itself the quotient is the exact weight (R83). -/
theorem Weight.quotient_exp (u : Nat) {d : Nat} (hd : d ≤ 3) :
    Weight.realNumerator (Weight.scale * (Weight.gauss u)⁻¹) d /
      Weight.realDenominator (Weight.scale * (Weight.gauss u)⁻¹) = Weight.exact u d := by
  have hfactor : (Weight.scale * (Weight.gauss u)⁻¹) ^ 9 ≠ 0 :=
    pow_ne_zero _ (mul_ne_zero Weight.scale_pos.ne' (inv_ne_zero (Weight.gauss_pos u).ne'))
  rw [Weight.realDenominator, Weight.realNumerator_exp u hd, Weight.realNumerator_exp u (by decide : 0 ≤ 3),
    Weight.realNumerator_exp u (by decide : 1 ≤ 3), Weight.realNumerator_exp u (by decide : 2 ≤ 3),
    Weight.realNumerator_exp u le_rfl, ← mul_add, ← mul_add, mul_left_comm, ← mul_add, mul_div_mul_left _ _ hfactor,
    Weight.exact]
  norm_num

/-- The enclosure of a sigma that is not tiny holds the exact weight (log 5). -/
theorem Weight.exact_enclosed {u d : Nat} (h : Weight.tiny u = false) (hd : d ≤ 3) :
    (Weight.numerator (Weight.expLower u) d : ℝ) / Weight.denominator (Weight.expUpper u) ≤ Weight.exact u d ∧
      Weight.exact u d ≤ (Weight.numerator (Weight.expUpper u) d : ℝ) / Weight.denominator (Weight.expLower u) := by
  have hlower := Weight.expLower_le u
  have hupper := Weight.le_expUpper h
  have hpos : 0 ≤ Weight.scale * (Weight.gauss u)⁻¹ := (Nat.cast_nonneg _).trans hlower
  rw [← Weight.quotient_exp u hd]
  simp only [Weight.cast_numerator, Weight.cast_denominator]
  exact ⟨Weight.quotient_mono (Nat.cast_nonneg _) hlower hpos hupper d,
    Weight.quotient_mono hpos hupper (Nat.cast_nonneg _) hlower d⟩

/-- `G(d)` of R83 is `G(1)^(d^2)`. -/
theorem Weight.exp_eq_gauss_pow (u d : Nat) :
    Real.exp (-((d : ℝ) ^ 2) / (2 * ((u : ℝ) / 2 ^ 149) ^ 2)) = Weight.gauss u ^ (d * d) := by
  have hunits : (2 : ℝ) ^ 297 = (2 ^ 149) ^ 2 / 2 := by rw [eq_div_iff two_ne_zero, ← pow_succ, ← pow_mul]
  rw [Weight.gauss, ← Real.exp_nat_mul, Weight.exponent]
  congr 1
  push_cast
  rw [hunits]
  ring

/-- The exact weight as R83 writes it. -/
theorem Weight.exact_eq (u d : Nat) (G : ℕ → ℝ)
    (hG : ∀ x, G x = Real.exp (-((x : ℝ) ^ 2) / (2 * ((u : ℝ) / 2 ^ 149) ^ 2))) :
    G d / (G 0 + 2 * (G 1 + G 2 + G 3)) = Weight.exact u d := by
  simp only [hG, Weight.exp_eq_gauss_pow, Weight.exact]
  norm_num

/-- Settles O18: the bounds of `E` enclose the weight, which is `numerator / denominator` at `E`. -/
theorem enclosureHoldsExactWeight : Obligations.EnclosureHoldsExactWeight := by
  intro sigma d hlegal htiny hd
  dsimp only
  rw [Weight.exact_eq (F32.magnitude sigma) d _ fun _ => rfl]
  exact Weight.exact_enclosed htiny hd

end Sys2Proof.Machine
end

section
/-! SUPPORT. The binary32 value nearest to a real number (R14): what `roundMagnitude` answers below 2^150 units is nearest to
its quotient, and what is nearest to both ends of an interval is nearest to all of it. -/
namespace Sys2Proof.Machine

/-- `w` is finite, and no finite value is nearer to `x` units of 2^-149; were another as near, the fraction of `w` is even
(R14). -/
def F32.NearestTo (w : Word) (x : ℝ) : Prop :=
  F32.expField w < 255 ∧
    ∀ v : Word, F32.expField v < 255 →
      |((F32.units w : ℤ) : ℝ) - x| ≤ |((F32.units v : ℤ) : ℝ) - x| ∧
        (|((F32.units w : ℤ) : ℝ) - x| = |((F32.units v : ℤ) : ℝ) - x| →
          F32.units v ≠ F32.units w → F32.fraction w % 2 = 0)

/-- The lower of two numbers is the nearer one to `x` up to their midpoint. -/
theorem abs_sub_le_abs_sub_iff_of_lt {p q : ℝ} (h : p < q) (x : ℝ) : |p - x| ≤ |q - x| ↔ 2 * x ≤ p + q := by
  have hfactor : (q - x) ^ 2 - (p - x) ^ 2 = (q - p) * (p + q - 2 * x) := by ring
  rw [← sq_le_sq, ← sub_nonneg, hfactor, mul_nonneg_iff_of_pos_left (sub_pos.2 h), sub_nonneg]

/-- The lower of two numbers, if it is the nearer one to `b`, is so to all `x` up to `b`, and strictly below `b`. -/
theorem nearer_below {p q b x : ℝ} (hpq : p < q) (hb : |p - b| ≤ |q - b|) (hxb : x ≤ b) :
    |p - x| ≤ |q - x| ∧ (|p - x| = |q - x| → x = b) := by
  rw [abs_sub_le_abs_sub_iff_of_lt hpq] at hb
  refine ⟨(abs_sub_le_abs_sub_iff_of_lt hpq x).2 (by linarith), fun heq => ?_⟩
  rcases abs_eq_abs.1 heq with heq | heq <;> linarith

/-- The higher of two numbers, if it is the nearer one to `a`, is so to all `x` from `a` on, and strictly above `a`. -/
theorem nearer_above {p q a x : ℝ} (hqp : q < p) (ha : |p - a| ≤ |q - a|) (hax : a ≤ x) :
    |p - x| ≤ |q - x| ∧ (|p - x| = |q - x| → x = a) := by
  have mirror (r y : ℝ) : |r - y| = |-r - -y| := by rw [← abs_neg, neg_sub, sub_neg_eq_add, add_comm, ← sub_eq_add_neg]
  rw [mirror p, mirror q] at ha ⊢
  rw [← neg_inj (a := x)]
  exact nearer_below (neg_lt_neg hqp) ha (neg_le_neg hax)

/-- What is nearest to both ends of an interval is nearest to every number in it. -/
theorem F32.NearestTo.between {w : Word} {a b x : ℝ} (ha : F32.NearestTo w a) (hb : F32.NearestTo w b) (hax : a ≤ x)
    (hxb : x ≤ b) : F32.NearestTo w x := by
  obtain ⟨hfinite, ha⟩ := ha
  refine ⟨hfinite, fun v hv => ?_⟩
  obtain ⟨hnearA, htieA⟩ := ha v hv
  obtain ⟨hnearB, htieB⟩ := hb.2 v hv
  rcases lt_trichotomy ((F32.units w : ℤ) : ℝ) (F32.units v : ℤ) with hlt | heq | hgt
  · obtain ⟨hnear, htie⟩ := nearer_below hlt hnearB hxb
    exact ⟨hnear, fun h => by obtain rfl := htie h; exact htieB h⟩
  · exact ⟨by rw [heq], fun _ hne => absurd (Int.cast_injective heq).symm hne⟩
  · obtain ⟨hnear, htie⟩ := nearer_above hgt hnearA hax
    exact ⟨hnear, fun h => by obtain rfl := htie h; exact htieA h⟩

/-- A lower bound of the last place in which a value is rounded. -/
theorem F32.le_lastPlace_of_le {num den k : Nat} (hd : 0 < den) (h : 2 ^ (k + 23) * den ≤ num) :
    k ≤ F32.lastPlace num den := by
  by_contra! hlt
  have hlog := F32.lt_binade_top num hd
  refine h.not_gt (hlog.trans_le ?_)
  calc 2 ^ 24 * (den * 2 ^ F32.lastPlace num den) ≤ 2 ^ 24 * (den * 2 ^ (k - 1)) := by gcongr <;> omega
    _ = 2 ^ (k - 1 + 24) * den := by ring
    _ = 2 ^ (k + 23) * den := by rw [show k - 1 + 24 = k + 23 by omega]

/-- A value up to 1.0 is rounded to at most 1.0. -/
theorem F32.roundMagnitude_le_one {num den : Nat} (hd : 0 < den) (h : num ≤ 2 ^ 149 * den) :
    F32.roundMagnitude num den ≤ Weight.one := by
  have hplace : F32.lastPlace num den ≤ 126 := F32.lastPlace_le_of_lt (by omega)
  rw [F32.roundMagnitude_eq, Weight.one]
  refine (min_le_left _ _).trans ?_
  rcases hplace.lt_or_eq with hlt | heq
  · have hq := F32.significand_le num hd
    omega
  · have hq : F32.significand num den < 2 ^ 23 + 1 := by
      unfold F32.significand
      rw [heq]
      exact roundHalfEven_lt (by positivity) (by omega)
    omega

/-- Only a value below 2.0 is rounded to at most 1.0. -/
theorem F32.lt_of_roundMagnitude_le_one {num den : Nat} (hd : 0 < den) (h : F32.roundMagnitude num den ≤ Weight.one) :
    num < 2 ^ 150 * den := by
  by_contra! hle
  have hplace : 127 ≤ F32.lastPlace num den := F32.le_lastPlace_of_le hd hle
  have hfull := F32.lastPlace_eq_zero_or_significand_full num hd
  rw [F32.roundMagnitude_eq, Weight.one] at h
  omega

/-- What a quotient is rounded to, where that is at most 1.0, is nearest to it. -/
theorem F32.roundMagnitude_nearestTo {num den : Nat} (hd : 0 < den) (h : F32.roundMagnitude num den ≤ Weight.one) :
    F32.NearestTo (BitVec.ofNat 32 (F32.roundMagnitude num den)) (num / den) := by
  have hbound : 2 * (num : Int).natAbs < (2 ^ 25 - 1) * 2 ^ 253 * den := by
    have := F32.lt_of_roundMagnitude_le_one hd h
    rw [Int.natAbs_natCast]
    omega
  have hword : F32.rn32 num den = BitVec.ofNat 32 (F32.roundMagnitude num den) := by
    rw [F32.rn32, Int.natAbs_natCast, if_neg (by omega), Nat.add_zero]
  rw [← hword]
  have hden : (0 : ℝ) < den := by exact_mod_cast hd
  have scaled (U : Int) : |(U : ℝ) - num / den| = (|U * den - num| : Int) / (den : ℝ) := by
    rw [Int.cast_abs, ← abs_of_pos hden, ← abs_div, abs_of_pos hden]
    push_cast
    field_simp
  refine ⟨F32.expField_rn32_lt hd hbound, fun v _ => ?_⟩
  obtain ⟨hnear, htie⟩ := F32.rn32_nearest hd hbound v
  rw [scaled, scaled, div_le_div_iff_of_pos_right hden, div_left_inj' hden.ne', Int.cast_le, Int.cast_inj]
  exact ⟨hnear, htie⟩

/-- 1.0 is nearest to itself. -/
theorem F32.one_nearestTo : F32.NearestTo (BitVec.ofNat 32 Weight.one) (2 ^ 149) := by
  have hround : F32.roundMagnitude (2 ^ 149) 1 = Weight.one := by decide +kernel
  have hnear := F32.roundMagnitude_nearestTo one_pos hround.le
  rwa [hround, Nat.cast_pow, Nat.cast_ofNat, Nat.cast_one, div_one] at hnear

/-- A number up to 1.0 between two quotients that are rounded alike, drawn down to 1.0 where they exceed it, is nearest to
what they are rounded to. -/
theorem F32.nearestTo_of_ends {num den num' den' r : Nat} {x : ℝ} (hd : 0 < den) (hd' : 0 < den')
    (hlower : (num : ℝ) / den ≤ x) (hupper : x ≤ (num' : ℝ) / den') (hone : x ≤ 2 ^ 149)
    (hr : min Weight.one (F32.roundMagnitude num den) = r) (hr' : min Weight.one (F32.roundMagnitude num' den') = r) :
    F32.NearestTo (BitVec.ofNat 32 r) x := by
  have hle : F32.roundMagnitude num den ≤ Weight.one := by
    refine F32.roundMagnitude_le_one hd ?_
    have := (div_le_iff₀ (by exact_mod_cast hd)).1 (hlower.trans hone)
    exact_mod_cast this
  have hnear := F32.roundMagnitude_nearestTo hd hle
  rw [min_eq_right hle] at hr
  rw [hr] at hnear
  rcases le_total (F32.roundMagnitude num' den') Weight.one with hle' | hge'
  · have hnear' := F32.roundMagnitude_nearestTo hd' hle'
    rw [min_eq_right hle'] at hr'
    rw [hr'] at hnear'
    exact hnear.between hnear' hlower hupper
  · rw [min_eq_left hge'] at hr'
    subst hr'
    exact hnear.between F32.one_nearestTo hlower hone

end Sys2Proof.Machine
end

section
/-! SUPPORT. Each weight is the binary32 value nearest to the exact one (R83): of the identity kernels, where an end of an
explicit interval is enough, of the integer enclosure, and of the shrinking enclosures. -/
namespace Sys2Proof.Machine

/-- `G(1)` is at most 1. -/
theorem Weight.gauss_le_one (u : Nat) : Weight.gauss u ≤ 1 :=
  Real.exp_le_one_iff.2 (neg_nonpos.2 (by exact_mod_cast Weight.exponent_nonneg u))

/-- No weight exceeds `G(d)`, for `S` is at least 1. -/
theorem Weight.exact_le_gauss_pow (u d : Nat) : Weight.exact u d ≤ Weight.gauss u ^ (d * d) := by
  have hgauss := Weight.gauss_pos u
  exact div_le_self (by positivity) (le_add_of_nonneg_right (by positivity))

/-- No weight exceeds 1. -/
theorem Weight.exact_le_one (u d : Nat) : Weight.exact u d ≤ 1 :=
  (Weight.exact_le_gauss_pow u d).trans (pow_le_one₀ (Weight.gauss_pos u).le (Weight.gauss_le_one u))

/-- No weight is negative. -/
theorem Weight.exact_nonneg (u d : Nat) : 0 ≤ Weight.exact u d := by
  have hgauss := Weight.gauss_pos u
  unfold Weight.exact
  positivity

/-- In units of 2^-149 no weight exceeds that of 1.0. -/
theorem Weight.exact_units_le (u d : Nat) : 2 ^ 149 * Weight.exact u d ≤ 2 ^ 149 :=
  mul_le_of_le_one_right (by positivity) (Weight.exact_le_one u d)

/-- For a tiny sigma `G(1)` is below half a unit of 2^-149: `1 / (2 s^2)` is at least 128, and `e^128` exceeds 2^150. -/
theorem Weight.gauss_tiny {u : Nat} (hu : u ≠ 0) (h : Weight.tiny u = true) : 2 ^ 150 * Weight.gauss u ≤ 1 := by
  have hle : (u : ℝ) ≤ 2 ^ 145 := by exact_mod_cast of_decide_eq_true h
  have hpos : (0 : ℝ) < u := by exact_mod_cast Nat.pos_of_ne_zero hu
  have hexponent : (128 : ℝ) ≤ ((Weight.exponent u : ℚ) : ℝ) := by
    rw [Weight.exponent]
    push_cast
    rw [le_div_iff₀ (by positivity)]
    calc 128 * (u : ℝ) ^ 2 ≤ 128 * (2 ^ 145) ^ 2 := by gcongr
      _ = 2 ^ 297 := by rw [show (128 : ℝ) = 2 ^ 7 by norm_num, ← pow_mul, ← pow_add]
  have hlarge : (2 : ℝ) ^ 150 ≤ Real.exp ((Weight.exponent u : ℚ) : ℝ) := by
    calc (2 : ℝ) ^ 150 ≤ 2.7182818283 ^ 128 := by norm_num
      _ ≤ Real.exp 1 ^ 128 := pow_le_pow_left₀ (by norm_num) Real.exp_one_gt_d9.le _
      _ = Real.exp 128 := by rw [← Real.exp_nat_mul]; norm_num
      _ ≤ _ := Real.exp_le_exp.2 hexponent
  rw [Weight.gauss, Real.exp_neg]
  exact mul_inv_le_one_of_le₀ hlarge (Real.exp_pos _).le

/-- For a tiny sigma the weight at the centre is at least 1 - 2^-26 (R87). -/
theorem Weight.le_exact_tiny {u : Nat} (hu : u ≠ 0) (h : Weight.tiny u = true) :
    ((2 ^ 149 - 2 ^ 123 : Nat) : ℝ) ≤ 2 ^ 149 * Weight.exact u 0 := by
  have hgauss := Weight.gauss_tiny hu h
  have hpos := Weight.gauss_pos u
  have hfour : Weight.gauss u ^ 4 ≤ Weight.gauss u := pow_le_of_le_one hpos.le (Weight.gauss_le_one u) (by decide)
  have hnine : Weight.gauss u ^ 9 ≤ Weight.gauss u := pow_le_of_le_one hpos.le (Weight.gauss_le_one u) (by decide)
  rw [Weight.exact, pow_zero, ← mul_div_assoc, mul_one, le_div_iff₀ (by positivity)]
  norm_num at hgauss ⊢
  linarith

/-- For a tiny sigma the weight at each other distance is at most half a unit of 2^-149 (R87). -/
theorem Weight.exact_tiny_le {u d : Nat} (hu : u ≠ 0) (h : Weight.tiny u = true) (hd : d ≠ 0) :
    2 ^ 149 * Weight.exact u d ≤ 1 / 2 := by
  have hgauss := Weight.gauss_tiny hu h
  have hsq : d * d ≠ 0 := Nat.mul_ne_zero hd hd
  have hle := (Weight.exact_le_gauss_pow u d).trans
    (pow_le_of_le_one (Weight.gauss_pos u).le (Weight.gauss_le_one u) hsq)
  norm_num at hgauss ⊢
  linarith

/-- The weights of a tiny sigma are nearest to the exact ones: from 1 - 2^-26 on values are rounded to 1.0, and up to half a
unit to 0 (R87). -/
theorem Weight.bits_nearest_of_tiny {u : Nat} (hu : u ≠ 0) (h : Weight.tiny u = true) (d : Nat) :
    F32.NearestTo (BitVec.ofNat 32 (Weight.bits u d)) (2 ^ 149 * Weight.exact u d) := by
  have hone := Weight.exact_units_le u d
  rw [Weight.bits, dif_pos h]
  split_ifs with hd
  · subst hd
    exact F32.nearestTo_of_ends (num := 2 ^ 149 - 2 ^ 123) (den := 1) (num' := 2 ^ 149) (den' := 1) one_pos one_pos
      (by simpa only [Nat.cast_one, div_one] using Weight.le_exact_tiny hu h)
      (by simpa only [Nat.cast_one, div_one, Nat.cast_pow, Nat.cast_ofNat] using hone) hone
      (by decide +kernel) (by decide +kernel)
  · exact F32.nearestTo_of_ends (num := 0) (den := 1) (num' := 1) (den' := 2) one_pos two_pos
      (by simpa using Weight.exact_nonneg u d)
      (by simpa only [Nat.cast_one, Nat.cast_ofNat] using Weight.exact_tiny_le hu h hd) hone
      (by decide +kernel) (by decide +kernel)

/-- A rational that is not negative is the quotient that `roundRational` rounds, in units of 2^-149. -/
theorem Weight.quotient_units {q : ℚ} (hq : 0 ≤ q) :
    (((q * 2 ^ 149).num.toNat : Nat) : ℝ) / ((q * 2 ^ 149).den : Nat) = 2 ^ 149 * (q : ℝ) := by
  have hnum : (((q * 2 ^ 149).num.toNat : Nat) : ℝ) = ((q * 2 ^ 149).num : ℝ) := by
    exact_mod_cast Int.toNat_of_nonneg (Rat.num_nonneg.2 (by positivity))
  rw [hnum, ← Rat.cast_def, Rat.cast_mul, mul_comm]
  norm_num

/-- No end of a shrinking enclosure is negative. -/
theorem Weight.ends_nonneg (u d n : Nat) : 0 ≤ Weight.below u d n ∧ 0 ≤ Weight.above u d n := by
  have hlower : 0 ≤ Weight.gaussLower u n := by exact_mod_cast (Weight.gauss_between u n).1
  have hupper : 0 ≤ Weight.gaussUpper u n := by
    exact_mod_cast (Weight.gauss_pos u).le.trans (Weight.gauss_between u n).2.2
  unfold Weight.below Weight.above Weight.share
  constructor <;> positivity

/-- A denominator is positive. -/
theorem Weight.denominator_pos (e : Nat) : 0 < Weight.denominator e := by
  have := Weight.realDenominator_pos (e := e) (Nat.cast_nonneg _)
  rw [← Weight.cast_denominator] at this
  exact_mod_cast this

/-- Units of 2^-149 keep the order. -/
theorem Weight.units_mono {a b : ℝ} (h : a ≤ b) : 2 ^ 149 * a ≤ 2 ^ 149 * b := mul_le_mul_of_nonneg_left h (by positivity)

/-- Where the ends of the integer enclosure round alike, they round to the nearest value (log 5). -/
theorem Weight.lowerEnd_nearest {u d : Nat} (h : Weight.tiny u = false) (hd : d ≤ 3)
    (hends : Weight.lowerEnd u d = Weight.upperEnd u d) :
    F32.NearestTo (BitVec.ofNat 32 (Weight.lowerEnd u d)) (2 ^ 149 * Weight.exact u d) := by
  obtain ⟨hlower, hupper⟩ := Weight.exact_enclosed h hd
  have quotient (num den : Nat) : ((num * 2 ^ 149 : Nat) : ℝ) / den = 2 ^ 149 * ((num : ℝ) / den) := by
    rw [Nat.cast_mul, Nat.cast_pow, Nat.cast_ofNat, mul_comm, mul_div_assoc]
  refine F32.nearestTo_of_ends (Weight.denominator_pos _) (Weight.denominator_pos _) ?_ ?_ (Weight.exact_units_le u d)
    rfl hends.symm
  · exact (quotient _ _).trans_le (Weight.units_mono hlower)
  · exact (Weight.units_mono hupper).trans_eq (quotient _ _).symm

/-- Where the ends of a shrinking enclosure round alike, they round to the nearest value (log 5). -/
theorem Weight.below_nearest {u d n : Nat} (h : Weight.Settled u d n) :
    F32.NearestTo (BitVec.ofNat 32 (min Weight.one (Weight.roundRational (Weight.below u d n))))
      (2 ^ 149 * Weight.exact u d) := by
  obtain ⟨hlower, hupper⟩ := Weight.exact_between u d n
  obtain ⟨hbelow, habove⟩ := Weight.ends_nonneg u d n
  refine F32.nearestTo_of_ends (Rat.den_pos _) (Rat.den_pos _) ?_ ?_ (Weight.exact_units_le u d)
    rfl (congrArg (min Weight.one) h.symm)
  · exact (Weight.quotient_units hbelow).trans_le (Weight.units_mono hlower)
  · exact (Weight.units_mono hupper).trans_eq (Weight.quotient_units habove).symm

/-- Every weight of the model is nearest to the exact one (R83). -/
theorem Weight.bits_nearest {u d : Nat} (hu : u ≠ 0) (hd : d ≤ 3) :
    F32.NearestTo (BitVec.ofNat 32 (Weight.bits u d)) (2 ^ 149 * Weight.exact u d) := by
  by_cases htiny : Weight.tiny u = true
  · exact Weight.bits_nearest_of_tiny hu htiny d
  rw [Weight.bits, dif_neg htiny]
  split_ifs with hends
  · exact Weight.lowerEnd_nearest (Bool.eq_false_iff.2 htiny) hd hends
  · exact Weight.below_nearest (Nat.find_spec (Weight.settles hu d))

/-- Settles O19: the weight at distance `|3 - i|` is nearest to the exact one of that distance. -/
theorem weightIsNearest : Obligations.WeightIsNearest := by
  intro sigma i hlegal
  dsimp only
  have hdistance : |3 - (i.val : ℝ)| = ((3 - (i.val : Int)).natAbs : ℝ) := by rw [Nat.cast_natAbs]; push_cast; rfl
  have hexact := Weight.exact_eq (F32.magnitude sigma) (3 - (i.val : Int)).natAbs _ fun _ => rfl
  simp only [Nat.cast_zero, Nat.cast_one, Nat.cast_ofNat] at hexact
  rw [hdistance, hexact, kernelOf_get]
  exact Weight.bits_nearest (magnitude_ne_zero hlegal) (by omega)

end Sys2Proof.Machine
end

section
/-! SUPPORT. Where the taps of an output are read (R94 to R98, R109): the border test, the two mirror rules, and the one
tap that the legacy test leaves outside its row. -/
namespace Sys2Proof.Machine

/-! The border test. -/

/-- The border test of R95, under RB_LEGACY with `>` in place of `>=`. -/
theorem isBorder_iff {inst : Params} {w c : Nat} :
    isBorder inst w c = true ↔ c < 3 ∨ if inst.rbLegacy = true then w < c + 3 else w ≤ c + 3 := by
  unfold isBorder
  cases inst.rbLegacy <;> simp

/-- The tap's column before mirroring lies outside the row (R95, R98). -/
abbrev TapOutside (w c k : Nat) : Prop := (c : Int) + k - 3 < 0 ∨ (w : Int) ≤ (c : Int) + k - 3

/-- R95 for the taps 0 to 6: under the corrected test the border columns are those with a tap outside the row. The leftmost
tap leaves it at the columns below 3, the rightmost one from `W - 3` on. -/
theorem isBorder_iff_exists_tapOutside {inst : Params} (hcorrected : inst.rbLegacy = false) {w c : Nat} :
    isBorder inst w c = true ↔ ∃ k < 7, TapOutside w c k := by
  rw [isBorder_iff, hcorrected, if_neg Bool.false_ne_true]
  constructor
  · rintro (hleft | hright)
    · exact ⟨0, by omega, .inl (by omega)⟩
    · exact ⟨6, by omega, .inr (by omega)⟩
  · rintro ⟨k, hk, hout⟩
    omega

/-- Refutes O35: its `k` is an integer, for `(c : Int) + k` makes it one, and so may be negative. Column 3 of a row of 7 is no
border column, but `k = -1` is below 7 and `3 + k - 3` is below 0. For the taps 0 to 6 the equivalence holds
(`isBorder_iff_exists_tapOutside`). -/
theorem not_borderTestFindsOutsideTaps : ¬ Obligations.BorderTestFindsOutsideTaps := by
  unfold Obligations.BorderTestFindsOutsideTaps
  intro h
  have hborder : isBorder Params.default 7 3 = true :=
    (h Params.default 7 3 rfl (by decide) (by decide)).2 ⟨-1, by decide, .inl (by decide)⟩
  exact absurd hborder (by decide)

/-! The mirror about the edge. -/

/-- Mirroring about the edge gives the column of the row that is `j` or `-j` up to the period `2 (W - 1)` (R96). -/
theorem mirrorEdge_eq {w : Nat} {j x : Int} (hw : 2 ≤ w) (h0 : 0 ≤ x) (hx : x ≤ (w : Int) - 1)
    (hj : j ≡ x [ZMOD 2 * ((w : Int) - 1)] ∨ j ≡ -x [ZMOD 2 * ((w : Int) - 1)]) : mirrorEdge j w = x := by
  unfold mirrorEdge
  dsimp only
  rcases hj with hj | hj <;> rw [hj.eq]
  · rw [Int.emod_eq_of_lt h0 (by omega), if_pos hx]
  · rcases h0.eq_or_lt with rfl | hpos
    · rw [neg_zero, Int.zero_emod, if_pos hx]
    · rw [← Int.add_emod_right, Int.emod_eq_of_lt (by omega) (by omega)]
      split_ifs <;> omega

/-- Settles O36: `j` itself, `-j` and `2 (W - 1) - j` are each in the row where the statement gives them. -/
theorem edgeMirrorIsSingleReflection : Obligations.EdgeMirrorIsSingleReflection := by
  unfold Obligations.EdgeMirrorIsSingleReflection
  intro w j hw hlow hhigh
  split_ifs with hleft hright
  · exact mirrorEdge_eq (by omega) (by omega) (by omega) (.inr (by rw [neg_neg]))
  · exact mirrorEdge_eq (by omega) (by omega) (by omega) (.inr (Int.modEq_iff_dvd.2 ⟨-1, by ring⟩))
  · exact mirrorEdge_eq (by omega) (by omega) (by omega) (.inl rfl)

/-- Mirroring about the edge always gives a column of the row (R96). -/
theorem mirrorEdge_in_row {w : Nat} (hw : 2 ≤ w) (j : Int) : 0 ≤ mirrorEdge j w ∧ mirrorEdge j w < w := by
  have hm0 := Int.emod_nonneg j (b := 2 * ((w : Int) - 1)) (by omega)
  have hm := Int.emod_lt_of_pos j (b := 2 * ((w : Int) - 1)) (by omega)
  unfold mirrorEdge
  dsimp only
  split_ifs <;> omega

/-! The column of a tap. -/

/-- Where a tap outside the row is read, about the edge or about the output's own column (R96, R97). -/
def mirrorTap (axis : MirrorAxis) (w c k : Nat) : Int :=
  match axis with
  | .edge => mirrorEdge ((c : Int) + k - 3) w
  | .center => 2 * (c : Int) - ((c : Int) + k - 3)

/-- A tap of a border column that lies outside the row is mirrored, every other one is read where it lies (R95 to R98). -/
theorem tapColumn_eq (inst : Params) (w c k : Nat) :
    tapColumn inst w c k =
      if isBorder inst w c = true ∧ TapOutside w c k then mirrorTap inst.mirrorAxis w c k else (c : Int) + k - 3 := by
  unfold tapColumn
  dsimp only
  by_cases hborder : isBorder inst w c = true
  · by_cases hout : TapOutside w c k
    · rw [if_pos hborder, if_neg (by omega), if_pos ⟨hborder, hout⟩]
      rfl
    · rw [if_pos hborder, if_pos (by omega), if_neg fun h => hout h.2]
  · rw [if_neg hborder, if_neg fun h => hborder h.1]

/-- Settles O37: at the first and the last column a mirrored tap is a single reflection (R96), about the column itself. -/
theorem mirrorAxesAgreeAtTheEnds : Obligations.MirrorAxesAgreeAtTheEnds := by
  unfold Obligations.MirrorAxesAgreeAtTheEnds
  intro inst w k hw hk
  have agree {c : Nat} (hc : c = 0 ∨ c + 1 = w) :
      tapColumn { inst with mirrorAxis := .edge } w c k = tapColumn { inst with mirrorAxis := .center } w c k := by
    rw [tapColumn_eq, tapColumn_eq]
    refine ite_congr rfl (fun ⟨_, hout⟩ => ?_) fun _ => rfl
    have hsingle := edgeMirrorIsSingleReflection w ((c : Int) + k - 3) (by omega) (by omega) (by omega)
    simp only [mirrorTap, hsingle]
    split_ifs <;> omega
  exact ⟨agree (.inl rfl), agree (.inr (by omega))⟩

/-- A mirrored tap is in the row: under CENTER rows have 6 pixels or more (R9, R94, R97). -/
theorem mirrorTap_in_row {inst : Params} {w c k : Nat} (hw : wmin inst ≤ w) (hc : c < w) (hk : k < 7)
    (hout : TapOutside w c k) :
    0 ≤ mirrorTap inst.mirrorAxis w c k ∧ mirrorTap inst.mirrorAxis w c k < w := by
  unfold wmin at hw
  unfold mirrorTap
  cases haxis : inst.mirrorAxis with
  | edge =>
    rw [haxis] at hw
    dsimp only at hw
    exact mirrorEdge_in_row (by omega) _
  | center =>
    rw [haxis] at hw
    dsimp only at hw ⊢
    omega

/-- So a tap is read in the row, unless it lies outside the row and its column is no border column (R94). -/
theorem tapColumn_in_row {inst : Params} {w c k : Nat} (hw : wmin inst ≤ w) (hc : c < w) (hk : k < 7)
    (htest : TapOutside w c k → isBorder inst w c = true) :
    0 ≤ tapColumn inst w c k ∧ tapColumn inst w c k < w := by
  rw [tapColumn_eq]
  by_cases hout : TapOutside w c k
  · rw [if_pos ⟨htest hout, hout⟩]
    exact mirrorTap_in_row hw hc hk hout
  · rw [if_neg fun h => hout h.2]
    omega

/-- A tap read in its row has its index in the row (R98). -/
theorem srcIndex_in_row {inst : Params} {w c k : Nat} (r : Nat)
    (h : 0 ≤ tapColumn inst w c k ∧ tapColumn inst w c k < w) :
    w * r ≤ srcIndex inst w r c k ∧ srcIndex inst w r c k < w * (r + 1) := by
  obtain ⟨h0, hw⟩ := h
  obtain ⟨n, hn⟩ := Int.eq_ofNat_of_zero_le h0
  have hindex : srcIndex inst w r c k = w * r + n := by
    rw [srcIndex, hn]
    exact Int.toNat_natCast (w * r + n)
  rw [hindex, mul_add, mul_one]
  omega

/-- Settles O33: under the corrected test a tap outside the row belongs to a border column, and is mirrored into the row. -/
theorem tapsStayInRow : Obligations.TapsStayInRow := by
  unfold Obligations.TapsStayInRow
  intro inst w h r c k hcorrected hw _ hc hk
  have hrow := tapColumn_in_row hw hc hk fun hout =>
    (isBorder_iff_exists_tapOutside hcorrected).2 ⟨k, hk, hout⟩
  exact ⟨hrow.1, hrow.2, srcIndex_in_row r hrow⟩

/-! The legacy read. -/

/-- Column `W - 3` of a row of 6 or more is no border column under RB_LEGACY, and its last tap is the first pixel of the next
row (R109). -/
theorem legacy_read {inst : Params} {w c : Nat} (hlegacy : inst.rbLegacy = true) (hw : 6 ≤ w) (hc : c + 3 = w) (r : Nat) :
    isBorder inst w c = false ∧ srcIndex inst w r c 6 = w * (r + 1) := by
  have hborder : isBorder inst w c = false := by
    rw [Bool.eq_false_iff, Ne, isBorder_iff, if_pos hlegacy]
    omega
  refine ⟨hborder, ?_⟩
  have hcolumn : tapColumn inst w c 6 = (w : Nat) := by
    rw [tapColumn_eq, if_neg (by simp [hborder])]
    omega
  rw [srcIndex, hcolumn, mul_add, mul_one]
  exact Int.toNat_natCast (w * r + w)

/-- Every other tap is read in its row under RB_LEGACY (R109). -/
theorem legacy_tapColumn_in_row {inst : Params} {w c k : Nat} (hlegacy : inst.rbLegacy = true) (hw : wmin inst ≤ w)
    (hc : c < w) (hk : k < 7) (hother : ¬ (6 ≤ w ∧ c + 3 = w ∧ k = 6)) :
    0 ≤ tapColumn inst w c k ∧ tapColumn inst w c k < w := by
  refine tapColumn_in_row hw hc hk fun hout => ?_
  rw [isBorder_iff, if_pos hlegacy]
  omega

/-- In rows below 6 pixels the two border tests agree, for column `W - 3` is below 3 (R109). -/
theorem isBorder_narrow {inst : Params} {w c : Nat} (hw : w < 6) :
    isBorder inst w c = isBorder { inst with rbLegacy := false } w c := by
  rw [Bool.eq_iff_iff, isBorder_iff, isBorder_iff, if_neg Bool.false_ne_true]
  split_ifs <;> omega

/-- A tap whose index lies in the source of a valid pass shares no byte with the destination (R90). -/
theorem Pass.Valid.tap_apart {inst : Params} {p : Pass} (h : p.Valid inst) {r c k : Nat}
    (hindex : srcIndex inst p.w r c k < p.w * p.h) :
    ¬ (p.dst < p.tapAddr inst r c k + 4 ∧ p.tapAddr inst r c k < p.dst + p.bytes) := by
  have hrange := h.srcInRange
  have hapart := h.apart
  unfold Pass.bytes at *
  rw [Pass.tapAddr, Nat.mod_eq_of_lt (by omega)]
  omega

/-- A tap read in its row lies in the source (R94). -/
theorem srcIndex_lt_of_row {inst : Params} {w h r c k : Nat} (hr : r < h)
    (hrow : 0 ≤ tapColumn inst w c k ∧ tapColumn inst w c k < w) : srcIndex inst w r c k < w * h :=
  (srcIndex_in_row r hrow).2.trans_le (Nat.mul_le_mul_left w hr)

/-- Settles O34: the border test at column `W - 3`, the taps in their rows, the agreement of the two tests; and a tap in the
source is not in the destination, which leaves the legacy read of the last row. -/
theorem legacyReadIsTheOnlyOneOutside : Obligations.LegacyReadIsTheOnlyOneOutside := by
  unfold Obligations.LegacyReadIsTheOnlyOneOutside
  refine ⟨fun inst w r hlegacy hw => legacy_read hlegacy hw (by omega) r,
    fun inst w c k => legacy_tapColumn_in_row, fun inst w c k hw _ => ?_, fun inst p r c hvalid hr hc hreads => ?_⟩
  · rw [tapColumn_eq, tapColumn_eq, isBorder_narrow hw]
  · obtain ⟨k, hk, htap⟩ := List.any_eq_true.1 hreads
    rw [List.mem_range] at hk
    rw [decide_eq_true_eq] at htap
    have hrow : ¬ (0 ≤ tapColumn inst p.w c k ∧ tapColumn inst p.w c k < p.w) := fun hrow =>
      hvalid.tap_apart (srcIndex_lt_of_row hr hrow) htap
    have hlegacy : inst.rbLegacy = true := by
      by_contra hl
      obtain ⟨h0, hw, -⟩ := tapsStayInRow inst p.w p.h r c k (Bool.eq_false_iff.2 hl) hvalid.width hr hc hk
      exact hrow ⟨h0, hw⟩
    obtain ⟨hw, hcol, rfl⟩ : 6 ≤ p.w ∧ c + 3 = p.w ∧ k = 6 :=
      by_contra fun hother => hrow (legacy_tapColumn_in_row hlegacy hvalid.width hc hk hother)
    refine ⟨hlegacy, hw, ?_, hcol⟩
    by_contra hlast
    refine hvalid.tap_apart ?_ htap
    rw [(legacy_read hlegacy hw hcol r).2]
    exact Nat.mul_lt_mul_of_pos_left (by omega) (by omega)

end Sys2Proof.Machine
end

section
/-! SUPPORT. The value of an output (R100 to R103): each channel by itself, the accumulator written out, and how large it can
become. -/
namespace Sys2Proof.Machine

/-! Channels. -/

/-- Channel `l` of a word in memory is its byte `l` (R55). -/
theorem lane_read32 (m : Memory) (a : Nat) {l : Nat} (hl : l < 4) : lane (Memory.read32 m a) l = Memory.get m (a + l) :=
  extractLsb'_four_bytes (fun l => Memory.get m (a + l)) hl

/-- Words whose four channels are the same are the same. -/
theorem eq_of_lanes {v w : Word} (h : ∀ l < 4, lane v l = lane w l) : v = w := by
  refine BitVec.eq_of_getLsbD_eq fun i hi => ?_
  have hbit := congrArg (BitVec.getLsbD · (i % 8)) (h (i / 8) (by omega))
  have hlt : i % 8 < 8 := Nat.mod_lt _ (by decide)
  simpa only [lane, BitVec.getLsbD_extractLsb', hlt, decide_true, Bool.true_and, Nat.div_add_mod] using hbit

/-- Channel `l` of an output is accumulator `l`, narrowed (R101 to R103). -/
theorem lane_convolve (inst : Params) (kw taps : Vector Word 7) {l : Nat} (hl : l < 4) :
    lane (convolve inst kw taps) l = narrow inst (accumulateLane kw taps l) :=
  extractLsb'_four_bytes (fun l => narrow inst (accumulateLane kw taps l)) hl

/-- The product of tap `k`: its channel, widened, and its weight (R100, R101). -/
def tapProduct (kw taps : Vector Word 7) (l : Nat) (k : Fin 7) : Word := fmul (f32 (lane taps[k] l).toNat) kw[k]

/-- The accumulator of a channel is the sum from +0 of its seven products, in tap order (R101). -/
theorem accumulateLane_eq (kw taps : Vector Word 7) (l : Nat) :
    accumulateLane kw taps l = (List.ofFn (tapProduct kw taps l)).foldl fadd 0 := by
  have hzip : taps.toList.zip kw.toList = List.ofFn fun k : Fin 7 => (taps[k], kw[k]) :=
    List.ext_getElem (by simp) fun i _ _ => by
      rw [List.getElem_zip, List.getElem_ofFn, Vector.getElem_toList, Vector.getElem_toList]
      rfl
  have hmap : List.ofFn (tapProduct kw taps l) =
      (List.ofFn fun k : Fin 7 => (taps[k], kw[k])).map fun tw => fmul (f32 (lane tw.1 l).toNat) tw.2 := by
    rw [List.map_ofFn]
    rfl
  rw [accumulateLane, hzip, hmap, List.foldl_map]
  rfl

/-- Settles O38: the channel is the narrowed sum of its own products, and these see the channel of the taps only. -/
theorem channelsAreIndependent : Obligations.ChannelsAreIndependent := by
  unfold Obligations.ChannelsAreIndependent
  intro inst kw a b l m hl hm h
  have hproducts : tapProduct kw a l = tapProduct kw b m := funext fun k => by rw [tapProduct, tapProduct, h k]
  rw [lane_convolve inst kw a hl, lane_convolve inst kw b hm, accumulateLane_eq, accumulateLane_eq, hproducts]

/-- Settles O21: a channel of the value is its accumulator, narrowed; tap `k` of it is byte `l` of the word at the tap's
address. -/
theorem outputValueIsTheConvolution : Obligations.OutputValueIsTheConvolution := by
  unfold Obligations.OutputValueIsTheConvolution
  intro inst kw m p r c l hl wid column channel product sum rounded
  have hcolumn (k : Nat) : column k = tapColumn inst p.w c k := by
    have hborder : ((c : Int) < 3 ∨ if inst.rbLegacy = true then wid - 3 < c else wid - 3 ≤ c) ↔
        isBorder inst p.w c = true := by
      rw [isBorder_iff]
      split_ifs <;> omega
    rw [tapColumn_eq]
    refine if_congr (and_congr hborder (or_congr_right Int.sub_one_lt_iff)) ?_ rfl
    unfold mirrorTap
    cases inst.mirrorAxis <;> rfl
  have hproduct : tapProduct kw (gatherTaps inst m p r c) l = product := by
    funext k
    have htap : (gatherTaps inst m p r c)[k] = Memory.read32 m (p.tapAddr inst r c k) := by
      fin_cases k <;> rfl
    rw [tapProduct, htap, lane_read32 m _ hl]
    unfold product channel
    rw [hcolumn]
    rfl
  have hsum : accumulateLane kw (gatherTaps inst m p r c) l = sum := by
    rw [accumulateLane_eq, hproduct]
    rfl
  change ((lane (convolve inst kw (gatherTaps inst m p r c)) l).toNat : Int) = _
  rw [lane_convolve _ _ _ hl, hsum]
  unfold narrow rounded
  cases inst.narrowRound <;> exact sat8_toNat _

/-! The identity kernel. -/

/-- A common factor does not change how a quotient is rounded (R14). -/
theorem roundHalfEven_mul_right (num den : Nat) {k : Nat} (hk : 0 < k) :
    roundHalfEven (num * k) (den * k) = roundHalfEven num den := by
  have hleft : 2 * (num % den * k) < den * k ↔ 2 * (num % den) < den := by
    rw [← mul_assoc, Nat.mul_lt_mul_right hk]
  have hright : den * k < 2 * (num % den * k) ↔ den < 2 * (num % den) := by
    rw [← mul_assoc, Nat.mul_lt_mul_right hk]
  simp only [roundHalfEven, Nat.mul_div_mul_right _ _ hk, Nat.mul_mod_mul_right, hleft, hright]

/-- Nor what binary32 value it is rounded to (R14). -/
theorem F32.rn32_mul_right (n : Int) (d : Nat) {k : Nat} (hk : 0 < k) : F32.rn32 (n * k) (d * k) = F32.rn32 n d := by
  have hsign : n * k < 0 ↔ n < 0 := by
    rw [mul_neg_iff]
    omega
  simp only [F32.rn32, F32.roundMagnitude, Int.natAbs_mul, Int.natAbs_natCast, Nat.mul_div_mul_right _ _ hk,
    mul_right_comm d k, roundHalfEven_mul_right _ _ hk, hsign]

/-- +0 is 0 (R14). -/
theorem F32.units_zero : F32.units 0 = 0 := by decide

/-- An exact zero is rounded to +0. -/
theorem F32.rn32_zero (d : Nat) : F32.rn32 0 d = 0 := by
  simp [F32.rn32, F32.roundMagnitude, roundHalfEven]

/-- A product with +0 is +0. -/
theorem fmul_zero (a : Word) : fmul a 0 = 0 := by
  rw [fmul, F32.units_zero, mul_zero, F32.rn32_zero]

/-- A channel times 1.0 is the channel: the product of the two in units is 2^149 times the channel (R15). -/
theorem fmul_f32_one {n : Nat} (hn : n ≤ 255) : fmul (f32 n) 0x3F800000 = f32 n := by
  have hone : F32.units 0x3F800000 = (2 ^ 149 : Nat) := by decide
  have hscale := F32.rn32_mul_right ((n : Int) * 2 ^ 149) 1 (k := 2 ^ 149) (by positivity)
  rw [one_mul] at hscale
  rw [fmul, units_f32 hn, hone, hscale, f32]

/-- A channel plus +0 is the channel, on either side. -/
theorem fadd_f32_zero {n : Nat} (hn : n ≤ 255) : fadd (f32 n) 0 = f32 n ∧ fadd 0 (f32 n) = f32 n := by
  simp only [fadd, F32.units_zero, add_zero, zero_add, units_f32 hn]
  exact ⟨rfl, rfl⟩

/-- A channel is rounded to itself, to nearest or toward zero (R16). -/
theorem round_f32 {n : Nat} (hn : n ≤ 255) : rne (f32 n) = n ∧ truncToInt (f32 n) = n := by
  constructor
  · have herr := (rne_error (f32 n)).1
    rw [units_f32 hn] at herr
    have hlow := neg_abs_le (rne (f32 n) * 2 ^ 149 - (n : Int) * 2 ^ 149)
    have hhigh := le_abs_self (rne (f32 n) * 2 ^ 149 - (n : Int) * 2 ^ 149)
    omega
  · rw [truncToInt_eq_tdiv, units_f32 hn, Int.mul_tdiv_cancel _ (by decide)]

/-- So a channel is narrowed to itself, under both roundings (R102). -/
theorem narrow_f32 (inst : Params) (x : Byte) : narrow inst (f32 x.toNat) = x := by
  have hx : x.toNat ≤ 255 := by omega
  have hsat : sat8 (x.toNat : Int) = x := by
    refine BitVec.eq_of_toNat_eq ?_
    zify
    rw [sat8_toNat]
    omega
  obtain ⟨hrne, htrunc⟩ := round_f32 hx
  unfold narrow
  cases inst.narrowRound
  · rw [hrne, hsat]
  · rw [htrunc, hsat]

/-- The accumulator under the identity kernel is the centre tap's channel. -/
theorem accumulateLane_identity (taps : Vector Word 7) (l : Nat) :
    accumulateLane #v[0, 0, 0, 0x3F800000, 0, 0, 0] taps l = f32 (lane taps[3] l).toNat := by
  have hx : (lane taps[3] l).toNat ≤ 255 := by omega
  have hzero : fadd 0 0 = 0 := by decide
  have hproduct : tapProduct #v[0, 0, 0, 0x3F800000, 0, 0, 0] taps l =
      ![0, 0, 0, f32 (lane taps[3] l).toNat, 0, 0, 0] := by
    funext k
    fin_cases k
    exacts [fmul_zero _, fmul_zero _, fmul_zero _, fmul_f32_one hx, fmul_zero _, fmul_zero _, fmul_zero _]
  rw [accumulateLane_eq, hproduct]
  change fadd (fadd (fadd (fadd (fadd (fadd (fadd 0 0) 0) 0) (f32 (lane taps[3] l).toNat)) 0) 0) 0 = _
  simp only [hzero, fadd_f32_zero hx]

/-- Settles O39: six products are +0 and the seventh is the centre tap's channel, which is narrowed to itself. -/
theorem identityKernelCopies : Obligations.IdentityKernelCopies := by
  unfold Obligations.IdentityKernelCopies
  intro inst taps
  refine eq_of_lanes fun l hl => ?_
  rw [lane_convolve _ _ _ hl, accumulateLane_identity, narrow_f32]

/-! How large an accumulator can become. -/

/-- The word is finite, not negative, and at most `b` units of 2^-149. -/
def F32.UpTo (w : Word) (b : Nat) : Prop := w.toNat < 0x7F800000 ∧ F32.magnitude w ≤ b

/-- The value of such a word is its magnitude (R14). -/
theorem F32.UpTo.units {w : Word} {b : Nat} (h : F32.UpTo w b) : F32.units w = F32.magnitude w := by
  have hsign : w.msb = false := by
    rw [BitVec.msb_eq_decide, decide_eq_false_iff_not]
    have := h.1
    omega
  rw [F32.units, hsign, if_neg Bool.false_ne_true]

/-- The bound where rounding overflows to infinity, in half units (R14). -/
def F32.overflow : Nat := (2 ^ 25 - 1) * 2 ^ 253

/-- Rounding at most doubles a value, for it is no farther from the rounded one than from 0 (R14). -/
theorem F32.rn32_upTo {n d b : Nat} (hd : 0 < d) (hn : 2 * n ≤ b * d) (hb : b < F32.overflow) :
    F32.UpTo (F32.rn32 n d) b := by
  have hlt : 2 * (n : Int).natAbs < F32.overflow * d := by
    rw [Int.natAbs_natCast]
    exact hn.trans_lt (Nat.mul_lt_mul_of_pos_right hb hd)
  obtain ⟨hbits, hsign⟩ := F32.rn32_encoding hd hlt
  have hfinite : (F32.rn32 n d).toNat < 0x7F800000 := by
    have henc := F32.encoding_lt hd hlt
    rw [decide_eq_false (by omega), BitVec.msb_eq_decide, decide_eq_false_iff_not] at hsign
    omega
  refine ⟨hfinite, ?_⟩
  have hnear := (F32.rn32_nearest hd hlt 0).1
  rw [F32.UpTo.units ⟨hfinite, le_rfl⟩, F32.units_zero, zero_mul, zero_sub, abs_neg, Nat.abs_cast] at hnear
  have hdouble : F32.magnitude (F32.rn32 n d) * d ≤ 2 * n := by
    have := (abs_le.1 hnear).2
    zify
    omega
  exact Nat.le_of_mul_le_mul_right (hdouble.trans hn) hd

/-- A rounded sum is at most twice the sum (R15). -/
theorem F32.UpTo.fadd {v w : Word} {a b : Nat} (hv : F32.UpTo v a) (hw : F32.UpTo w b)
    (hlt : 2 * (a + b) < F32.overflow) : F32.UpTo (fadd v w) (2 * (a + b)) := by
  rw [Machine.fadd, hv.units, hw.units, ← Nat.cast_add]
  exact F32.rn32_upTo one_pos (by have := hv.2; have := hw.2; omega) hlt

/-- A rounded product with a weight up to 1.0 is at most twice the other factor (R15). -/
theorem F32.UpTo.fmul {v w : Word} {a : Nat} (hv : F32.UpTo v a) (hw : F32.UpTo w (2 ^ 149))
    (hlt : 2 * a < F32.overflow) : F32.UpTo (fmul v w) (2 * a) := by
  rw [Machine.fmul, hv.units, hw.units, ← Nat.cast_mul]
  refine F32.rn32_upTo (by positivity) ?_ hlt
  rw [mul_assoc]
  exact Nat.mul_le_mul_left 2 (Nat.mul_le_mul hv.2 hw.2)

/-- A channel is below 2^8, so its word is below 2^158 units (R15). -/
theorem f32_upTo (x : Byte) : F32.UpTo (f32 x.toNat) (2 ^ 158) :=
  F32.rn32_upTo (n := x.toNat * 2 ^ 149) one_pos (by omega) (by decide)

/-- A weight in [0, 1] is at most 2^149 units (R86). -/
theorem KernelInUnit.upTo {kw : Vector Word 7} (h : KernelInUnit kw) (k : Fin 7) : F32.UpTo kw[k] (2 ^ 149) := by
  have hk := h k
  exact ⟨by omega, F32.magnitude_le_of_le (k := 126) (by omega)⟩

/-- A sum of words up to 2^159 units, each addition rounded, at most doubles with each of them. -/
theorem foldl_fadd_upTo {l : List Word} {acc : Word} {a : Nat} (hacc : F32.UpTo acc a)
    (hl : ∀ w ∈ l, F32.UpTo w (2 ^ 159)) (hlt : 2 ^ l.length * (a + 2 ^ 160) < F32.overflow) :
    F32.UpTo (l.foldl fadd acc) (2 ^ l.length * (a + 2 ^ 160)) := by
  induction l generalizing acc a with
  | nil => exact ⟨hacc.1, by have := hacc.2; rw [List.foldl_nil, List.length_nil, pow_zero]; omega⟩
  | cons w l ih =>
    have hgrow : 2 ^ (w :: l).length * (a + 2 ^ 160) = 2 ^ l.length * (2 * (a + 2 ^ 159) + 2 ^ 160) := by
      rw [List.length_cons, pow_succ]
      ring
    rw [hgrow] at hlt ⊢
    have hnext : 2 * (a + 2 ^ 159) < F32.overflow :=
      (Nat.le_add_right _ _).trans_lt ((Nat.le_mul_of_pos_left _ (by positivity)).trans_lt hlt)
    exact ih (hacc.fadd (hl w (by simp)) hnext) (fun x hx => hl x (by simp [hx])) hlt

/-- Settles O40: each product is below 2^159 units, so the sum of the seven stays far below the overflow. -/
theorem accumulatorsAreFinite : Obligations.AccumulatorsAreFinite := by
  unfold Obligations.AccumulatorsAreFinite
  intro kw taps l hkw
  have hproduct : ∀ w ∈ List.ofFn (tapProduct kw taps l), F32.UpTo w (2 ^ 159) := by
    rw [List.forall_mem_ofFn_iff]
    exact fun k => (f32_upTo _).fmul (hkw.upTo k) (by decide)
  rw [accumulateLane_eq]
  exact (foldl_fadd_upTo (acc := 0) (a := 0) ⟨by decide, by decide⟩ hproduct (by rw [List.length_ofFn]; decide)).1

end Sys2Proof.Machine
end

section
/-! SUPPORT. HPASS as a command (R89, R90, R108 to R110): when it is accepted, what begins then, and where its pass can be
after any number of micro-steps. -/
namespace Sys2Proof.Machine

/-! Acceptance. -/

/-- The instruction is the HPASS of this datapath (R73). -/
def IsHpass (i : Instr) (vw : Bool) : Prop := i = .hpassV128 ∧ vw = false ∨ i = .hpassV256 ∧ vw = true

/-- The pass that the operand registers give to an HPASS (R89). -/
def State.hpass (s : State) (vw : Bool) : Pass :=
  { src := s.srcAddr.toNat, dst := s.dstAddr.toNat, w := s.width.toNat, h := s.height.toNat, vw := vw }

/-- An HPASS that has been accepted, before its first unit (R89, R118). -/
def State.hpassBegun (s : State) (vw : Bool) : State :=
  { s with
    latch := { op := 2, vw := vw, sigma := s.sigma, src := s.srcAddr, dst := s.dstAddr, w := s.width, h := s.height }
    phase := .pass1
    todo := List.range (s.hpass vw).units
    before := s.mem }

/-- HPASS presents a word with OP 2 and its datapath's VW, which begins the pass (R72, R73, R118). -/
theorem IsHpass.exec {i : Instr} {vw : Bool} (h : IsHpass i vw) (s : State) :
    ∃ w start, rsvField w = 0 ∧ opField w = 2 ∧ vwField w = vw ∧ start s = s.hpassBegun vw ∧
      Machine.exec i s = .next (present w start s) := by
  rcases h with ⟨rfl, rfl⟩ | ⟨rfl, rfl⟩ <;> exact ⟨_, _, by decide, by decide, by decide, rfl, rfl⟩

/-- A valid pass, by its conditions (R90). -/
theorem Pass.valid_iff {inst : Params} {p : Pass} :
    p.Valid inst ↔ wmin inst ≤ p.w ∧ 1 ≤ p.h ∧ p.src % 4 = 0 ∧ p.dst % 4 = 0 ∧ p.src + p.bytes ≤ 2 ^ inst.addrW ∧
      p.dst + p.bytes ≤ 2 ^ inst.addrW ∧ (p.src + p.bytes ≤ p.dst ∨ p.dst + p.bytes ≤ p.src) :=
  ⟨fun ⟨h1, h2, h3, h4, h5, h6, h7⟩ => ⟨h1, h2, h3, h4, h5, h6, h7⟩,
    fun ⟨h1, h2, h3, h4, h5, h6, h7⟩ => ⟨h1, h2, h3, h4, h5, h6, h7⟩⟩

/-- HPASS passes every check exactly when its datapath exists, a kernel is valid and its pass is valid (R90, R127). -/
theorem validate_hpass {w : Word} {s : State} (hrsv : rsvField w = 0) (hop : opField w = 2) :
    validate w s = none ↔
      (vwField w = true → s.inst.hasV256 = true) ∧ s.kvalid = true ∧ (s.hpass (vwField w)).Valid s.inst := by
  have hops : (2 : BitVec 4) ≠ 0 ∧ (2 : BitVec 4) ≠ 1 ∧ (2 : BitVec 4) ≠ 3 ∧ ¬ 4 ≤ (2 : BitVec 4).toNat := by decide
  rw [Pass.valid_iff]
  simp only [validate, hrsv, hop, hops, check_passed, State.hpass, Pass.bytes, not_or, not_and_or, not_lt, not_not,
    ne_eq, not_true, if_false, or_false, true_and, and_true, and_assoc, false_and]
  tauto

/-- Settles O14: the word passes every check and begins the pass, or it is refused and the sequencer stays idle. -/
theorem hpassAcceptedExactlyWhenLegal : Obligations.HpassAcceptedExactlyWhenLegal := by
  unfold Obligations.HpassAcceptedExactlyWhenLegal
  intro s i vw hi hidle hlead wid hei src dst n minimum
  obtain ⟨w, start, hrsv, hop, rfl, hstart, hexec⟩ := IsHpass.exec hi s
  have hn : (s.hpass (vwField w)).bytes = n := (mul_assoc 4 wid hei).symm
  have hlegal := validate_hpass (s := s) hrsv hop
  rw [Pass.valid_iff, hn] at hlegal
  refine ⟨_, hexec, Iff.trans ?_ hlegal⟩
  cases hv : validate w s with
  | none =>
    rw [present_accepted start hidle hv, hstart, runLead, show (s.hpassBegun (vwField w)).lead = 0 from hlead]
    exact iff_of_true rfl rfl
  | some e =>
    rw [present_refused start hidle hv, State.busy, refuseCommand_phase]
    exact iff_of_false (by simpa [State.busy] using hidle) nofun

/-- A phase with nothing left to do ends (R114). -/
theorem tick_of_done {u : State} (hst : u.stalled = false) (hphase : u.phase ≠ .idle) (hdone : u.todo = []) :
    tick u = endPhase u := by
  cases h : u.phase <;> simp_all [tick]

section Accepted

variable {s : State} {vw : Bool} {i : Instr}

/-- An accepted HPASS begins its pass, and the sequencer runs on (R89, R118). -/
theorem IsHpass.exec_accepted (hi : IsHpass i vw) (hidle : s.busy = false) (hkvalid : s.kvalid = true)
    (hpath : vw = true → s.inst.hasV256 = true) (hvalid : (s.hpass vw).Valid s.inst) :
    Machine.exec i s = .next (advance s.lead (s.hpassBegun vw)) := by
  obtain ⟨w, start, hrsv, hop, rfl, hstart, hexec⟩ := hi.exec s
  rw [hexec, present_accepted start hidle ((validate_hpass hrsv hop).2 ⟨hpath, hkvalid, hvalid⟩), hstart]
  rfl

/-! The pass of an accepted HPASS. -/

/-- With BUSY = 0 the invariant leaves nothing of an earlier command. -/
theorem State.Inv.idle_of_not_busy (hinv : s.Inv) (hidle : s.busy = false) :
    s.phase = .idle ∧ s.todo = [] ∧ s.raced = [] ∧ s.before = [] ∧ s.stalled = false := by
  have hphase : s.phase = .idle := by simpa [State.busy] using hidle
  exact ⟨hphase, hinv.idle hphase⟩

/-- The pass begins with every unit to do (R91). -/
theorem State.Inv.hpass_start (hinv : s.Inv) : PassRun (s.hpass vw) (s.hpassBegun vw) (s.hpassBegun vw) :=
  .start hinv.memory_canonical rfl

/-- The end of an HPASS's pass is completion (R89, R131). -/
theorem PassRun.endPhase_hpass {u : State} (h : PassRun (s.hpass vw) (s.hpassBegun vw) u) :
    endPhase u = (completeCommand u, .done) := by
  obtain ⟨hphase, hlatch, -⟩ := h.same
  have hblur : u.runsBlur = false := by rw [State.runsBlur, hlatch]; rfl
  rw [endPhase, hphase, hblur]
  rfl

/-- An HPASS whose requests are all answered does its units and completes, and the sequencer then stays idle (R105, R131). -/
theorem State.Inv.hpass_completes (hinv : s.Inv) (hidle : s.busy = false)
    (hanswered : (s.hpass vw).Answered s.inst s.bus) {n : Nat} (hn : (s.hpass vw).steps ≤ n) :
    ∃ u, PassRun (s.hpass vw) (s.hpassBegun vw) u ∧ u.todo = [] ∧ advance n (s.hpassBegun vw) = completeCommand u := by
  obtain ⟨-, -, hraced, -, hst⟩ := hinv.idle_of_not_busy hidle
  obtain ⟨hrun, hdone⟩ := (hinv.hpass_start (vw := vw)).advance hraced rfl (.inl rfl) hst hanswered
  rw [show (s.hpassBegun vw).todo.length = (s.hpass vw).units from List.length_range] at hrun hdone
  refine ⟨_, hrun, hdone, ?_⟩
  obtain ⟨k, rfl⟩ := Nat.exists_eq_add_of_le hn
  rw [Pass.steps, add_assoc, advance_add]
  generalize advance (s.hpass vw).units (s.hpassBegun vw) = u at *
  obtain ⟨hphase, -, -, -, -, hstalled, -⟩ := hrun.same
  have hend : advance 1 u = completeCommand u := by
    rw [advance, tick_of_done (hstalled.trans hst) (hphase ▸ nofun) hdone, hrun.endPhase_hpass, advance]
  rw [advance_add, hend]
  exact advance_idle k rfl

/-- A completed HPASS changes DONE, the latched context, the engine, memory, choices and free values only (R110, R131). -/
theorem PassFrame.complete_hpass {u : State} (h : PassFrame (s.hpassBegun vw) u) (hinv : s.Inv) (hidle : s.busy = false) :
    completeCommand u =
      { s with
        done := true
        latch := { op := 2, vw := vw, sigma := s.sigma, src := s.srcAddr, dst := s.dstAddr, w := s.width, h := s.height }
        lo := u.lo
        hi := u.hi
        mem := u.mem
        picks := u.picks
        free := u.free } := by
  obtain ⟨hphase, htodo, hraced, hbefore, -⟩ := hinv.idle_of_not_busy hidle
  rw [completeCommand_frame, h]
  cases s
  subst hphase htodo hraced hbefore
  rfl

end Accepted

/-- Settles O22: the pass runs to its end and the command completes. -/
theorem hpassStoresTransposedConvolution : Obligations.HpassStoresTransposedConvolution := by
  unfold Obligations.HpassStoresTransposedConvolution
  intro s i vw hi hinv hidle hkvalid hpath p hvalid hanswered hlead
  obtain ⟨u, hrun, hdone, hend⟩ := hinv.hpass_completes hidle (vw := vw) hanswered hlead
  obtain ⟨hwords, houtside⟩ := hrun.finished hdone
  have hexec := IsHpass.exec_accepted hi hidle hkvalid hpath hvalid
  refine ⟨_, hexec.trans (congrArg _ hend), PassFrame.complete_hpass hrun.frame hinv hidle, hwords,
    fun a ha => houtside a fun hin => ?_⟩
  obtain ⟨hlow, hhigh⟩ := hin
  exact ha.elim (not_lt.2 hlow) (not_le.2 hhigh)

/-! The two datapaths. -/

/-- The bytes of a word are those of memory. -/
theorem Memory.get_eq_of_read32 {m n : Memory} {a l : Nat} (h : Memory.read32 m a = Memory.read32 n a) (hl : l < 4) :
    Memory.get m (a + l) = Memory.get n (a + l) := by
  rw [← lane_read32 m a hl, ← lane_read32 n a hl, h]

/-- Memory after a pass that reads none of its own outputs is determined: every word of the destination is an output's, and
every other byte is as it was (R104). -/
theorem Pass.Calm.memory_unique {inst : Params} {p : Pass} (hcalm : p.Calm inst) {kw : Vector Word 7} {m0 m n : Memory}
    (hm : Memory.wf m) (hn : Memory.wf n)
    (hmw : ∀ r < p.h, ∀ c < p.w, p.readsOwnOutput inst r c = false →
      Memory.read32 m (p.outAddr r c) = p.value inst kw m0 r c)
    (hnw : ∀ r < p.h, ∀ c < p.w, p.readsOwnOutput inst r c = false →
      Memory.read32 n (p.outAddr r c) = p.value inst kw m0 r c)
    (hmo : ∀ a, ¬ p.InDest a → Memory.get m a = Memory.get m0 a)
    (hno : ∀ a, ¬ p.InDest a → Memory.get n a = Memory.get m0 a) : m = n := by
  refine Memory.ext hm hn fun a => ?_
  by_cases ha : p.InDest a
  · obtain ⟨r, hr, c, hc, l, hl, rfl⟩ := p.dest_covered ha
    have hword := (hmw r hr c hc (hcalm r hr c hc)).trans (hnw r hr c hc (hcalm r hr c hc)).symm
    exact Memory.get_eq_of_read32 hword hl
  · rw [hmo a ha, hno a ha]

/-- What the host reads of a register does not depend on the latched context, the engine, memory, choices and free values. -/
theorem readRegister_congr (off : Offset) (s : State) (latch : Latch) (lo hi : Half) (mem : Memory) (picks : List Nat)
    (free : Nat) :
    readRegister off { s with latch := latch, lo := lo, hi := hi, mem := mem, picks := picks, free := free } =
      readRegister off s := by
  unfold readRegister
  rfl

/-- The 256-bit datapath has no more work units than the 128-bit one (R108). -/
theorem Pass.units_pairs_le (p : Pass) (hw : 1 ≤ p.w) : { p with vw := true }.units ≤ { p with vw := false }.units :=
  Nat.mul_le_mul_left p.h (show (p.w + 1) / 2 ≤ p.w by omega)

/-- Settles O24: both datapaths complete with the same values in the same words; what the host reads is what completion
leaves. -/
theorem hpassDatapathsAgree : Obligations.HpassDatapathsAgree := by
  unfold Obligations.HpassDatapathsAgree
  intro s l p hinv hidle hkvalid hpath hvalid hcalm hanswered hlead
  have hinv' : State.Inv { s with picks := l } := hinv.quiet s.bus s.rdata s.inputs s.lead l s.free
  have hvalid' : Pass.Valid s.inst { p with vw := true } :=
    ⟨hvalid.width, hvalid.height, hvalid.srcAligned, hvalid.dstAligned, hvalid.srcInRange, hvalid.dstInRange, hvalid.apart⟩
  have hsteps : { p with vw := true }.steps ≤ s.lead :=
    (Nat.succ_le_succ (p.units_pairs_le ((wmin_pos _).trans hvalid.width))).trans hlead
  obtain ⟨t, ht, htdone, htend⟩ := hinv.hpass_completes hidle (vw := false) hanswered hlead
  obtain ⟨u, hu, hudone, huend⟩ := hinv'.hpass_completes hidle (vw := true) hanswered hsteps
  have htexec := IsHpass.exec_accepted (i := .hpassV128) (.inl ⟨rfl, rfl⟩) hidle hkvalid nofun hvalid
  have huexec := IsHpass.exec_accepted (i := .hpassV256) (s := { s with picks := l }) (.inr ⟨rfl, rfl⟩) hidle hkvalid
    (fun _ => hpath) hvalid'
  obtain ⟨htw, hto⟩ := ht.finished htdone
  obtain ⟨huw, huo⟩ := hu.finished hudone
  refine ⟨_, _, htexec.trans (congrArg _ htend), huexec.trans (congrArg _ huend), ?_, fun off => ?_, ?_⟩
  · exact hcalm.memory_unique ht.canonical hu.canonical htw huw hto huo
  · rw [PassFrame.complete_hpass ht.frame hinv hidle, PassFrame.complete_hpass hu.frame hinv' hidle]
    exact (readRegister_congr off { s with done := true } _ _ _ _ _ _).trans
      (readRegister_congr off { s with done := true } _ _ _ _ _ _).symm
  · rw [PassFrame.complete_hpass ht.frame hinv hidle, PassFrame.complete_hpass hu.frame hinv' hidle]
    rfl



/-! Any moment of an HPASS. -/

/-- Where an HPASS begun at `s` can be (R110, R129, R131): in its pass, completed, or aborted. -/
structure HpassMoment (s : State) (vw : Bool) (t : State) : Prop where
  kvalid : t.kvalid = s.kvalid
  kernel : t.kw = s.kw
  raced : t.raced = []
  before : t.phase ≠ .idle → t.before = s.mem
  cut : PassCut (s.hpass vw) (s.hpassBegun vw) t
  flags :
    (t.phase = .pass1 ∧ t.done = s.done ∧ t.err = s.err ∧ t.errCode = s.errCode ∧ t.errAddr = s.errAddr) ∨
      (t.phase = .idle ∧ t.done = true ∧ t.err = s.err ∧ t.errCode = s.errCode ∧ t.errAddr = s.errAddr ∧
        ∀ r < (s.hpass vw).h, ∀ c < (s.hpass vw).w, (s.hpass vw).readsOwnOutput s.inst r c = false →
          Memory.read32 t.mem ((s.hpass vw).outAddr r c) = (s.hpass vw).value s.inst s.kw s.mem r c) ∨
      (t.phase = .idle ∧ t.done = s.done ∧ t.err = true ∧
        (s.err = true → t.errCode = s.errCode ∧ t.errAddr = s.errAddr))

/-- While its pass runs, an HPASS has changed none of these but PHASE and the copy of memory (R110). -/
theorem PassFrame.hpass_fields {s u : State} {vw : Bool} (h : PassFrame (s.hpassBegun vw) u) :
    u.phase = .pass1 ∧ u.done = s.done ∧ u.err = s.err ∧ u.errCode = s.errCode ∧ u.errAddr = s.errAddr ∧
      u.kvalid = s.kvalid ∧ u.kw = s.kw ∧ u.raced = s.raced ∧ u.before = s.mem := by
  rw [h]
  exact ⟨rfl, rfl, rfl, rfl, rfl, rfl, rfl, rfl, rfl⟩

/-- Every moment of an HPASS's pass is one of these: a stalled one has cut the pass short but is still in its phase. -/
theorem PassMoment.hpassMoment {s t : State} {vw : Bool} {n : Nat} (hraced : s.raced = [])
    (h : PassMoment (s.hpass vw) (s.hpassBegun vw) n t) : HpassMoment s vw t := by
  cases h with
  | running h =>
    obtain ⟨hphase, hdone, herr, hcode, haddr, hkvalid, hkernel, hr, hbefore⟩ := PassFrame.hpass_fields h.frame
    exact ⟨hkvalid, hkernel, hr.trans hraced, fun _ => hbefore, h.cut, .inl ⟨hphase, hdone, herr, hcode, haddr⟩⟩
  | stalled units outs hcut hframe hx =>
    obtain ⟨hphase, hdone, herr, hcode, haddr, hkvalid, hkernel, hr, hbefore⟩ := hframe.hpass_fields
    exact ⟨hkvalid, hkernel, hr.trans hraced, fun _ => hbefore, ⟨hcut.outside, hcut.words⟩,
      .inl ⟨hphase, hdone, herr, hcode, haddr⟩⟩
  | aborted code addr hcut hframe =>
    obtain ⟨-, hdone, herr, hcode, haddr, hkvalid, hkernel, -, -⟩ := hframe.hpass_fields
    rw [abortCommand_frame]
    refine ⟨hkvalid, hkernel, rfl, fun hbusy => absurd rfl hbusy, ⟨hcut.outside, hcut.words⟩,
      .inr (.inr ⟨rfl, hdone, rfl, fun hs => ?_⟩)⟩
    exact ⟨(if_pos (herr.trans hs)).trans hcode, (if_pos (herr.trans hs)).trans haddr⟩
  | @ended m _ u h ht hmn =>
    obtain ⟨-, -, herr, hcode, haddr, hkvalid, hkernel, -, -⟩ := PassFrame.hpass_fields h.frame
    rw [h.endPhase_hpass, advance_idle m rfl]
    exact ⟨hkvalid, hkernel, rfl, fun hbusy => absurd rfl hbusy, ⟨h.outside, h.cut.words⟩,
      .inr (.inl ⟨rfl, rfl, herr, hcode, haddr, (h.finished ht).1⟩)⟩

/-- Settles O26: each moment of the pass, told by the fields that micro-steps can change. -/
theorem hpassAtAnyMoment : Obligations.HpassAtAnyMoment := by
  unfold Obligations.HpassAtAnyMoment
  intro s i vw hi hinv hidle hkvalid hpath p hvalid
  obtain ⟨-, -, hraced, -, hst⟩ := hinv.idle_of_not_busy hidle
  have hmoment := ((hinv.hpass_start (vw := vw)).moments hraced rfl (.inl rfl) hst s.lead).hpassMoment hraced
  have hframe := advance_frame s.lead (s.hpassBegun vw)
  refine ⟨_, IsHpass.exec_accepted hi hidle hkvalid hpath hvalid, ?_⟩
  generalize advance s.lead (s.hpassBegun vw) = t at *
  obtain ⟨hk, hkw, hr, hbefore, ⟨houtside, hwords⟩, hflags⟩ := hmoment
  rw [hk, hkw, hr, ← hraced] at hframe
  exact ⟨hframe, hbefore, hwords, houtside, hflags⟩

end Sys2Proof.Machine
end

section
/-! SUPPORT. The order of the phases (R65, R85, R93, R114): what ends one, and what a micro-step leaves of memory and of the
kernel in each. -/
namespace Sys2Proof.Machine

/-- The kernel phase leads to the first pass of a BLUR, or ends a KGEN (R81, R111). -/
theorem endPhase_of_kgen {s : State} (h : s.phase = .kgen) :
    endPhase s = if s.latch.op = 3 then (beginPass .pass1 s, .none) else (completeCommand s, .done) := by
  simp only [endPhase, h, State.runsBlur, decide_eq_true_eq]

/-- The first pass leads to the second one of a BLUR, or ends an HPASS (R89, R114). -/
theorem endPhase_of_pass1 {s : State} (h : s.phase = .pass1) :
    endPhase s = if s.latch.op = 3 then (beginPass .pass2 s, .none) else (completeCommand s, .done) := by
  simp only [endPhase, h, State.runsBlur, decide_eq_true_eq]

/-- The second pass ends the command (R114, R131). -/
theorem endPhase_of_pass2 {s : State} (h : s.phase = .pass2) : endPhase s = (completeCommand s, .done) := by
  simp only [endPhase, h]

/-- The end of a phase changes neither memory nor the kernel (R114, R131). -/
theorem endPhase_keeps (s : State) :
    (endPhase s).1.mem = s.mem ∧ (endPhase s).1.kw = s.kw ∧ (endPhase s).1.kvalid = s.kvalid := by
  unfold endPhase
  cases s.phase <;> cases s.runsBlur <;> exact ⟨rfl, rfl, rfl⟩

/-- Cutting a pass short leaves KVALID (R129, R147). -/
@[simp] theorem landUnits_kvalid (p : Pass) (n : Nat) (units : List Nat) (s : State) :
    (landUnits p n units s).kvalid = s.kvalid := by rw [landUnits_frame]

/-! An abort leaves memory and the kernel, and ends the command's races (R67, R129). -/

@[simp] theorem abortCommand_mem (c : ErrCode) (a : Nat) (s : State) : (abortCommand c a s).mem = s.mem := by
  rw [abortCommand_frame]
@[simp] theorem abortCommand_kw (c : ErrCode) (a : Nat) (s : State) : (abortCommand c a s).kw = s.kw := by
  rw [abortCommand_frame]
@[simp] theorem abortCommand_kvalid (c : ErrCode) (a : Nat) (s : State) : (abortCommand c a s).kvalid = s.kvalid := by
  rw [abortCommand_frame]
@[simp] theorem abortCommand_raced (c : ErrCode) (a : Nat) (s : State) : (abortCommand c a s).raced = [] := by
  rw [abortCommand_frame]

/-- Only an abort of a pass, or the end of a phase with nothing left to do, changes the phase (R114, R129). -/
theorem tick_phase_change (s : State) :
    (tick s).1.phase = s.phase ∨ ((tick s).1.phase = .idle ∧ (s.phase = .pass1 ∨ s.phase = .pass2)) ∨
      (s.todo = [] ∧ tick s = endPhase s) := by
  rcases tick_cases s with ⟨h, -⟩ | ⟨h, -⟩ | ⟨h, -, -, hdone⟩ |
    ⟨⟨u, -, ⟨-, h⟩ | ⟨q, -, n, t, rfl, ⟨-, h⟩ | ⟨-, h⟩⟩⟩, -, hph, -⟩
  · exact .inl (by rw [h])
  · exact .inl (by rw [h]; rfl)
  · exact .inr (.inr ⟨hdone, h⟩)
  · exact .inl (by rw [h, runOutputs_frame]; rfl)
  · exact .inl (by rw [h]; simp)
  · exact .inr (.inl ⟨by rw [h]; rfl, hph⟩)

/-- In the kernel phase no micro-step changes memory (R81, R114). -/
theorem tick_mem_of_kgen {s : State} (h : s.phase = .kgen) : (tick s).1.mem = s.mem := by
  rcases tick_cases s with ⟨ht, -⟩ | ⟨ht, -⟩ | ⟨ht, -⟩ | ⟨-, -, hph, -⟩
  · rw [ht]
  · rw [ht]; rfl
  · rw [ht]; exact (endPhase_keeps s).1
  · rcases hph with hph | hph <;> cases h.symm.trans hph

/-- In every other phase no micro-step changes the kernel (R85). -/
theorem tick_kernel_of_not_kgen {s : State} (h : s.phase ≠ .kgen) :
    (tick s).1.kw = s.kw ∧ (tick s).1.kvalid = s.kvalid := by
  rcases tick_cases s with ⟨ht, -⟩ | ⟨-, -, hph, -⟩ | ⟨ht, -⟩ |
    ⟨⟨u, -, ⟨-, ht⟩ | ⟨q, -, n, t, rfl, ⟨-, ht⟩ | ⟨-, ht⟩⟩⟩, -⟩
  · rw [ht]; exact ⟨rfl, rfl⟩
  · exact absurd hph h
  · rw [ht]; exact (endPhase_keeps s).2
  · rw [ht, runOutputs_frame]; exact ⟨rfl, rfl⟩
  · simp [ht]
  · simp [ht]

/-- Settles O31: a phase changes by an abort or at its end, and the equations of `endPhase` say which phase follows. -/
theorem phasesRunInOrder : Obligations.PhasesRunInOrder := by
  unfold Obligations.PhasesRunInOrder
  intro s t
  have hended : tick s = endPhase s → t = (endPhase s).1 := congrArg Prod.fst
  refine ⟨fun h => congrArg Prod.fst (tick_idle h), tick_mem_of_kgen, fun h => ?_, fun h => ?_, fun h => ?_,
    tick_kernel_of_not_kgen⟩ <;>
    rcases tick_phase_change s with hsame | ⟨hidle, hph⟩ | ⟨hdone, hend⟩
  · exact .inl (hsame.trans h)
  · rcases hph with hph | hph <;> cases h.symm.trans hph
  · rw [hended hend, endPhase_of_kgen h]
    split
    · exact .inr ⟨hdone, .inl ⟨rfl, ‹_›⟩⟩
    · exact .inr ⟨hdone, .inr ⟨rfl, ‹_›⟩⟩
  · exact .inl (hsame.trans h)
  · exact .inr (.inl hidle)
  · rw [hended hend, endPhase_of_pass1 h]
    split
    · exact .inr (.inr ⟨rfl, hdone, ‹_›, rfl, rfl⟩)
    · exact .inr (.inl rfl)
  · exact .inl (hsame.trans h)
  · exact .inr hidle
  · rw [hended hend, endPhase_of_pass2 h]
    exact .inr rfl

end Sys2Proof.Machine
end

section
/-! SUPPORT. The register port beside the commands (R24, R120 to R122, R135), and the words written to CMD that run nothing:
NOP (R116), and any word while BUSY = 1 (R119). -/
namespace Sys2Proof.Machine

/-! Reads and writes. -/

/-- A 32-bit write at an aligned offset other than CMD and CTRL writes the register (R121). -/
theorem portWrite_register {off : Offset} {v : Word} {s : State} (hlow : s.rstLow = false) (hal : off.toNat % 4 = 0)
    (hctrl : off ≠ ctrlOffset) (hcmd : off ≠ cmdOffset) :
    portWrite off v s = .next (runLead (writeRegister off v s)) := by
  simp [portWrite, hlow, aligned, hal, decodeWrite, hcmd, hctrl]

/-- A write to CTRL with bit 0 = 0 does nothing (R24). -/
theorem portWrite_noReset {v : Word} {s : State} (hlow : s.rstLow = false) (hbit : v.getLsbD 0 = false) :
    portWrite ctrlOffset v s = .next (runLead s) := by
  have hal : aligned ctrlOffset = true := by decide
  have hctrl : decodeWrite ctrlOffset v = decodeControl v := rfl
  have hdecode : decodeControl v = .error .noReset := by rw [decodeControl, hbit, if_neg Bool.false_ne_true]
  simp [portWrite, hlow, hal, hctrl, hdecode]

/-- A register write leaves the number of micro-steps that follow it (log 1). -/
theorem writeRegister_lead (off : Offset) (v : Word) (s : State) : (writeRegister off v s).lead = s.lead := by
  unfold writeRegister
  split
  · rw [acknowledge_frame]
  all_goals rfl

/-- So does a STATUS write in the same cycle as a micro-step. -/
theorem statusSameCycle_lead (v : Word) (s : State) : (statusSameCycle v s).lead = s.lead := by
  have htick : (tick s).1.lead = s.lead := by rw [tick_frame]
  rcases statusSameCycle_cases v s with h | h | h <;> rw [h, acknowledge_frame] <;> exact htick

/-- Settles O6: each event is answered by its own arm of the port. -/
theorem stepReadsAndWritesRegisters : Obligations.StepReadsAndWritesRegisters := by
  unfold Obligations.StepReadsAndWritesRegisters
  intro s off v n rest hlow hal
  have haligned : aligned off = true := decide_eq_true hal
  refine ⟨fun hin => ?_, fun hin hctrl hcmd => ?_, fun hin hbit => ?_, fun hin => ?_⟩
  · rw [step, nextEvent, hin]
    simp only [hostEvent, portRead, hlow, haligned, Bool.not_true, Bool.false_eq_true, if_false]
    rfl
  · refine (step_write hin).trans
      ((portWrite_register (s := { s with inputs := rest, lead := n }) hlow hal hctrl hcmd).trans ?_)
    rw [runLead, writeRegister_lead]
  · exact (step_write hin).trans (portWrite_noReset hlow hbit)
  · rw [step, nextEvent, hin]
    simp only [hostEvent, hlow, Bool.false_eq_true, if_false, runLead, statusSameCycle_lead]

/-! The acknowledgement of the flags. -/

/-- The end of a phase raises no error (R131). -/
theorem endPhase_event (s : State) : (endPhase s).2 ≠ .err := by
  unfold endPhase
  cases s.phase <;> cases s.runsBlur <;> nofun

/-- A micro-step with an error has recorded it (R129, R130). -/
theorem tick_err {s : State} (h : (tick s).2 = .err) : (tick s).1.err = true := by
  rcases tick_cases s with ⟨ht, -⟩ | ⟨ht, -⟩ | ⟨ht, -⟩ | ⟨⟨u, -, ⟨-, ht⟩ | ⟨q, -, n, t, -, ⟨-, ht⟩ | ⟨-, ht⟩⟩⟩, -⟩ <;>
    rw [ht] at h ⊢
  · cases h
  · cases h
  · exact absurd h (endPhase_event s)
  · cases h
  · cases h
  · rw [abortCommand_frame]

/-- Settles O50: the write is `acknowledge_frame`, and in the same cycle the flag that the micro-step sets is kept. -/
theorem statusWriteClearsFlags : Obligations.StatusWriteClearsFlags := by
  unfold Obligations.StatusWriteClearsFlags
  refine fun v s => ⟨acknowledge_frame v s, fun hdone => ?_, fun herr => ?_⟩
  · simp [statusSameCycle, hdone]
  · simp [statusSameCycle, herr, tick_err herr]

/-! Overruns. -/

/-- Running some outputs of a pass does not see OVR. -/
theorem runOutputs_overrun (p : Pass) (outs : List Output) (s : State) :
    runOutputs p outs (overrun s) = overrun (runOutputs p outs s) := by
  have load (s : State) (o : Output) : loadOutput p o (overrun s) = overrun (loadOutput p o s) := by
    unfold loadOutput
    dsimp only
    split <;> rfl
  have store (s : State) (o : Output) : storeOutput p o (overrun s) = overrun (storeOutput p o s) := by
    have hkeeps : (overrun s).keepsHostWord = s.keepsHostWord := rfl
    have hopen : (overrun s).outputIsOpen = s.outputIsOpen := rfl
    unfold storeOutput
    rw [hkeeps, hopen]
    split
    · rfl
    · split <;> rfl
  unfold runOutputs
  rw [List.foldl_hom overrun load, List.foldl_hom overrun store]

/-- Nor does cutting a pass short. -/
theorem landUnits_overrun (p : Pass) (n : Nat) (units : List Nat) (s : State) :
    landUnits p n units (overrun s) = overrun (landUnits p n units s) := by
  induction units generalizing n s with
  | nil => rfl
  | cons u us ih =>
    rw [landUnits, landUnits, ← ih, ← runOutputs_overrun]
    rfl

/-- Nor does a unit with a request that gets a bad answer. -/
theorem troubledUnit_overrun (p : Pass) (units : List Nat) (bad : List Request) (s : State) :
    troubledUnit p units bad (overrun s) =
      (overrun (troubledUnit p units bad s).1, (troubledUnit p units bad s).2) := by
  have hpick : (overrun s).nextPick = s.nextPick := rfl
  have hpick' : (overrun s).dropPick.nextPick = s.dropPick.nextPick := rfl
  have hdrop : (overrun s).dropPick.dropPick = overrun s.dropPick.dropPick := rfl
  have hlandings (n : Nat) : (overrun s.dropPick.dropPick).landings p n units = s.dropPick.dropPick.landings p n units :=
    State.landings_congr p n units rfl rfl rfl
  simp only [troubledUnit, hpick, hpick', hdrop, hlandings, overrun_bus, landUnits_overrun, abortCommand_frame]
  split <;> rfl

/-- A micro-step does the same whatever OVR holds (R119). -/
theorem tick_overrun (s : State) : tick (overrun s) = (overrun (tick s).1, (tick s).2) := by
  have hrun : runUnit (overrun s) = (overrun (runUnit s).1, (runUnit s).2) := by
    have htake : takeUnit (overrun s) = overrun (takeUnit s) := rfl
    have hpass : currentPass (overrun s) = currentPass s := rfl
    have hnext : (overrun s).nextUnit = s.nextUnit := rfl
    simp only [runUnit, htake, hpass, hnext, overrun_inst, overrun_bus, overrun_todo, runOutputs_overrun,
      troubledUnit_overrun]
    split <;> rfl
  have hend : endPhase (overrun s) = (overrun (endPhase s).1, (endPhase s).2) := by
    have hblur : (overrun s).runsBlur = s.runsBlur := rfl
    unfold endPhase
    rw [overrun_phase, hblur]
    cases s.phase <;> cases s.runsBlur <;> rfl
  unfold tick
  rw [overrun_stalled, overrun_phase, overrun_todo, hrun, hend]
  cases s.stalled <;> cases s.phase <;> cases s.todo.isEmpty <;> rfl

/-- Nor does any number of micro-steps. -/
theorem advance_overrun (n : Nat) (s : State) : advance n (overrun s) = overrun (advance n s) := by
  induction n generalizing s with
  | zero => rfl
  | succ n ih => rw [advance, tick_overrun, ih, advance]

/-- A command word presented with BUSY = 1 is lost, and the running command goes on (R119). -/
theorem present_busy {s : State} (w : Word) (start : State → State) (hbusy : s.busy = true) :
    present w start s = overrun (advance s.lead s) := by
  rw [present, hbusy, if_pos rfl, runLead, advance_overrun, overrun_lead]

/-- The words of a NOP pass every check (R116, R127). -/
theorem validate_nop (vw : Bool) (s : State) : validate (encode (.nop vw)).2 s = none := by
  cases vw <;> rfl

/-- Settles O7: with BUSY = 0 the word passes every check and starts nothing; with BUSY = 1 it is lost. -/
theorem nopChangesNothing : Obligations.NopChangesNothing := by
  refine ⟨rfl, rfl, fun s vw => ⟨fun hidle => ?_, fun hbusy => congrArg _ (present_busy _ _ hbusy)⟩⟩
  have hphase : s.phase = .idle := by simpa [State.busy] using hidle
  exact congrArg _ ((present_accepted id hidle (validate_nop vw s)).trans (advance_idle _ hphase))

/-- Every instruction but SRST presents its own word to the sequencer (R118). -/
theorem exec_presents {i : Instr} (hi : ∀ ctrl, i ≠ .srst ctrl) (s : State) :
    ∃ start, exec i s = .next (present (encode i).2 start s) := by
  cases i with
  | srst ctrl => exact absurd rfl (hi ctrl)
  | _ => exact ⟨_, rfl⟩

/-- A word written to CMD is presented to the sequencer, whether it decodes or not (R77, R118). -/
theorem portWrite_cmd (w : Word) {s : State} (hlow : s.rstLow = false) :
    ∃ start, portWrite cmdOffset w s = .next (present w start s) := by
  rcases decodeCommand_cases w with ⟨-, i, hdec⟩ | ⟨hillegal, -⟩
  · obtain ⟨start, hexec⟩ := exec_presents (i := i) (fun ctrl hi => decodeCommand_ne_srst (hi ▸ hdec)) s
    obtain ⟨-, henc⟩ := encode_of_decodeCommand hdec
    rw [henc] at hexec
    exact ⟨start, (portWrite_instr (off := cmdOffset) hlow hdec).trans hexec⟩
  · exact ⟨id, portWrite_illegal hlow hillegal⟩

/-- Settles O8: the word is presented while BUSY = 1, so it is lost. -/
theorem commandWhileBusyIsDropped : Obligations.CommandWhileBusyIsDropped := by
  unfold Obligations.CommandWhileBusyIsDropped
  intro s w n rest hin hlow hbusy
  obtain ⟨start, hport⟩ := portWrite_cmd w (s := { s with inputs := rest, lead := n }) hlow
  exact (step_write hin).trans (hport.trans (congrArg _ (present_busy w start hbusy)))

end Sys2Proof.Machine
end

section
/-! SUPPORT. A pass as a part of a command: an answered one leads to the end of its phase, and any moment of one is told by
what it has left of the flags (R105, R129, R131). -/
namespace Sys2Proof.Machine

/-- An answered pass without a race does its units and ends its phase (R91, R105). -/
theorem PassRun.ends {p : Pass} {s0 : State} (h : PassRun p s0 s0) (htodo : s0.todo = List.range p.units)
    (hrace : s0.raced = []) (hp : p = currentPass s0) (hph : s0.phase = .pass1 ∨ s0.phase = .pass2)
    (hst : s0.stalled = false) (hans : p.Answered s0.inst s0.bus) (k : Nat) :
    ∃ u, PassRun p s0 u ∧ u.todo = [] ∧ Machine.advance (p.steps + k) s0 = Machine.advance k (endPhase u).1 := by
  obtain ⟨hrun, hdone⟩ := h.advance hrace hp hph hst hans
  rw [show s0.todo.length = p.units by rw [htodo, List.length_range]] at hrun hdone
  refine ⟨_, hrun, hdone, ?_⟩
  rw [Pass.steps, add_assoc, advance_add, advance_add, Machine.advance, Machine.advance]
  generalize Machine.advance p.units s0 = u at *
  obtain ⟨hphase, -, -, -, -, hstalled, -⟩ := hrun.same
  have hbusy : u.phase ≠ .idle := by rcases hph with hph | hph <;> rw [hphase, hph] <;> nofun
  rw [tick_of_done (hstalled.trans hst) hbusy hdone]

/-- DONE, ERR and the error registers of `t` are those of `s`. -/
def SameFlags (s t : State) : Prop :=
  t.done = s.done ∧ t.err = s.err ∧ t.errCode = s.errCode ∧ t.errAddr = s.errAddr

/-- `t` is left by an abort of a command that `s` was in (R129, R130). -/
def Aborted (s t : State) : Prop :=
  t.phase = .idle ∧ t.done = s.done ∧ t.err = true ∧
    (s.err = true → t.errCode = s.errCode ∧ t.errAddr = s.errAddr)

/-- Flags that are the same twice are the same. -/
theorem SameFlags.trans {s t u : State} (h : SameFlags s t) (h' : SameFlags t u) : SameFlags s u := by
  obtain ⟨hdone, herr, hcode, haddr⟩ := h
  obtain ⟨hdone', herr', hcode', haddr'⟩ := h'
  exact ⟨hdone'.trans hdone, herr'.trans herr, hcode'.trans hcode, haddr'.trans haddr⟩

/-- An abort of a later state with the same flags is one of this state. -/
theorem SameFlags.aborted {s t u : State} (h : SameFlags s t) (h' : Aborted t u) : Aborted s u := by
  obtain ⟨hdone, herr, hcode, haddr⟩ := h
  obtain ⟨hidle, hdone', herr', hfirst⟩ := h'
  exact ⟨hidle, hdone'.trans hdone, herr', fun hs => (hfirst (herr.trans hs)).imp (·.trans hcode) (·.trans haddr)⟩

/-- A pass leaves the flags, the kernel and its phase while it runs. -/
theorem PassFrame.keeps {s0 t : State} (h : PassFrame s0 t) :
    t.phase = s0.phase ∧ SameFlags s0 t ∧ t.kw = s0.kw ∧ t.kvalid = s0.kvalid := by
  rw [h]
  exact ⟨rfl, ⟨rfl, rfl, rfl, rfl⟩, rfl, rfl⟩

/-- An abort of a pass, by the flags it leaves (R129, R130). -/
theorem PassFrame.aborted {s0 t : State} (h : PassFrame s0 t) (c : ErrCode) (a : Nat) :
    Aborted s0 (abortCommand c a t) := by
  obtain ⟨-, ⟨hdone, herr, hcode, haddr⟩, -⟩ := h.keeps
  rw [abortCommand_frame]
  exact ⟨rfl, hdone, rfl, fun hs => ⟨(if_pos (herr.trans hs)).trans hcode, (if_pos (herr.trans hs)).trans haddr⟩⟩

/-- At any moment of a pass it is cut short, running, stalled or aborted, or it has ended (R105, R129, R160). -/
theorem PassMoment.cut_or_ended {p : Pass} {s0 t : State} {n : Nat} (h : PassMoment p s0 n t) :
    ((t.phase = s0.phase ∧ SameFlags s0 t ∨ Aborted s0 t) ∧ (t.kw = s0.kw ∧ t.kvalid = s0.kvalid) ∧ PassCut p s0 t) ∨
      ∃ m u, PassRun p s0 u ∧ u.todo = [] ∧ t = advance m (endPhase u).1 := by
  cases h with
  | running h =>
    obtain ⟨hphase, hflags, hkernel⟩ := PassFrame.keeps h.frame
    exact .inl ⟨.inl ⟨hphase, hflags⟩, hkernel, h.cut⟩
  | stalled units outs hcut hframe hx =>
    obtain ⟨hphase, hflags, hkernel⟩ := hframe.keeps
    exact .inl ⟨.inl ⟨hphase, hflags⟩, hkernel, ⟨hcut.outside, hcut.words⟩⟩
  | aborted code addr hcut hframe =>
    obtain ⟨-, -, hkw, hkvalid⟩ := hframe.keeps
    exact .inl ⟨.inr (hframe.aborted code addr), ⟨by simp [hkw], by simp [hkvalid]⟩,
      ⟨by simpa using hcut.outside, by simpa using hcut.words⟩⟩
  | ended h ht hmn => exact .inr ⟨_, _, h, ht, rfl⟩

/-- Micro-steps make no race: only the host's stores do (R67). -/
theorem advance_raced {s : State} (h : s.raced = []) (n : Nat) : (advance n s).raced = [] := by
  refine advance_induction (P := fun t => t.raced = []) (fun t ht => ?_) n h
  rcases tick_cases t with ⟨h, -⟩ | ⟨h, -⟩ | ⟨h, -⟩ | ⟨⟨u, -, ⟨-, h⟩ | ⟨q, -, n, v, rfl, ⟨-, h⟩ | ⟨-, h⟩⟩⟩, -⟩ <;> rw [h]
  · exact ht
  · exact ht
  · unfold endPhase
    cases t.phase <;> cases t.runsBlur <;> simp [ht, completeCommand]
  · rw [runOutputs_frame]; exact ht
  · simpa using ht
  · simp

/-- Words of a pass's destination read alike where its bytes do. -/
theorem Pass.read_outAddr_congr {p : Pass} {m n : Memory} (h : ∀ a, p.InDest a → Memory.get m a = Memory.get n a)
    {r c : Nat} (hr : r < p.h) (hc : c < p.w) :
    Memory.read32 m (p.outAddr r c) = Memory.read32 n (p.outAddr r c) := by
  obtain ⟨hlow, hhigh⟩ := p.outAddr_bounds hr hc
  exact Memory.read32_congr fun l hl => h _ ⟨by omega, by omega⟩

end Sys2Proof.Machine
end

section
/-! SUPPORT. BLUR as a command (R111 to R115): when it is accepted, what its kernel phase leaves, and where its two passes can
be after any number of micro-steps. -/
namespace Sys2Proof.Machine

/-! Acceptance. -/

/-- The instruction is the BLUR of this datapath (R73). -/
def IsBlur (i : Instr) (vw : Bool) : Prop := i = .blurV128 ∧ vw = false ∨ i = .blurV256 ∧ vw = true

/-- A BLUR's first pass is the one that the operand registers give to an HPASS; its second pass goes back (R114). -/
def State.backPass (s : State) (vw : Bool) : Pass :=
  { src := s.dstAddr.toNat, dst := s.srcAddr.toNat, w := s.height.toNat, h := s.width.toNat, vw := vw }

/-- A BLUR that has been accepted, before its kernel write (R111, R118). -/
def State.blurAccepted (s : State) (vw : Bool) : State :=
  beginKernel { s with
    latch := { op := 3, vw := vw, sigma := s.sigma, src := s.srcAddr, dst := s.dstAddr, w := s.width, h := s.height }
    before := s.mem }

/-- A BLUR whose kernel has been written, before the first unit of its first pass (R111, R114). -/
def State.blurBegun (s : State) (vw : Bool) : State := beginPass .pass1 (writeKernel (s.blurAccepted vw))

/-- BLUR presents a word with OP 3 and its datapath's VW, which begins the kernel phase (R72, R73, R118). -/
theorem IsBlur.exec {i : Instr} {vw : Bool} (h : IsBlur i vw) (s : State) :
    ∃ w start, rsvField w = 0 ∧ opField w = 3 ∧ vwField w = vw ∧ start s = s.blurAccepted vw ∧
      Machine.exec i s = .next (present w start s) := by
  rcases h with ⟨rfl, rfl⟩ | ⟨rfl, rfl⟩ <;> exact ⟨_, _, by decide, by decide, by decide, rfl, rfl⟩

/-- BLUR passes every check exactly when its datapath exists, its sigma is legal, its first pass is valid and the height is
at least WMIN too (R113, R127). -/
theorem validate_blur {w : Word} {s : State} (hrsv : rsvField w = 0) (hop : opField w = 3) :
    validate w s = none ↔
      (vwField w = true → s.inst.hasV256 = true) ∧ legalSigma s.sigma = true ∧ wmin s.inst ≤ s.height.toNat ∧
        (s.hpass (vwField w)).Valid s.inst := by
  have hops : (3 : BitVec 4) ≠ 0 ∧ (3 : BitVec 4) ≠ 1 ∧ (3 : BitVec 4) ≠ 2 ∧ ¬ 4 ≤ (3 : BitVec 4).toNat := by decide
  have hpos : wmin s.inst ≤ s.height.toNat → 1 ≤ s.height.toNat := (wmin_pos s.inst).trans
  rw [Pass.valid_iff]
  simp only [validate, hrsv, hop, hops, check_passed, State.hpass, Pass.bytes, not_or, not_and_or, not_lt, not_not,
    ne_eq, not_true, if_false, if_true, or_false, or_true, true_and, and_true, and_assoc, false_and]
  tauto

/-- Where what a command word starts is still running after the micro-steps that follow, BUSY says whether the word passed
every check (R118, R128). -/
theorem present_busy_iff {w : Word} {start : State → State} {s : State} (hidle : s.busy = false)
    (hstart : (runLead (start s)).busy = true) : (present w start s).busy = true ↔ validate w s = none := by
  cases hv : validate w s with
  | none =>
    rw [present_accepted start hidle hv]
    exact iff_of_true hstart rfl
  | some e =>
    rw [present_refused start hidle hv, State.busy, refuseCommand_phase]
    exact iff_of_false (by simpa [State.busy] using hidle) nofun

/-- Settles O15: BUSY says that every check is passed, and `validate_blur` says when. -/
theorem blurAcceptedExactlyWhenLegal : Obligations.BlurAcceptedExactlyWhenLegal := by
  unfold Obligations.BlurAcceptedExactlyWhenLegal
  intro s i vw hi hidle hlead wid hei src dst n minimum
  obtain ⟨w, start, hrsv, hop, rfl, hstart, hexec⟩ := IsBlur.exec hi s
  have hbusy : (runLead (start s)).busy = true := by
    rw [hstart, runLead, show (s.blurAccepted (vwField w)).lead = 0 from hlead]
    rfl
  refine ⟨_, hexec, (present_busy_iff hidle hbusy).trans ((validate_blur hrsv hop).trans ?_)⟩
  have hn : (s.hpass (vwField w)).bytes = n := (mul_assoc 4 wid hei).symm
  have hmin : wmin s.inst = minimum := rfl
  have hpos : minimum ≤ hei → 1 ≤ hei := (wmin_pos s.inst).trans
  rw [Pass.valid_iff, hn, legalSigma_iff, hmin]
  simp only [State.hpass]
  tauto

section Accepted

variable {s : State} {vw : Bool} {i : Instr}

/-- An accepted BLUR begins its kernel phase, and the sequencer runs on (R111, R118). -/
theorem IsBlur.exec_accepted (hi : IsBlur i vw) (hidle : s.busy = false) (hsigma : legalSigma s.sigma = true)
    (hpath : vw = true → s.inst.hasV256 = true) (hvalid : (s.hpass vw).Valid s.inst)
    (hback : (s.backPass vw).Valid s.inst) : Machine.exec i s = .next (advance s.lead (s.blurAccepted vw)) := by
  obtain ⟨w, start, hrsv, hop, rfl, hstart, hexec⟩ := hi.exec s
  rw [hexec, present_accepted start hidle ((validate_blur hrsv hop).2 ⟨hpath, hsigma, hback.width, hvalid⟩), hstart]
  rfl

/-! The kernel phase. -/

/-- The first micro-step of a BLUR is the kernel write (R85, R111). -/
theorem tick_blurAccepted (hst : s.stalled = false) :
    (tick (s.blurAccepted vw)).1 = writeKernel (s.blurAccepted vw) := by
  simp [tick, State.blurAccepted, hst]

/-- The second one begins the first pass (R114). -/
theorem advance_blurAccepted (hst : s.stalled = false) (k : Nat) :
    advance (k + 2) (s.blurAccepted vw) = advance k (s.blurBegun vw) := by
  have hend : (tick (writeKernel (s.blurAccepted vw))).1 = s.blurBegun vw := by
    rw [tick_of_done (u := writeKernel (s.blurAccepted vw)) hst nofun rfl, endPhase_of_kgen rfl]
    rfl
  rw [advance, advance, tick_blurAccepted hst, hend]

/-! The two passes. -/

/-- The first pass begins with every unit to do (R91). -/
theorem State.Inv.blur_start (hinv : s.Inv) : PassRun (s.hpass vw) (s.blurBegun vw) (s.blurBegun vw) :=
  .start hinv.memory_canonical rfl

/-- The first pass of a BLUR leads to its second one (R114). -/
theorem PassRun.endPhase_blur {u : State} (h : PassRun (s.hpass vw) (s.blurBegun vw) u) :
    endPhase u = (beginPass .pass2 u, .none) := by
  obtain ⟨hphase, hlatch, -⟩ := h.same
  rw [endPhase_of_pass1 hphase, hlatch]
  exact if_pos rfl

/-- The second pass is the one that goes back (R114). -/
theorem PassRun.backPass {u : State} (h : PassRun (s.hpass vw) (s.blurBegun vw) u) :
    s.backPass vw = currentPass (beginPass .pass2 u) := by
  obtain ⟨-, hlatch, -⟩ := h.same
  change _ = secondPass u.latch
  rw [hlatch]
  rfl

/-- The second pass begins with every unit to do (R91). -/
theorem PassRun.back_start {u : State} (h : PassRun (s.hpass vw) (s.blurBegun vw) u) :
    PassRun (s.backPass vw) (beginPass .pass2 u) (beginPass .pass2 u) :=
  .start h.canonical (by rw [h.backPass]; rfl)

/-- The end of the second pass is completion (R114, R131). -/
theorem PassRun.endPhase_back {u v : State} (h : PassRun (s.backPass vw) (beginPass .pass2 u) v) :
    endPhase v = (completeCommand v, .done) :=
  endPhase_of_pass2 h.same.1

/-- Both buffers have the same size (R113). -/
theorem State.backPass_bytes (s : State) (vw : Bool) : (s.backPass vw).bytes = (s.hpass vw).bytes :=
  congrArg (4 * ·) (Nat.mul_comm _ _)

/-- The first pass writes no byte that the second one writes (R113). -/
theorem Pass.Valid.back_apart (hvalid : (s.hpass vw).Valid s.inst) {a : Nat} (ha : (s.hpass vw).InDest a) :
    ¬ (s.backPass vw).InDest a := by
  have hapart := hvalid.apart
  rintro ⟨hlow, hhigh⟩
  rw [s.backPass_bytes] at hhigh
  obtain ⟨hlow', hhigh'⟩ := ha
  simp only [State.hpass, State.backPass] at *
  omega

/-- Memory `m` of a BLUR begun at `s` once its first pass is done, whatever the second has written: the destination holds the
first pass's result, and no byte outside both buffers has changed (R111, R114). -/
structure FirstPassDone (s : State) (vw : Bool) (m : Memory) : Prop where
  words : ∀ r < (s.hpass vw).h, ∀ c < (s.hpass vw).w, (s.hpass vw).readsOwnOutput s.inst r c = false →
    Memory.read32 m ((s.hpass vw).outAddr r c) = (s.hpass vw).value s.inst (kernelOf s.sigma) s.mem r c
  outside : ∀ a, ¬ (s.hpass vw).InDest a → ¬ (s.backPass vw).InDest a → Memory.get m a = Memory.get s.mem a

/-- The second pass leaves the first one's result (R113, R114). -/
theorem PassRun.firstPassDone {u : State} (h : PassRun (s.hpass vw) (s.blurBegun vw) u) (hdone : u.todo = [])
    (hvalid : (s.hpass vw).Valid s.inst) {m : Memory}
    (hm : ∀ a, ¬ (s.backPass vw).InDest a → Memory.get m a = Memory.get u.mem a) : FirstPassDone s vw m where
  words r hr c hc hcalm :=
    (Pass.read_outAddr_congr (fun a ha => hm a (hvalid.back_apart ha)) hr hc).trans ((h.finished hdone).1 r hr c hc hcalm)
  outside a ha ha' := (hm a ha').trans (h.outside a ha)

/-- The second pass computes with the kernel of SIGMA over what the first one left, which it does not change (R114). -/
theorem PassRun.back_value {u : State} (h : PassRun (s.hpass vw) (s.blurBegun vw) u) {m : Memory}
    (hm : ∀ a, ¬ (s.backPass vw).InDest a → Memory.get m a = Memory.get u.mem a) {r c : Nat}
    (hcalm : (s.backPass vw).readsOwnOutput s.inst r c = false) :
    (s.backPass vw).value (beginPass .pass2 u).inst (beginPass .pass2 u).kw (beginPass .pass2 u).mem r c =
      (s.backPass vw).value s.inst (kernelOf s.sigma) m r c := by
  obtain ⟨-, -, hinst, -, hkw, -⟩ := h.same
  rw [beginPass_inst, beginPass_kw, beginPass_mem, hinst, hkw]
  exact (Pass.value_congr hcalm hm).symm

/-- At any moment of the second pass each word of the source is as it was at acceptance, for the first pass left it, or its
output's value (R114, R129). -/
theorem PassRun.back_cut {u t : State} (h : PassRun (s.hpass vw) (s.blurBegun vw) u)
    (hvalid : (s.hpass vw).Valid s.inst) (hcut : PassCut (s.backPass vw) (beginPass .pass2 u) t) :
    ∀ r < (s.backPass vw).h, ∀ c < (s.backPass vw).w, (s.backPass vw).readsOwnOutput s.inst r c = false →
      Memory.read32 t.mem ((s.backPass vw).outAddr r c) = Memory.read32 s.mem ((s.backPass vw).outAddr r c) ∨
        Memory.read32 t.mem ((s.backPass vw).outAddr r c) =
          (s.backPass vw).value s.inst (kernelOf s.sigma) t.mem r c := by
  obtain ⟨-, -, hinst, -⟩ := h.same
  intro r hr c hc hcalm
  have hold : Memory.read32 u.mem ((s.backPass vw).outAddr r c) = Memory.read32 s.mem ((s.backPass vw).outAddr r c) :=
    Pass.read_outAddr_congr (fun a ha => h.outside a fun ha' => hvalid.back_apart ha' ha) hr hc
  rw [← hold, ← h.back_value hcut.outside hcalm]
  exact hcut.words r hr c hc (by rw [beginPass_inst, hinst]; exact hcalm)

/-- Once the second pass is done every word of the source holds its output's value (R105, R114). -/
theorem PassRun.back_words {u v : State} (h : PassRun (s.hpass vw) (s.blurBegun vw) u)
    (hv : PassRun (s.backPass vw) (beginPass .pass2 u) v) (hdone : v.todo = []) {m : Memory}
    (hm : ∀ a, ¬ (s.backPass vw).InDest a → Memory.get m a = Memory.get u.mem a) :
    ∀ r < (s.backPass vw).h, ∀ c < (s.backPass vw).w, (s.backPass vw).readsOwnOutput s.inst r c = false →
      Memory.read32 v.mem ((s.backPass vw).outAddr r c) = (s.backPass vw).value s.inst (kernelOf s.sigma) m r c := by
  obtain ⟨-, -, hinst, -⟩ := h.same
  intro r hr c hc hcalm
  rw [← h.back_value hm hcalm]
  exact (hv.finished hdone).1 r hr c hc (by rw [beginPass_inst, hinst]; exact hcalm)

/-! Completion. -/

/-- A BLUR whose requests are all answered does both its passes and completes, and the sequencer then stays idle (R105, R114,
R131). -/
theorem State.Inv.blur_completes (hinv : s.Inv) (hidle : s.busy = false)
    (hanswered : (s.hpass vw).Answered s.inst s.bus) (hback : (s.backPass vw).Answered s.inst s.bus) {n : Nat}
    (hn : 2 + (s.hpass vw).steps + (s.backPass vw).steps ≤ n) :
    ∃ u v, (PassRun (s.hpass vw) (s.blurBegun vw) u ∧ u.todo = []) ∧
      (PassRun (s.backPass vw) (beginPass .pass2 u) v ∧ v.todo = []) ∧
      advance n (s.blurAccepted vw) = completeCommand v := by
  obtain ⟨-, -, hraced, -, hst⟩ := hinv.idle_of_not_busy hidle
  obtain ⟨k, rfl⟩ := Nat.exists_eq_add_of_le hn
  obtain ⟨u, hu, hudone, huend⟩ := (hinv.blur_start (vw := vw)).ends rfl hraced rfl (.inl rfl) hst hanswered
    ((s.backPass vw).steps + k)
  obtain ⟨-, -, hinst, hbus, -, hstalled, hraces, -⟩ := hu.same
  obtain ⟨v, hv, hvdone, hvend⟩ := hu.back_start.ends (by rw [hu.backPass]; rfl) (hraces.trans hraced) hu.backPass
    (.inr rfl) (hstalled.trans hst) (by rw [beginPass_inst, beginPass_bus, hinst, hbus]; exact hback) k
  refine ⟨u, v, ⟨hu, hudone⟩, ⟨hv, hvdone⟩, ?_⟩
  rw [show 2 + (s.hpass vw).steps + (s.backPass vw).steps + k =
    (s.hpass vw).steps + ((s.backPass vw).steps + k) + 2 by omega, advance_blurAccepted hst, huend, hu.endPhase_blur, hvend,
    hv.endPhase_back]
  exact advance_idle k rfl

/-- A completed BLUR changes DONE, the kernel, KVALID, the latched context, the engine, memory, choices and free values only
(R115, R131). -/
theorem PassFrame.complete_blur {u v : State} (hu : PassFrame (s.blurBegun vw) u)
    (hv : PassFrame (beginPass .pass2 u) v) (hinv : s.Inv) (hidle : s.busy = false) :
    completeCommand v =
      { s with
        done := true
        kvalid := true
        kw := kernelOf s.sigma
        latch := { op := 3, vw := vw, sigma := s.sigma, src := s.srcAddr, dst := s.dstAddr, w := s.width, h := s.height }
        lo := v.lo
        hi := v.hi
        mem := v.mem
        picks := v.picks
        free := v.free } := by
  obtain ⟨hphase, htodo, hraced, hbefore, -⟩ := hinv.idle_of_not_busy hidle
  rw [completeCommand_frame, hv, hu]
  cases s
  subst hphase htodo hraced hbefore
  rfl

end Accepted

/-- Settles O23: both passes run to their ends and the command completes. -/
theorem blurRunsKernelAndTwoPasses : Obligations.BlurRunsKernelAndTwoPasses := by
  unfold Obligations.BlurRunsKernelAndTwoPasses
  intro s i vw hi hinv hidle hsigma hpath p q hvalid hback hanswered hanswered' hlead
  obtain ⟨u, v, ⟨hu, hudone⟩, ⟨hv, hvdone⟩, hend⟩ := hinv.blur_completes hidle (vw := vw) hanswered hanswered' hlead
  have hexec := IsBlur.exec_accepted hi hidle hsigma hpath hvalid hback
  have hfirst : FirstPassDone s vw v.mem := hu.firstPassDone hudone hvalid hv.outside
  refine ⟨_, hexec.trans (congrArg _ hend), PassFrame.complete_blur hu.frame hv.frame hinv hidle, hfirst.words,
    fun r hr c hc hcalm => hu.back_words hv hvdone hv.outside c hc r hr hcalm, fun a ha ha' => hfirst.outside a ?_ ?_⟩
  · rintro ⟨hlow, hhigh⟩
    exact ha.elim (not_lt.2 hlow) (not_le.2 hhigh)
  · rintro ⟨hlow, hhigh⟩
    rw [s.backPass_bytes] at hhigh
    exact ha'.elim (not_lt.2 hlow) (not_le.2 hhigh)

/-! The two datapaths. -/

/-- Settles O25: both datapaths leave the same first pass, and over it the same second one; what the host reads is what
completion leaves. -/
theorem blurDatapathsAgree : Obligations.BlurDatapathsAgree := by
  unfold Obligations.BlurDatapathsAgree
  intro s l p q hinv hidle hsigma hpath hvalid hback hcalm hcalm' hanswered hanswered' hlead
  have hinv' : State.Inv { s with picks := l } := hinv.quiet s.bus s.rdata s.inputs s.lead l s.free
  have wide {p : Pass} (h : p.Valid s.inst) : Pass.Valid s.inst { p with vw := true } :=
    ⟨h.width, h.height, h.srcAligned, h.dstAligned, h.srcInRange, h.dstInRange, h.apart⟩
  have shorter {p : Pass} (h : p.Valid s.inst) : { p with vw := true }.steps ≤ { p with vw := false }.steps :=
    Nat.succ_le_succ (p.units_pairs_le ((wmin_pos _).trans h.width))
  have hlead' : 2 + { p with vw := true }.steps + { q with vw := true }.steps ≤ s.lead :=
    (Nat.add_le_add (Nat.add_le_add_left (shorter hvalid) 2) (shorter hback)).trans hlead
  obtain ⟨t1, t, ⟨ht1, ht1done⟩, ⟨ht, htdone⟩, htend⟩ :=
    hinv.blur_completes hidle (vw := false) hanswered hanswered' hlead
  obtain ⟨u1, u, ⟨hu1, hu1done⟩, ⟨hu, hudone⟩, huend⟩ :=
    hinv'.blur_completes hidle (vw := true) hanswered hanswered' hlead'
  have htexec := IsBlur.exec_accepted (i := .blurV128) (.inl ⟨rfl, rfl⟩) hidle hsigma nofun hvalid hback
  have huexec := IsBlur.exec_accepted (i := .blurV256) (s := { s with picks := l }) (.inr ⟨rfl, rfl⟩) hidle hsigma
    (fun _ => hpath) (wide hvalid) (wide hback)
  have hfirst : t1.mem = u1.mem :=
    hcalm.memory_unique ht1.canonical hu1.canonical (ht1.finished ht1done).1 (hu1.finished hu1done).1 ht1.outside hu1.outside
  have hmem : t.mem = u.mem := by
    refine hcalm'.memory_unique ht.canonical hu.canonical (ht1.back_words ht htdone fun _ _ => rfl) ?_ ht.outside ?_
    · rw [hfirst]
      exact hu1.back_words hu hudone fun _ _ => rfl
    · rw [hfirst]
      exact hu.outside
  refine ⟨_, _, htexec.trans (congrArg _ htend), huexec.trans (congrArg _ huend), hmem, fun off => ?_, ?_⟩
  · rw [PassFrame.complete_blur ht1.frame ht.frame hinv hidle, PassFrame.complete_blur hu1.frame hu.frame hinv' hidle]
    exact (readRegister_congr off { s with done := true, kvalid := true, kw := kernelOf s.sigma } _ _ _ _ _ _).trans
      (readRegister_congr off { s with done := true, kvalid := true, kw := kernelOf s.sigma } _ _ _ _ _ _).symm
  · rw [PassFrame.complete_blur ht1.frame ht.frame hinv hidle, PassFrame.complete_blur hu1.frame hu.frame hinv' hidle]
    rfl

/-! Any moment of a BLUR. -/

/-- `t` has the kernel of `s`'s SIGMA (R85). -/
def NewKernel (s t : State) : Prop := t.kw = kernelOf s.sigma ∧ t.kvalid = true

/-- Where a BLUR begun at `s` can be (R114, R129, R131): in its kernel phase; in its first pass or aborted there; in its
second pass, aborted there or completed. -/
inductive BlurMoment (s : State) (vw : Bool) (t : State) : Prop where
  | kernel (hphase : t.phase = .kgen) (hflags : SameFlags s t) (hmem : t.mem = s.mem)
      (hkernel : NewKernel s t ∨ t.kw = s.kw ∧ t.kvalid = s.kvalid) : BlurMoment s vw t
  | first (hflags : t.phase = .pass1 ∧ SameFlags s t ∨ Aborted s t) (hkernel : NewKernel s t)
      (hcut : PassCut (s.hpass vw) (s.blurBegun vw) t) : BlurMoment s vw t
  | second {u : State} (hu : PassRun (s.hpass vw) (s.blurBegun vw) u) (hdone : u.todo = [])
      (hflags : t.phase = .pass2 ∧ SameFlags s t ∨ Aborted s t ∨
        (t.phase = .idle ∧ t.done = true ∧ t.err = s.err ∧ t.errCode = s.errCode ∧ t.errAddr = s.errAddr ∧
          ∀ r < (s.backPass vw).h, ∀ c < (s.backPass vw).w, (s.backPass vw).readsOwnOutput s.inst r c = false →
            Memory.read32 t.mem ((s.backPass vw).outAddr r c) =
              (s.backPass vw).value s.inst (kernelOf s.sigma) t.mem r c))
      (hkernel : NewKernel s t) (hcut : PassCut (s.backPass vw) (beginPass .pass2 u) t) : BlurMoment s vw t

section Moments

variable {s : State} {vw : Bool}

/-- Any moment of the second pass (R114, R129, R131). -/
theorem PassRun.back_moment (hraced : s.raced = []) (hst : s.stalled = false) {u : State}
    (hu : PassRun (s.hpass vw) (s.blurBegun vw) u) (hdone : u.todo = []) (n : Nat) :
    BlurMoment s vw (Machine.advance n (beginPass .pass2 u)) := by
  obtain ⟨-, -, -, -, -, hstalled, hraces, -⟩ := hu.same
  have hmoment := hu.back_start.moments (hraces.trans hraced) hu.backPass (.inr rfl) (hstalled.trans hst) n
  obtain ⟨-, hflags, hkw, hkvalid⟩ := PassFrame.keeps hu.frame
  rcases hmoment.cut_or_ended with ⟨hflags', ⟨hkw', hkvalid'⟩, hcut⟩ | ⟨m, v, hv, hvdone, hend⟩
  · exact .second hu hdone (hflags'.imp (And.imp_right hflags.trans) (.inl ∘ hflags.aborted))
      ⟨hkw'.trans hkw, hkvalid'.trans hkvalid⟩ hcut
  · obtain ⟨-, hflags', hkw', hkvalid'⟩ := PassFrame.keeps hv.frame
    obtain ⟨-, herr, hcode, haddr⟩ := hflags.trans hflags'
    rw [hend, hv.endPhase_back, advance_idle m rfl]
    exact .second hu hdone (.inr (.inr ⟨rfl, rfl, herr, hcode, haddr, hu.back_words hv hvdone hv.outside⟩))
      ⟨hkw'.trans hkw, hkvalid'.trans hkvalid⟩ ⟨hv.outside, hv.cut.words⟩

/-- Any moment of a BLUR (R114). -/
theorem State.Inv.blur_moment (hinv : s.Inv) (hidle : s.busy = false) (n : Nat) :
    BlurMoment s vw (advance n (s.blurAccepted vw)) := by
  obtain ⟨-, -, hraced, -, hst⟩ := hinv.idle_of_not_busy hidle
  match n with
  | 0 => exact .kernel rfl ⟨rfl, rfl, rfl, rfl⟩ rfl (.inr ⟨rfl, rfl⟩)
  | 1 =>
    rw [advance, tick_blurAccepted hst]
    exact .kernel rfl ⟨rfl, rfl, rfl, rfl⟩ rfl (.inl ⟨rfl, rfl⟩)
  | k + 2 =>
    rw [advance_blurAccepted hst]
    rcases ((hinv.blur_start (vw := vw)).moments hraced rfl (.inl rfl) hst k).cut_or_ended with
      ⟨hflags, hkernel, hcut⟩ | ⟨m, u, hu, hdone, hend⟩
    · exact .first hflags hkernel hcut
    · rw [hend, hu.endPhase_blur]
      exact hu.back_moment hraced hst hdone m

end Moments

/-- Settles O27: each moment of the BLUR, told by the fields that micro-steps can change. -/
theorem blurAtAnyMoment : Obligations.BlurAtAnyMoment := by
  unfold Obligations.BlurAtAnyMoment
  intro s i vw hi hinv hidle hsigma hpath p q hvalid hback
  obtain ⟨-, -, hraced, -, -⟩ := hinv.idle_of_not_busy hidle
  have hmoment := hinv.blur_moment (vw := vw) hidle s.lead
  have hframe := advance_frame s.lead (s.blurAccepted vw)
  have hbefore : (advance s.lead (s.blurAccepted vw)).phase ≠ .idle →
      (advance s.lead (s.blurAccepted vw)).before = s.mem := (ContextKept.runLead (s.blurAccepted vw)).before
  refine ⟨_, IsBlur.exec_accepted hi hidle hsigma hpath hvalid hback, ?_⟩
  rw [advance_raced (s := s.blurAccepted vw) hraced, ← hraced] at hframe
  generalize advance s.lead (s.blurAccepted vw) = t at *
  refine ⟨hframe, hbefore, ?_⟩
  cases hmoment with
  | kernel hphase hflags hmem hkernel => exact .inl ⟨hphase, hflags, hmem, hkernel⟩
  | first hflags hkernel hcut => exact .inr (.inl ⟨hflags, hkernel, hcut.outside, hcut.words⟩)
  | second hu hdone hflags hkernel hcut =>
    have hfirst := hu.firstPassDone hdone hvalid hcut.outside
    exact .inr (.inr ⟨hflags, hkernel, hfirst.outside, hfirst.words, hu.back_cut hvalid hcut⟩)

end Sys2Proof.Machine
end

section
/-! SUPPORT. The checks of a command word in their order (R126, R127), and the refusal by the first that fails (R128, R130). -/
namespace Sys2Proof.Machine

/-- A check followed by others answers `e` when it fails with `e`, or passes and the others answer `e` (R127). -/
theorem check_eq_some_iff {c : Prop} [Decidable c] {e e' : ErrCode} {rest : Option ErrCode} :
    (if c then some e' else rest) = some e ↔ c ∧ e' = e ∨ ¬ c ∧ rest = some e := by
  split <;> simp [*]

/-- A word that needs no further check answers no code: NOP after the first one, KGEN after its sigma (R127). -/
theorem exempt_eq_some_iff {c : Prop} [Decidable c] {e : ErrCode} {rest : Option ErrCode} :
    (if c then none else rest) = some e ↔ ¬ c ∧ rest = some e := by
  split <;> simp [*]

/-- OP is the number in bits 3..0 (R72). -/
theorem opField_eq_iff {w : Word} (op : BitVec 4) : opField w = op ↔ w.toNat % 16 = op.toNat := by
  rw [← BitVec.toNat_inj, opField_toNat]

/-- VW is 1 when the number in bit 4 is (R72). -/
theorem vwField_eq_true_iff {w : Word} : vwField w = true ↔ w.toNat / 16 % 2 = 1 := by
  rw [← vwField_toNat, Bool.toNat_eq_one]

/-- Settles O9: each code is met in the chain of checks once, behind the conditions of the earlier ones. -/
theorem checksComeInOrder : Obligations.ChecksComeInOrder := by
  intro w s op vw wid hei src dst n illegal unsupported badSigma noKernel usesBuffers minimum badDim misaligned outOfRange
    overlapping
  have hillegal : (rsvField w ≠ 0 ∨ 4 ≤ (opField w).toNat) ↔ illegal := reserved_fields_iff
  have hop (k : BitVec 4) : opField w = k ↔ op = k.toNat := opField_eq_iff k
  have hminimum : wmin s.inst = minimum := rfl
  have hn : 4 * (s.width.toNat * s.height.toNat) = n := (mul_assoc 4 wid hei).symm
  have hchain (e : ErrCode) : validate w s = some e ↔
      illegal ∧ .illegalCmd = e ∨ ¬ illegal ∧
        (unsupported ∧ .unsupportedVw = e ∨ ¬ unsupported ∧
          (badSigma ∧ .badSigma = e ∨ ¬ badSigma ∧
            (noKernel ∧ .noKernel = e ∨ ¬ noKernel ∧ usesBuffers ∧
              (badDim ∧ .badDim = e ∨ ¬ badDim ∧
                (misaligned ∧ .misaligned = e ∨ ¬ misaligned ∧
                  (outOfRange ∧ .addrRange = e ∨ ¬ outOfRange ∧ overlapping ∧ .overlap = e)))))) := by
    simp only [validate, check_eq_some_iff, exempt_eq_some_iff, hillegal, hop, vwField_eq_true_iff, hminimum, hn,
      Bool.not_eq_true, reduceCtorEq, and_false, or_false]
    by_cases hill : illegal
    · simp only [hill, true_and, not_true, false_and]
    · have hlt : op < 4 := not_le.1 (not_or.1 hill).2
      have hops : op = 0 ∨ op = 1 ∨ op = 2 ∨ op = 3 := by omega
      -- OP 0 is exempt after the first check and OP 1 from the checks of the buffers, as the conditions say by OP.
      rcases hops with h | h | h | h <;>
        simp [hill, h, unsupported, badSigma, noKernel, usesBuffers, badDim, misaligned, outOfRange, overlapping, vw, wid,
          hei, src, dst]
  have hkernel : ¬ badSigma ∧ noKernel ↔ noKernel := by
    refine and_iff_right_of_imp ?_
    rintro ⟨h, -⟩ ⟨h', -⟩
    omega
  refine ⟨?_, ?_, ?_, ?_, ?_, ?_, ?_, ?_, ?_, ?_⟩ <;>
    simp only [hchain, Ne, reduceCtorEq, and_false, and_true, or_false, false_or, not_false_eq_true, hkernel]

/-- Settles O10: the word is presented with BUSY = 0, and the refusal is the error entry with the word's own fields. -/
theorem refusalIsPrecise : Obligations.RefusalIsPrecise := by
  intro s i e hi hidle hv code
  have hcode : e.number.toNat = code := by cases e <;> rfl
  have haddr : errAddrWord e 0 = 0 := by cases e <;> rfl
  obtain ⟨start, hexec⟩ := exec_presents hi s
  rw [hexec, present_refused start hidle hv, refuseCommand, errorEntry, errCodeWord_of_word, hcode, haddr]

end Sys2Proof.Machine
end

section
/-! SUPPORT. The end of a command (R129 to R131), the same cycle as a STATUS write (R135), and the interrupt output (R134). -/
namespace Sys2Proof.Machine

/-! Bus errors. -/

/-- A request of an output that gets a bad answer is one of its reads or its write (R99, R104). -/
theorem Pass.mem_badRequests {inst : Params} {b : Bus} {p : Pass} {o : Output} {q : Request}
    (h : q ∈ p.badRequests inst b o) :
    q.bad b = true ∧ ((∃ k < 7, q = .read (p.tapAddr inst o.r o.c k)) ∨ q = .write (p.outAddr o.r o.c)) := by
  unfold Pass.badRequests at h
  dsimp only at h
  split at h <;> obtain ⟨hmem, hbad⟩ := List.mem_filter.1 h
  · exact ⟨hbad, .inr (List.mem_singleton.1 hmem)⟩
  · obtain ⟨k, hk, rfl⟩ := List.mem_map.1 hmem
    exact ⟨hbad, .inl ⟨k, List.mem_range.1 hk, rfl⟩⟩

/-- Where it is answered, the bad answer is a bus error (R54). -/
theorem Pass.busError_of_mem_badRequests {inst : Params} {b : Bus} {p : Pass} {o : Output} {q : Request}
    (h : q ∈ p.badRequests inst b o) (hq : q.unanswered b = false) :
    (∃ k < 7, q = .read (p.tapAddr inst o.r o.c k) ∧ spansCover b.readError (p.tapAddr inst o.r o.c k) = true) ∨
      q = .write (p.outAddr o.r o.c) ∧ spansCover b.writeError (p.outAddr o.r o.c) = true := by
  obtain ⟨hbad, ⟨k, hk, rfl⟩ | rfl⟩ := Pass.mem_badRequests h
  · exact .inl ⟨k, hk, rfl, (Bool.or_eq_true_iff.1 hbad).resolve_right (Bool.eq_false_iff.1 hq)⟩
  · exact .inr ⟨rfl, (Bool.or_eq_true_iff.1 hbad).resolve_right (Bool.eq_false_iff.1 hq)⟩

/-- An output with a bus error has a request that gets a bad answer: a read, or its write where every read is answered
(R54). -/
theorem Pass.badRequests_ne_nil {inst : Params} {b : Bus} {p : Pass} {o : Output}
    (h : (∃ k < 7, spansCover b.readError (p.tapAddr inst o.r o.c k) = true) ∨
      spansCover b.writeError (p.outAddr o.r o.c) = true) : p.badRequests inst b o ≠ [] := by
  unfold Pass.badRequests
  dsimp only
  split
  · rename_i hreads
    rcases h with ⟨k, hk, hread⟩ | hwrite
    · have hmem : .read (p.tapAddr inst o.r o.c k) ∈ (p.reads inst o).filter (·.bad b) :=
        List.mem_filter.2 ⟨List.mem_map_of_mem (List.mem_range.2 hk), Bool.or_eq_true_iff.2 (.inl hread)⟩
      exact absurd (List.isEmpty_iff.1 hreads) (List.ne_nil_of_mem hmem)
    · exact List.ne_nil_of_mem
        (List.mem_filter.2 ⟨List.mem_singleton_self _, Bool.or_eq_true_iff.2 (.inl hwrite)⟩)
  · rename_i hreads
    exact mt List.isEmpty_iff.2 hreads

/-- Where none of an output's addresses is left without an answer, its bad answers are answers (R160). -/
theorem Pass.answered_of_mem_badRequests {inst : Params} {b : Bus} {p : Pass} {o : Output} {q : Request}
    (h : (∀ k < 7, spansCover b.noAnswer (p.tapAddr inst o.r o.c k) = false) ∧
      spansCover b.noAnswer (p.outAddr o.r o.c) = false) (hq : q ∈ p.badRequests inst b o) :
    q.unanswered b = false := by
  obtain ⟨hreads, hwrite⟩ := h
  obtain ⟨-, ⟨k, hk, rfl⟩ | rfl⟩ := Pass.mem_badRequests hq
  · exact hreads k hk
  · exact hwrite

/-- A micro-step that sets ERR is the abort of a pass by a request of the unit that comes next, answered with a bus error,
with some words of the units not done landed (R129). -/
theorem tick_aborts {s : State} (h : (tick s).2 = .err) :
    (s.phase = .pass1 ∨ s.phase = .pass2) ∧ s.todo ≠ [] ∧
      ∃ o ∈ (currentPass s).outputs (s.todo.getD s.nextUnit 0),
        ∃ q ∈ (currentPass s).badRequests s.inst s.bus o, q.unanswered s.bus = false ∧
          ∃ n, (tick s).1 = abortCommand q.code q.addr (landUnits (currentPass s) n
            (s.todo.getD s.nextUnit 0 :: (takeUnit s).todo) (takeUnit s).dropPick.dropPick) := by
  rcases tick_cases s with ⟨ht, -⟩ | ⟨ht, -⟩ | ⟨ht, -⟩ |
    ⟨⟨u, rfl, ⟨-, ht⟩ | ⟨q, hq, n, t, rfl, ⟨-, ht⟩ | ⟨hanswered, ht⟩⟩⟩, -, hphase, htodo⟩ <;> rw [ht] at h ⊢
  · cases h
  · cases h
  · exact absurd h (endPhase_event s)
  · cases h
  · cases h
  · obtain ⟨o, ho, hq⟩ := List.mem_flatMap.1 hq
    exact ⟨hphase, htodo, o, ho, q, hq, hanswered, n, rfl⟩

/-- ERR_CODE as it is recorded, each field by its weight (R27). -/
theorem errCodeWord_eq_ofNat (e : ErrCode) (op : BitVec 4) (vw : Bool) :
    errCodeWord e op vw = BitVec.ofNat 32 (e.number.toNat + 256 * op.toNat + 4096 * vw.toNat) := by
  rw [← errCodeWord_toNat, BitVec.ofNat_toNat, BitVec.setWidth_eq]

/-- Where the unit that comes next has a request with a bad answer, and each of these is answered, the micro-step aborts
(R129). -/
theorem tick_err_of_bad {s : State} (hphase : s.phase = .pass1 ∨ s.phase = .pass2) (hst : s.stalled = false)
    (htodo : s.todo ≠ [])
    (hbad : ∃ o ∈ (currentPass s).outputs (s.todo.getD s.nextUnit 0), (currentPass s).badRequests s.inst s.bus o ≠ [])
    (hanswered : ∀ o ∈ (currentPass s).outputs (s.todo.getD s.nextUnit 0),
      ∀ q ∈ (currentPass s).badRequests s.inst s.bus o, q.unanswered s.bus = false) : (tick s).2 = .err := by
  have hpass : s.phase ≠ .idle ∧ s.phase ≠ .kgen := by rcases hphase with h | h <;> rw [h] <;> exact ⟨nofun, nofun⟩
  rcases tick_cases s with ⟨-, h | h⟩ | ⟨-, -, h, -⟩ | ⟨-, -, -, h⟩ |
    ⟨⟨u, rfl, ⟨hnil, -⟩ | ⟨q, hq, n, t, -, ⟨h, -⟩ | ⟨-, h⟩⟩⟩, -⟩
  · cases hst.symm.trans h
  · exact absurd h hpass.1
  · exact absurd h hpass.2
  · exact absurd h htodo
  · obtain ⟨o, ho, hne⟩ := hbad
    exact absurd (List.flatMap_eq_nil_iff.1 hnil o ho) hne
  · obtain ⟨o, ho, hq⟩ := List.mem_flatMap.1 hq
    cases (hanswered o ho q hq).symm.trans h
  · rw [h]

/-- An abort changes ERR and, if no error was recorded, its registers; PHASE, the units to do, the engine, memory and the
model's bookkeeping; and nothing else (R129, R130). -/
theorem abort_frame {s t : State} {p : Pass} {code : ErrCode} {addr n : Nat} {units : List Nat}
    (h : t = abortCommand code addr (landUnits p n units (takeUnit s).dropPick.dropPick)) :
    t =
      { s with
        err := true
        errCode := if s.err then s.errCode else errCodeWord code s.latch.op s.latch.vw
        errAddr := if s.err then s.errAddr else errAddrWord code addr
        phase := .idle
        todo := []
        lo := t.lo
        hi := t.hi
        mem := t.mem
        picks := t.picks
        free := t.free
        raced := []
        before := [] } := by
  have hland := landUnits_frame p n units (takeUnit s).dropPick.dropPick
  generalize landUnits p n units (takeUnit s).dropPick.dropPick = u at *
  rw [h, abortCommand_frame, hland]
  cases herr : s.err <;> simp [herr]

/-- An abort keeps an error that was recorded before (R130). -/
theorem tick_keeps_error {s : State} (h : (tick s).2 = .err) (herr : s.err = true) :
    (tick s).1.errCode = s.errCode ∧ (tick s).1.errAddr = s.errAddr := by
  obtain ⟨-, -, o, -, q, -, -, n, ht⟩ := tick_aborts h
  have hframe := abort_frame ht
  exact ⟨(congrArg State.errCode hframe).trans (if_pos herr), (congrArg State.errAddr hframe).trans (if_pos herr)⟩

/-- Settles O28: among the requests of the unit that comes next that get a bad answer none is unanswered, so one aborts; and
an abort is `tick_aborts`. -/
theorem busErrorAborts : Obligations.BusErrorAborts := by
  intro s hinv p t outs
  refine ⟨fun hphase hst htodo ⟨o, ho, herror⟩ hresponsive => tick_err_of_bad hphase hst htodo
    ⟨o, ho, Pass.badRequests_ne_nil herror⟩ fun o ho _ => Pass.answered_of_mem_badRequests (hresponsive o ho), fun h => ?_⟩
  obtain ⟨hphase, htodo, o, ho, q, hq, hanswered, n, ht⟩ := tick_aborts h
  obtain ⟨-, -, hunits⟩ := hinv.pass hphase
  have hunit := hunits _ (nextUnit_mem htodo)
  have hleft : ∀ u ∈ s.todo.getD s.nextUnit 0 :: (takeUnit s).todo, u < p.units :=
    List.forall_mem_cons.2 ⟨hunit, fun u hu => hunits u (List.mem_of_mem_eraseIdx hu)⟩
  have hmem : t.mem = _ := (congrArg State.mem ht).trans (abortCommand_mem _ _ _)
  have hframe : t = _ := abort_frame ht
  have hcode : t.errCode = _ := congrArg State.errCode hframe
  have haddr : t.errAddr = _ := congrArg State.errAddr hframe
  refine ⟨by rw [hcode, haddr]; exact hframe, tick_keeps_error h, fun herr => ?_, fun a ha => ?_, fun hraced r hr c hc hcalm => ?_⟩
  · obtain ⟨hr, hc⟩ := p.outputs_in_range hunit ho
    refine ⟨o.r, hr, o.c, hc, ?_⟩
    simp only [hcode, haddr, herr, Bool.false_eq_true, if_false, errCodeWord_eq_ofNat]
    rcases Pass.busError_of_mem_badRequests hq hanswered with ⟨k, hk, rfl, herror⟩ | ⟨rfl, herror⟩
    · exact .inl ⟨rfl, k, hk, rfl, herror⟩
    · exact .inr ⟨rfl, rfl, herror⟩
  · rw [hmem]
    exact landUnits_outside (s := (takeUnit s).dropPick.dropPick) hleft ha
  · rw [hmem]
    have hword := landUnits_old_or_new (p := p) (n := n) (s := (takeUnit s).dropPick.dropPick) hraced
      hinv.memory_canonical hleft hr hcalm
    simpa using hword

/-! Completion. -/

/-- A phase that ends with DONE is the last of its command: a BLUR's is its second pass (R114, R131). -/
theorem endPhase_done {s : State} (h : (endPhase s).2 = .done) :
    (endPhase s).1 = completeCommand s ∧ (s.latch.op = 3 → s.phase = .pass2) := by
  have last {next : State} (hend : endPhase s = if s.latch.op = 3 then (next, .none) else (completeCommand s, .done)) :
      (endPhase s).1 = completeCommand s ∧ s.latch.op ≠ 3 := by
    rw [hend] at h ⊢
    split at h
    · cases h
    · rename_i hop
      exact ⟨by rw [if_neg hop], hop⟩
  cases hphase : s.phase with
  | idle => simp [endPhase, hphase] at h
  | kgen => exact (last (endPhase_of_kgen hphase)).imp_right fun hne hop => absurd hop hne
  | pass1 => exact (last (endPhase_of_pass1 hphase)).imp_right fun hne hop => absurd hop hne
  | pass2 => exact ⟨by rw [endPhase_of_pass2 hphase], fun _ => rfl⟩

/-- Settles O30: only the end of a phase sets DONE, and it is then completion. -/
theorem completionStep : Obligations.CompletionStep := by
  intro s h t
  rcases tick_cases s with ⟨ht, -⟩ | ⟨ht, -⟩ | ⟨ht, -, hphase, htodo⟩ |
    ⟨⟨u, -, ⟨-, ht⟩ | ⟨q, -, n, v, -, ⟨-, ht⟩ | ⟨-, ht⟩⟩⟩, -⟩ <;> rw [ht] at h
  case inr.inr.inl =>
    obtain ⟨hend, hlast⟩ := endPhase_done h
    have htick : t = completeCommand s := (congrArg Prod.fst ht).trans hend
    rw [htick]
    exact ⟨completeCommand_frame s, rfl, htodo, s.busy_iff.2 hphase, hlast⟩
  all_goals cases h

/-! The same cycle. -/

/-- Settles O51: the cases of `statusSameCycle` by the flag that the micro-step sets. -/
theorem sameCycleEventIsNotLost : Obligations.SameCycleEventIsNotLost := by
  intro v s
  refine ⟨fun h => ?_, fun h => ?_, fun h => ⟨?_, tick_keeps_error h⟩⟩
  · simp only [statusSameCycle, h]
  · simp only [statusSameCycle, h]
  · simp only [statusSameCycle, h, tick_err h]

/-! The interrupt output. -/

/-- The bits of STATUS that can raise the interrupt (R26). -/
theorem statusWord_getLsbD (s : State) :
    (statusWord s).getLsbD 1 = s.done ∧ (statusWord s).getLsbD 2 = s.err ∧ (statusWord s).getLsbD 3 = s.ovr := by
  simp only [statusWord, BitVec.getLsbD_append, BitVec.getLsbD_ofBool]
  exact ⟨rfl, rfl, rfl⟩

/-- Settles O52: the registers read the bits `irq` is made of, and a reset clears them. -/
theorem irqFollowsTheRegisters : Obligations.IrqFollowsTheRegisters := by
  refine ⟨fun s => ?_, fun s => rfl⟩
  obtain ⟨hdone, herr, hovr⟩ := statusWord_getLsbD s
  have hstatus : readRegister 0x010 s = statusWord s := rfl
  have henable : readRegister 0x01C s = s.irqEn.setWidth 32 := rfl
  simp only [hstatus, henable, hdone, herr, hovr, BitVec.getLsbD_setWidth]
  rfl

end Sys2Proof.Machine
end

section
/-! SUPPORT. That every command ends whose requests are all answered (R159, R160): each micro-step leaves less work. -/
namespace Sys2Proof.Machine

/-! The work left. -/

/-- Work is left while a command runs (R160). -/
theorem State.workLeft_pos {s : State} (hbusy : s.phase ≠ .idle) : 0 < s.workLeft := by
  cases hphase : s.phase with
  | idle => exact absurd hphase hbusy
  | kgen | pass1 | pass2 => simp [State.workLeft, hphase]

/-- In a phase, a unit less to do is less work left. -/
theorem State.workLeft_lt_of_todo {s t : State} (hbusy : s.phase ≠ .idle) (hphase : t.phase = s.phase)
    (hlatch : t.latch = s.latch) (htodo : t.todo.length < s.todo.length) : t.workLeft < s.workLeft := by
  simp only [State.workLeft, State.runsBlur, hphase, hlatch]
  cases hs : s.phase with
  | idle => exact absurd hs hbusy
  | kgen | pass1 | pass2 => simpa using htodo

/-- The end of a phase leaves less work: the phases still to come, or none (R114, R131). -/
theorem endPhase_workLeft {s : State} (hbusy : s.phase ≠ .idle) : (endPhase s).1.workLeft < s.workLeft := by
  have completed : (completeCommand s).workLeft < s.workLeft := State.workLeft_pos hbusy
  cases hphase : s.phase with
  | idle => exact absurd hphase hbusy
  | kgen =>
    rw [endPhase_of_kgen hphase]
    split
    · simp [State.workLeft, State.runsBlur, currentPass, *]
    · exact completed
  | pass1 =>
    rw [endPhase_of_pass1 hphase]
    split
    · simp [State.workLeft, State.runsBlur, currentPass, *]
    · exact completed
  | pass2 => rw [endPhase_of_pass2 hphase]; exact completed

/-- The end of a phase stalls nothing (R114, R131). -/
@[simp] theorem endPhase_stalled (s : State) : (endPhase s).1.stalled = s.stalled := by
  unfold endPhase
  cases s.phase <;> cases s.runsBlur <;> rfl

/-! Commands whose requests are all answered. -/

/-- No request of the running command is left without an answer, in the phase that runs or in one to come (R160). -/
structure State.Responsive (s : State) : Prop where
  not_stalled : s.stalled = false
  first : s.phase ≠ .pass2 → s.usesBuffers = true → (firstPass s.latch).Responsive s.inst s.bus
  second : s.runsBlur = true → (secondPass s.latch).Responsive s.inst s.bus

/-- Then the pass that runs is such a pass. -/
theorem State.Responsive.pass {s : State} (h : s.Responsive) (hinv : s.Inv) (hphase : s.phase = .pass1 ∨ s.phase = .pass2) :
    (currentPass s).Responsive s.inst s.bus := by
  have hrunning := hinv.running
  rcases hphase with hphase | hphase <;> simp only [RunningOk, currentPass, hphase] at hrunning ⊢
  · obtain ⟨-, -, -, -, hop⟩ := hrunning
    exact h.first (by simp [hphase]) (by simpa [State.usesBuffers, State.busy, hphase] using hop.imp_right And.left)
  · obtain ⟨-, -, -, hop, -⟩ := hrunning
    exact h.second (by simp [State.runsBlur, hop])

/-- In such a pass no unit has a request without an answer (R160). -/
theorem Pass.Responsive.answered {inst : Params} {b : Bus} {p : Pass} (h : p.Responsive inst b) {u : Nat}
    (hu : u < p.units) {q : Request} (hq : q ∈ (p.outputs u).flatMap (p.badRequests inst b)) :
    q.unanswered b = false := by
  obtain ⟨o, ho, hq⟩ := List.mem_flatMap.1 hq
  obtain ⟨hr, hc⟩ := p.outputs_in_range hu ho
  exact Pass.answered_of_mem_badRequests (h o.r hr o.c hc) hq

/-- Taking a unit leaves one less to do (R91). -/
theorem takeUnit_length {s : State} (h : s.todo ≠ []) : (takeUnit s).todo.length < s.todo.length := by
  have hpos := List.length_pos_iff.2 h
  have hlt : s.nextUnit < s.todo.length := Nat.mod_lt _ hpos
  rw [takeUnit_todo, List.length_eraseIdx_of_lt hlt]
  exact Nat.sub_one_lt_of_lt hpos

/-- A micro-step of such a command does not stall it, and leaves less work (R129, R131, R160). -/
theorem State.Responsive.tick_progress {s : State} (h : s.Responsive) (hinv : s.Inv) (hbusy : s.phase ≠ .idle) :
    (tick s).1.stalled = false ∧ (tick s).1.workLeft < s.workLeft := by
  have hst := h.not_stalled
  rcases tick_cases s with ⟨-, hst' | hidle⟩ | ⟨ht, -, -, hne⟩ | ⟨ht, -⟩ | ⟨⟨u, hu, hunit⟩, -, hphase, hne⟩
  · cases hst.symm.trans hst'
  · exact absurd hidle hbusy
  · rw [ht]
    exact ⟨hst, State.workLeft_lt_of_todo hbusy rfl rfl (List.length_pos_iff.2 hne)⟩
  · rw [ht]
    exact ⟨(endPhase_stalled s).trans hst, endPhase_workLeft hbusy⟩
  · obtain ⟨-, -, hunits⟩ := hinv.pass hphase
    have hlt := hunits u (hu ▸ nextUnit_mem hne)
    rcases hunit with ⟨-, ht⟩ | ⟨q, hq, n, t, rfl, ⟨hnever, -⟩ | ⟨-, ht⟩⟩
    · rw [ht, runOutputs_frame]
      exact ⟨hst, State.workLeft_lt_of_todo hbusy rfl rfl (takeUnit_length hne)⟩
    · cases ((h.pass hinv hphase).answered hlt hq).symm.trans hnever
    · rw [ht]
      exact ⟨by simp [abortCommand_frame, hst], State.workLeft_pos hbusy⟩

/-- A micro-step leaves it such a command (R114). -/
theorem State.Responsive.tick {s : State} (h : s.Responsive) (hinv : s.Inv) (hbusy : s.phase ≠ .idle) :
    (tick s).1.Responsive := by
  obtain ⟨hst, -⟩ := h.tick_progress hinv hbusy
  have hphase := tick_phase s
  have hframe := tick_frame s
  generalize (Machine.tick s).1 = t at *
  have hlatch : t.latch = s.latch := by rw [hframe]
  have hinst : t.inst = s.inst := by rw [hframe]
  have hbus : t.bus = s.bus := by rw [hframe]
  refine ⟨hst, fun hearly huses => ?_, fun hblur => ?_⟩ <;> rw [hlatch, hinst, hbus]
  · simp only [State.usesBuffers, Bool.and_eq_true, t.busy_iff, hlatch] at huses
    obtain ⟨hrunning, hop⟩ := huses
    have hfirst : s.phase ≠ .pass2 := by
      rcases hphase with hsame | hidle | ⟨hkgen, -⟩ | ⟨hpass, -⟩
      · exact hsame ▸ hearly
      · exact absurd hidle hrunning
      · simp [hkgen]
      · simp [hpass]
    exact h.first hfirst (by rw [State.usesBuffers, s.busy_iff.2 hbusy, hop]; rfl)
  · exact h.second (by rwa [State.runsBlur, ← hlatch])

/-- As many micro-steps as there is work left end it (R160). -/
theorem State.Responsive.ends {n : Nat} {s : State} (h : s.Responsive) (hinv : s.Inv) (hwork : s.workLeft ≤ n) :
    (advance n s).phase = .idle := by
  induction n generalizing s with
  | zero =>
    by_contra hbusy
    exact absurd (State.workLeft_pos hbusy) (not_lt.2 hwork)
  | succ n ih =>
    by_cases hidle : s.phase = .idle
    · rw [advance_idle _ hidle, hidle]
    · obtain ⟨-, hless⟩ := h.tick_progress hinv hidle
      exact ih (h.tick hinv hidle) hinv.tick (Nat.le_of_lt_succ (hless.trans_le hwork))

/-- Settles O32: each micro-step leaves less work, until no command runs. -/
theorem commandEndsInBoundedSteps : Obligations.CommandEndsInBoundedSteps := by
  intro s hinv hst hfirst hsecond
  rw [State.busy, State.Responsive.ends ⟨hst, hfirst, hsecond⟩ hinv le_rfl]
  rfl

end Sys2Proof.Machine
end

section
/-! SUPPORT. Requests that are never answered (R160): the micro-step that meets one, and what is left to the host then. -/
namespace Sys2Proof.Machine

/-- An output has no request that gets a bad answer exactly when its reads and its write all get good ones (R54). -/
theorem Pass.badRequests_eq_nil_iff {inst : Params} {b : Bus} {p : Pass} {o : Output} :
    p.badRequests inst b o = [] ↔ (∀ q ∈ p.reads inst o, q.bad b = false) ∧ (p.write o).bad b = false := by
  have hreads : (p.reads inst o).filter (·.bad b) = [] ↔ ∀ q ∈ p.reads inst o, q.bad b = false := by
    simp [List.filter_eq_nil_iff]
  unfold Pass.badRequests
  dsimp only
  split
  · rename_i hnil
    rw [and_iff_right (hreads.1 (List.isEmpty_iff.1 hnil))]
    simp
  · rename_i hne
    rw [List.isEmpty_iff] at hne
    exact ⟨fun hnil => absurd hnil hne, fun hgood => absurd (hreads.2 hgood.1) hne⟩

/-- An output with an unanswered request has a request that gets a bad answer (R160). -/
theorem Pass.badRequests_ne_nil_of_unanswered {inst : Params} {b : Bus} {p : Pass} {o : Output}
    (h : (∃ k < 7, spansCover b.noAnswer (p.tapAddr inst o.r o.c k) = true) ∨
      spansCover b.noAnswer (p.outAddr o.r o.c) = true) : p.badRequests inst b o ≠ [] := by
  intro hnil
  obtain ⟨hreads, hwrite⟩ := Pass.badRequests_eq_nil_iff.1 hnil
  rcases h with ⟨k, hk, hnever⟩ | hnever
  · have hgood := hreads _ (List.mem_map_of_mem (List.mem_range.2 hk))
    cases hnever.symm.trans (Bool.or_eq_false_iff.1 hgood).2
  · cases hnever.symm.trans (Bool.or_eq_false_iff.1 hwrite).2

/-- A micro-step of a pass with units to do is a work unit (R105). -/
theorem tick_unitStep {s : State} (hphase : s.phase = .pass1 ∨ s.phase = .pass2) (hst : s.stalled = false)
    (htodo : s.todo ≠ []) : UnitStep s (tick s) := by
  have htick : tick s = runUnit s := by rcases hphase with h | h <;> simp [tick, hst, h, htodo]
  rw [htick]
  exact runUnit_cases s

/-- Where the unit that comes next has a request with a bad answer, the micro-step stalls the command with BUSY = 1 or
aborts it (R129, R160). -/
theorem tick_stalls_or_aborts {s : State} (hphase : s.phase = .pass1 ∨ s.phase = .pass2) (hst : s.stalled = false)
    (htodo : s.todo ≠ [])
    (hbad : ∃ o ∈ (currentPass s).outputs (s.todo.getD s.nextUnit 0), (currentPass s).badRequests s.inst s.bus o ≠ []) :
    ((tick s).2 = .none ∧ (tick s).1.stalled = true ∧ (tick s).1.busy = true) ∨ (tick s).2 = .err := by
  obtain ⟨u, rfl, ⟨hnil, -⟩ | ⟨q, -, n, t, rfl, ⟨-, h⟩ | ⟨-, h⟩⟩⟩ := tick_unitStep hphase hst htodo
  · obtain ⟨o, ho, hne⟩ := hbad
    exact absurd (List.flatMap_eq_nil_iff.1 hnil o ho) hne
  · rw [h]
    refine .inl ⟨rfl, rfl, (State.busy_iff _).2 ?_⟩
    rcases hphase with hphase | hphase <;> simp [hphase]
  · rw [h]
    exact .inr rfl

/-- A micro-step does not abort where every bus error of the unit that comes next is at an address that is never answered
(R129, R160). -/
theorem tick_ne_err_of_unanswered {s : State}
    (h : ∀ o ∈ (currentPass s).outputs (s.todo.getD s.nextUnit 0),
      (∀ k < 7, spansCover s.bus.readError ((currentPass s).tapAddr s.inst o.r o.c k) = true →
        spansCover s.bus.noAnswer ((currentPass s).tapAddr s.inst o.r o.c k) = true) ∧
      (spansCover s.bus.writeError ((currentPass s).outAddr o.r o.c) = true →
        spansCover s.bus.noAnswer ((currentPass s).outAddr o.r o.c) = true)) : (tick s).2 ≠ .err := by
  intro herr
  obtain ⟨-, -, o, ho, q, hq, hanswered, -⟩ := tick_aborts herr
  obtain ⟨hreads, hwrite⟩ := h o ho
  rcases Pass.busError_of_mem_badRequests hq hanswered with ⟨k, hk, rfl, herror⟩ | ⟨rfl, herror⟩
  · cases hanswered.symm.trans (hreads k hk herror)
  · cases hanswered.symm.trans (hwrite herror)

/-- The micro-steps that follow an event change nothing once a request is left without an answer (R160). -/
theorem runLead_stalled {s : State} (h : s.stalled = true) : runLead s = s := advance_stalled _ h

/-- Nor do they when no command runs. -/
theorem runLead_idle {s : State} (h : s.phase = .idle) : runLead s = s := advance_idle _ h

/-- Bit 0 of STATUS is BUSY (R26). -/
theorem statusWord_getLsbD_zero (s : State) : (statusWord s).getLsbD 0 = s.busy := by
  simp only [statusWord, BitVec.getLsbD_append, BitVec.getLsbD_ofBool]
  rfl

/-- A step with an event to come answers it (log 1). -/
theorem step_event {s : State} {op : HostOp} {n : Nat} {rest : List Input}
    (hop : s.inputs = { op := op, lead := n } :: rest) :
    step s = hostEvent op { s with inputs := rest, lead := n } := by
  rw [step, nextEvent, hop]

/-- When `rst_n` falls the block is reset, and no micro-step follows that does anything (R146). -/
theorem step_rst_falls {s : State} {n : Nat} {rest : List Input}
    (hop : s.inputs = { op := .rstN false, lead := n } :: rest) :
    step s = .next { resetNow { s with inputs := rest, lead := n } with rstLow := true } :=
  (step_event hop).trans (congrArg _ (runLead_idle rfl))

/-- Settles O44: the unit's first bad request stalls the command or aborts it by a bus error; stalled, no
micro-step does anything, and a reset of the block leaves it idle. -/
theorem unansweredRequestSticks : Obligations.UnansweredRequestSticks := by
  intro s hinv p outs
  refine ⟨fun hphase hst htodo ⟨o, ho, hnever⟩ => ?_, fun hst => ?_⟩
  · have hstep := tick_stalls_or_aborts hphase hst htodo ⟨o, ho, Pass.badRequests_ne_nil_of_unanswered hnever⟩
    exact ⟨hstep, fun hnone => hstep.resolve_right (tick_ne_err_of_unanswered hnone)⟩
  · have hrunning : s.phase ≠ .idle := fun hidle => by
      obtain ⟨-, -, -, hst'⟩ := hinv.idle hidle
      cases hst.symm.trans hst'
    have hbusy := s.busy_iff.2 hrunning
    refine ⟨fun n => advance_stalled n hst, hbusy, fun ctrl => ?_, fun n rest hop => ?_, fun n rest hop => ?_⟩
    · rw [exec, execSrst, if_pos hst]
      exact congrArg _ (runLead_stalled hst)
    · obtain ⟨hread, -⟩ := stepReadsAndWritesRegisters s 0x010 0 n rest (hinv.rst_high hrunning) rfl
      exact ⟨statusWord s, (statusWord_getLsbD_zero s).trans hbusy, (hread hop).trans (congrArg _ (advance_stalled n hst))⟩
    · exact ⟨_, step_rst_falls hop, rfl, rfl, rfl⟩

end Sys2Proof.Machine
end

section
/-! SUPPORT. The hardware reset (R46, R146, R148): its fall, the time it is low, and its rise. -/
namespace Sys2Proof.Machine

/-- A reset of a running pass leaves every byte outside its destination (R148). -/
theorem State.Inv.abandonPass_outside {s : State} (h : s.Inv) (hphase : s.phase = .pass1 ∨ s.phase = .pass2) {a : Nat}
    (ha : ¬ (currentPass s).InDest a) : Memory.get (Machine.abandonPass s).mem a = Memory.get s.mem a := by
  obtain ⟨-, -, hunits⟩ := h.pass hphase
  rw [abandonPass_cut hphase]
  exact landUnits_outside (s := s.dropPick) hunits ha

/-- Without a race, the word of each of its outputs is as it was or holds the output's value (R146, R147). -/
theorem State.Inv.abandonPass_old_or_new {s : State} (h : s.Inv) (hphase : s.phase = .pass1 ∨ s.phase = .pass2)
    (hraced : s.raced = []) {r c : Nat} (hr : r < (currentPass s).h)
    (hcalm : (currentPass s).readsOwnOutput s.inst r c = false) :
    Memory.read32 (Machine.abandonPass s).mem ((currentPass s).outAddr r c) =
        Memory.read32 s.mem ((currentPass s).outAddr r c) ∨
      Memory.read32 (Machine.abandonPass s).mem ((currentPass s).outAddr r c) =
        (currentPass s).value s.inst s.kw s.mem r c := by
  obtain ⟨-, -, hunits⟩ := h.pass hphase
  rw [abandonPass_cut hphase]
  exact landUnits_old_or_new (s := s.dropPick) hraced h.memory_canonical hunits hr hcalm

/-- A reset keeps the parameters (R148). -/
@[simp] theorem abandonPass_inst (s : State) : (Machine.abandonPass s).inst = s.inst := by rw [abandonPass_frame]

/-- What every offset reads after a reset, whatever level `rst_n` then has (R46). -/
theorem readRegister_resetNow (off : Offset) (s : State) (level : Bool) :
    readRegister off { resetNow s with rstLow := level } =
      if off = 0x000 then 0x47424C37 else if off = 0x004 then capWord s.inst else 0 := by
  rw [← abandonPass_inst s]
  exact readRegister_resetBlock off { Machine.abandonPass s with rstLow := level }

/-- While `rst_n` is low no command runs (R146). -/
theorem State.Inv.idle_of_rst_low {s : State} (h : s.Inv) (hlow : s.rstLow = true) : s.phase = .idle := by
  rw [← h.in_reset hlow]
  rfl

/-- Settles O45: the fall of `rst_n` is `resetNow`, and while it is low the invariant has every register at its reset value,
so that no micro-step follows an event. -/
theorem hardwareResetClearsEveryRegister : Obligations.HardwareResetClearsEveryRegister := by
  intro s n rest resetValue
  refine ⟨fun hop => ?_, fun hinv hlow => ?_⟩
  · refine ⟨_, step_rst_falls hop, ?_, fun off => ?_, rfl, rfl,
      abandonPass_mem (s := { s with inputs := rest, lead := n }), fun hinv hphase => ?_⟩
    · rw [resetNow_frame]
      rfl
    · exact readRegister_resetNow off { s with inputs := rest, lead := n } true
    · have hinv := hinv.quiet s.bus s.rdata rest n s.picks s.free
      exact ⟨fun a ha => hinv.abandonPass_outside hphase ha, fun hraced r hr c _ hcalm =>
        hinv.abandonPass_old_or_new hphase hraced hr hcalm⟩
  · have hreset := hinv.in_reset hlow
    have hidle := hinv.idle_of_rst_low hlow
    refine ⟨fun off => ?_, ?_, ?_, fun off v hop => ?_, fun off hop => ?_, fun off hop => ?_, fun hop => ?_⟩
    · rw [← hreset]
      exact readRegister_resetBlock off s
    · rw [← hreset]
      rfl
    · simp [State.busy, hidle]
    · exact (step_event hop).trans ((if_pos hlow).trans (congrArg _ (runLead_idle hidle)))
    · exact ⟨s.freeWord, (step_event hop).trans ((if_pos hlow).trans (congrArg _ (runLead_idle hidle)))⟩
    · exact (step_event hop).trans ((if_pos hlow).trans (congrArg _ (runLead_idle hidle)))
    · exact (step_event hop).trans
        (congrArg _ (runLead_idle (s := { s with inputs := rest, lead := n, rstLow := false }) hidle))

end Sys2Proof.Machine
end
